-- ==== Sys2Proof/Word.lean ====
section
/-!
DEFINITION. The word types of the PartaV2 Keccak-p engine.

Bit 0 of every value is its least significant bit (00_scope.md R5); a value is an unsigned integer and no operation of
this hardware is signed (R6), so `BitVec` with its `toNat` reading is the spec's own notion of a value.
-/

namespace Sys2Proof

/-- A 64-bit value: a host-visible register, a command word or a DATA operand (00_scope.md R4, R5). -/
abbrev Word := BitVec 64

/-- An 8-bit state or message byte (10_state.md R22, R23). -/
abbrev Byte := BitVec 8

/-- One lane `L(x,y)` of the state array: 64 bits, bit z is `A[x][y][z]` (00_scope.md R9). -/
abbrev Lane := Word

/-- The 1600-bit state array `A`: 25 lanes, lane (x,y) at index `5*y + x` (10_state.md R20, R21). -/
abbrev StateArray := Vector Lane 25

end Sys2Proof
end

