-- ==== Sys2Proof/Config.lean ====
section
/-!
DEFINITION. What the spec leaves OPEN (00_scope.md R4) or unspecified (20_memory.md R64): constants with no body, so no
proof can rest on a value of them.

`LATENCY(cmd)` has no constant: no rule depends on its value (70_reset_and_hazards.md R250), and every latency is some
place of the engine's moves in `Machine.State.moves` (log 2). `rawshake_suffix` is an argument of the host preset in
`Sys2Proof.Machine.HostProgram` (log 11): the hardware takes either suffix as an operand of PAD.
-/

namespace Sys2Proof

/-- `KPE_BASE`, the base address of the register port in the host address space: OPEN, a platform parameter
(20_memory.md R51; log 7). -/
opaque Config.kpeBase : Nat

/-- The value a read of LANE[i], RESULT or POS returns while STATUS.BUSY = 1: "any value, possibly a different one on
each read" (20_memory.md R64). The argument counts the draws made so far, so two reads are not related (log 4). -/
opaque Config.busyRead : Nat → Word

end Sys2Proof
end

