-- ==== Sys2Proof/Syntax.lean ====
section
/-!
DEFINITION. The commands: one constructor per row of spec/opcode_table.json, with the operand fields of the command's
format as the word carries them (30_encoding.md R81 to R88). A field may hold a value the spec rejects (x = 7, IR = 31,
SLEN = 7): `WellFormed` says which values are legal, and the meaning of an ill-formed command is its rejection.
-/

namespace Sys2Proof

/-- A command of the engine (30_encoding.md R81). -/
inductive Instr where
  /-- INIT, format N: clear the state array and POS (40_lane_ops.md R100). -/
  | init
  /-- XORL x, y, MASK, format L: masked XOR of DATA into a lane (40_lane_ops.md R101). -/
  | xorl (x y : BitVec 3) (mask : BitVec 8)
  /-- WRL x, y, MASK, format L: masked write of DATA to a lane (40_lane_ops.md R102). -/
  | wrl (x y : BitVec 3) (mask : BitVec 8)
  /-- ROTL x, y, AMT, format LR: cyclic left rotation of a lane (40_lane_ops.md R103). -/
  | rotl (x y : BitVec 3) (amt : BitVec 6)
  /-- ROTR x, y, AMT, format LR: cyclic right rotation of a lane (40_lane_ops.md R104). -/
  | rotr (x y : BitVec 3) (amt : BitVec 6)
  /-- THETA, format N (41_permutation.md R131). -/
  | theta
  /-- RHO, format N (41_permutation.md R132). -/
  | rho
  /-- PI, format N (41_permutation.md R133). -/
  | pi
  /-- CHI, format N (41_permutation.md R134). -/
  | chi
  /-- IOTA IR, format R (41_permutation.md R135). -/
  | iota (ir : BitVec 5)
  /-- ROUND IR, format R (41_permutation.md R136). -/
  | round (ir : BitVec 5)
  /-- PERMUTE, format N (41_permutation.md R138). -/
  | permute
  /-- RCGEN IR, format R (41_permutation.md R139). -/
  | rcgen (ir : BitVec 5)
  /-- ABSORB n with n = CNT + 1, format C (42_sponge.md R163). -/
  | absorb (cnt : BitVec 3)
  /-- PAD SLEN, SUF, format P (42_sponge.md R165). -/
  | pad (slen : BitVec 3) (suf : BitVec 6)
  /-- SQUEEZE n with n = CNT + 1, format C (42_sponge.md R166). -/
  | squeeze (cnt : BitVec 3)
  deriving DecidableEq, Repr

/-- ABSORB, PAD and SQUEEZE: the commands that need a configured RATE (42_sponge.md R160). -/
def Instr.isSponge : Instr → Bool
  | .absorb _ | .pad _ _ | .squeeze _ => true
  | .init | .xorl _ _ _ | .wrl _ _ _ | .rotl _ _ _ | .rotr _ _ _ | .theta | .rho | .pi | .chi
  | .iota _ | .round _ | .permute | .rcgen _ => false

end Sys2Proof
end

