-- ==== Sys2Proof/WellFormed.lean ====
section
/-!
DEFINITION. The error causes of a command (60_exceptions.md R200) and the operand ranges the assembler may emit
(30_encoding.md R92): the well-formed commands are exactly the ones `encode` has a legal word for.
-/

namespace Sys2Proof

/-- The causes of a rejection, R200's codes 1 to 7. Code 0 is "no error" and codes 8 to 15 are never produced. -/
inductive CmdErr where
  /-- Code 1: OP field not assigned (30_encoding.md R90). -/
  | illegalOp
  /-- Code 2: a must-be-zero bit of the command's format is 1 (30_encoding.md R91). -/
  | reservedBits
  /-- Code 3: lane coordinate x > 4 or y > 4. -/
  | badLane
  /-- Code 4: round index IR > 23. -/
  | badRound
  /-- Code 5: SLEN = 7, or SUF has a 1 at bit SLEN or above. -/
  | badSuffix
  /-- Code 6: sponge command while RATE = 0, or RATE write outside 1..200. -/
  | badRate
  /-- Code 7: CMD or RATE write while a command is pending. -/
  | busy
  deriving DecidableEq, Repr

/-- The operand ranges of 30_encoding.md R92: x, y in 0..4; ir in 0..23; slen in 0..6 and suf < 2^slen; every mask,
amount and byte count is legal. -/
def Instr.wellFormed : Instr → Bool
  | .xorl x y _ | .wrl x y _ | .rotl x y _ | .rotr x y _ => decide (x.toNat < 5) && decide (y.toNat < 5)
  | .iota ir | .round ir | .rcgen ir => decide (ir.toNat < 24)
  | .pad slen suf => decide (slen.toNat < 7) && decide (suf.toNat < 2 ^ slen.toNat)
  | .init | .theta | .rho | .pi | .chi | .permute | .absorb _ | .squeeze _ => true

/-- A command whose operands are all in range (30_encoding.md R92). -/
abbrev Instr.WellFormed (i : Instr) : Prop := i.wellFormed = true

end Sys2Proof
end

