-- ==== Sys2Proof/Decode.lean ====
section
/-!
DEFINITION. Decoding a command word (30_encoding.md R80 to R91) and, after it, encoding a command (R92).

`decode` is total on all 2^64 values and makes R89's checks in R89's order. The opcode map is `fieldsOf`, the
must-be-zero bits of each format are `mbzMask`, and the range checks are `operandError`.
-/

namespace Sys2Proof

/-! ## Fields (R88) -/

/-- `OP = W[5:0]` (R80). -/
def fieldOp (W : Word) : BitVec 6 := W.extractLsb' 0 6
/-- `x = W[8:6]` (R88). -/
def fieldX (W : Word) : BitVec 3 := W.extractLsb' 6 3
/-- `y = W[11:9]` (R88). -/
def fieldY (W : Word) : BitVec 3 := W.extractLsb' 9 3
/-- `MASK = W[19:12]` (R88). -/
def fieldMask (W : Word) : BitVec 8 := W.extractLsb' 12 8
/-- `AMT = W[17:12]` (R88). -/
def fieldAmt (W : Word) : BitVec 6 := W.extractLsb' 12 6
/-- `IR = W[16:12]` (R88). -/
def fieldIr (W : Word) : BitVec 5 := W.extractLsb' 12 5
/-- `CNT = W[14:12]`; the byte count is `n = CNT + 1` (R86, R88). -/
def fieldCnt (W : Word) : BitVec 3 := W.extractLsb' 12 3
/-- `SLEN = W[14:12]` (R88). -/
def fieldSlen (W : Word) : BitVec 3 := W.extractLsb' 12 3
/-- `SUF = W[21:16]` (R88). -/
def fieldSuf (W : Word) : BitVec 6 := W.extractLsb' 16 6

/-! ## Decoding -/

/-- The opcode map of R81 with the operand fields of each format: `none` for an OP that the map does not assign
(0x00, 0x06, 0x07, 0x13 to 0x3F; R90). -/
def fieldsOf (W : Word) : Option Instr :=
  match (fieldOp W).toNat with
  | 0x01 => some .init
  | 0x02 => some (.xorl (fieldX W) (fieldY W) (fieldMask W))
  | 0x03 => some (.wrl (fieldX W) (fieldY W) (fieldMask W))
  | 0x04 => some (.rotl (fieldX W) (fieldY W) (fieldAmt W))
  | 0x05 => some (.rotr (fieldX W) (fieldY W) (fieldAmt W))
  | 0x08 => some .theta
  | 0x09 => some .rho
  | 0x0A => some .pi
  | 0x0B => some .chi
  | 0x0C => some (.iota (fieldIr W))
  | 0x0D => some (.round (fieldIr W))
  | 0x0E => some .permute
  | 0x0F => some (.rcgen (fieldIr W))
  | 0x10 => some (.absorb (fieldCnt W))
  | 0x11 => some (.pad (fieldSlen W) (fieldSuf W))
  | 0x12 => some (.squeeze (fieldCnt W))
  | _ => none

/-- The must-be-zero bits of the command's format, `W[63:32]` among them: N R82, L R83, LR R84, R R85, C R86, P R87. -/
def mbzMask : Instr → Word
  | .init | .theta | .rho | .pi | .chi | .permute => 0xFFFFFFFFFFFFFFC0#64
  | .xorl _ _ _ | .wrl _ _ _ => 0xFFFFFFFFFFF00000#64
  | .rotl _ _ _ | .rotr _ _ _ => 0xFFFFFFFFFFFC0000#64
  | .iota _ | .round _ | .rcgen _ => 0xFFFFFFFFFFFE0FC0#64
  | .absorb _ | .squeeze _ => 0xFFFFFFFFFFFF8FC0#64
  | .pad _ _ => 0xFFFFFFFFFFC08FC0#64

/-- Steps 3 to 5 of R89: BAD_LANE for a coordinate above 4 (R83), BAD_ROUND for IR above 23 (R85), BAD_SUFFIX for
SLEN = 7 or `SUF >> SLEN ≠ 0` (R87). -/
def operandError : Instr → Option CmdErr
  | .xorl x y _ | .wrl x y _ | .rotl x y _ | .rotr x y _ =>
    if x.toNat > 4 ∨ y.toNat > 4 then some .badLane else none
  | .iota ir | .round ir | .rcgen ir => if ir.toNat > 23 then some .badRound else none
  | .pad slen suf => if slen.toNat = 7 ∨ suf >>> slen.toNat ≠ 0#6 then some .badSuffix else none
  | .init | .theta | .rho | .pi | .chi | .permute | .absorb _ | .squeeze _ => none

/-- `decode(W)` of R89: a command with its operands, or the error of the first check that fails. -/
def decode (W : Word) : Except CmdErr Instr :=
  match fieldsOf W with
  | none => .error .illegalOp
  | some i =>
    if W &&& mbzMask i ≠ 0#64 then .error .reservedBits
    else
      match operandError i with
      | some e => .error e
      | none => .ok i

/-! ## Encoding -/

/-- The opcode numbers of R81. -/
def opcode : Instr → Word
  | .init => 0x01#64
  | .xorl _ _ _ => 0x02#64
  | .wrl _ _ _ => 0x03#64
  | .rotl _ _ _ => 0x04#64
  | .rotr _ _ _ => 0x05#64
  | .theta => 0x08#64
  | .rho => 0x09#64
  | .pi => 0x0A#64
  | .chi => 0x0B#64
  | .iota _ => 0x0C#64
  | .round _ => 0x0D#64
  | .permute => 0x0E#64
  | .rcgen _ => 0x0F#64
  | .absorb _ => 0x10#64
  | .pad _ _ => 0x11#64
  | .squeeze _ => 0x12#64

/-- The command word of R92: `OP | x<<6 | y<<9 | mask<<12` and its siblings, every unwritten bit 0. -/
def encode (i : Instr) : Word :=
  match i with
  | .init | .theta | .rho | .pi | .chi | .permute => opcode i
  | .xorl x y mask | .wrl x y mask =>
    opcode i ||| (x.setWidth 64 <<< 6) ||| (y.setWidth 64 <<< 9) ||| (mask.setWidth 64 <<< 12)
  | .rotl x y amt | .rotr x y amt =>
    opcode i ||| (x.setWidth 64 <<< 6) ||| (y.setWidth 64 <<< 9) ||| (amt.setWidth 64 <<< 12)
  | .iota ir | .round ir | .rcgen ir => opcode i ||| (ir.setWidth 64 <<< 12)
  | .absorb cnt | .squeeze cnt => opcode i ||| (cnt.setWidth 64 <<< 12)
  | .pad slen suf => opcode i ||| (slen.setWidth 64 <<< 12) ||| (suf.setWidth 64 <<< 16)

/-! ## The opcode table's words -/

/-- The 64-bit command word whose low `nbits` bits are those of `w` and whose other bits are 0. -/
def tableWord (nbits w : Nat) : Word := BitVec.ofNat 64 (w % 2 ^ nbits)

/-- The instruction the decoder reads from an opcode-table word; `none` where it refuses. A command is one 64-bit
register write, so the table's numbering is the word's own. -/
def decodeTableWord (nbits w : Nat) : Option Instr :=
  match decode (tableWord nbits w) with
  | .ok i => some i
  | .error _ => none

end Sys2Proof
end

