-- ==== Sys2Proof/Machine/State.lean ====
section
/-!
DEFINITION. The machine's state as plain data (10_state.md R35), the environment's moves, the reasons a step can stop,
and the state after reset (70_reset_and_hazards.md R240).
-/

namespace Sys2Proof.Machine

/-- The pending-command latch `PEND = (valid, word, data)` (10_state.md R33). -/
structure Pend where
  /-- 1 from the acceptance of a command until the engine completes it; it IS STATUS.BUSY (R33). -/
  valid : Bool
  /-- The accepted 64-bit command value. -/
  word : Word
  /-- The value of DATA at acceptance. -/
  data : Word
  deriving DecidableEq, Repr

/-- The width of a port access (20_memory.md R54): only `w64` is legal. -/
inductive Width where
  | w8
  | w16
  | w32
  | w64
  | burst
  deriving DecidableEq, Repr

/-- One register access of the host on the port, at a 9-bit byte offset (20_memory.md R50, R51). -/
inductive Access where
  | read (width : Width) (offset : BitVec 9)
  | write (width : Width) (offset : BitVec 9) (value : Word)
  deriving DecidableEq, Repr

/-- What moves next: one constructor per agent (20_memory.md R50), and the platform's reset
(70_reset_and_hazards.md R240, R241). -/
inductive Move where
  /-- The host performs one register access. -/
  | host (a : Access)
  /-- The engine completes the pending command; with none pending nothing happens. -/
  | engine
  /-- The reset event, which may come between any two other steps. -/
  | reset
  /-- A second host performs an access on the same instance: refused (60_exceptions.md R215). -/
  | secondHost (a : Access)
  deriving DecidableEq, Repr

/-- What the port answers to a legal access. (An illegal one is answered with BusError, which is a fault; R57.) -/
inductive Reply where
  /-- A read returned this value. -/
  | value (v : Word)
  /-- A write was taken. -/
  | done
  deriving DecidableEq, Repr

/-- The machine's state: the spec's (10_state.md R35), the spec's optional ghost flag (60_exceptions.md R204), and three
fields of the model's own, for the environment and for free values. -/
structure State where
  /-- The state array, 25 lanes of 64 bits (R20). -/
  A : StateArray
  /-- DATA (R26). -/
  data : Word
  /-- RESULT (R27). -/
  result : Word
  /-- RATE, bits 7:0; bits 63:8 read 0 (R29). -/
  rate : BitVec 8
  /-- POS, bits 7:0; bits 63:8 read 0 (R30). -/
  pos : BitVec 8
  /-- STATUS.ERR (R28). -/
  err : Bool
  /-- STATUS.ERRCODE (R28). -/
  errCode : BitVec 4
  /-- The pending-command latch; STATUS.BUSY is its `valid` (R33). -/
  pend : Pend
  /-- The ghost flag "a rejection happened", which no rule clears (R204; log 8). -/
  rejected : Bool
  /-- MODEL'S OWN: the environment's moves still to come, oldest first (log 1, log 2). -/
  moves : List Move
  /-- MODEL'S OWN: what the port answered to the host, newest first (log 1). -/
  replies : List Reply
  /-- MODEL'S OWN: how many free draws reads while busy have made (log 4). -/
  draws : Nat
  deriving DecidableEq, Repr

/-- Why a step stops with a fault. -/
inductive Fault where
  /-- Raised by the register port for an access that R57 answers with BusError ("a run that performs such an access is
  faulted"). Safe: the hardware answers with an error response and no effect (log 12). -/
  | busError (a : Access)
  /-- Raised by ABSORB, PAD and SQUEEZE in a state with RATE > 200 or POS > RATE, which 10_state.md R36 rules out of
  every run: the byte position would lie outside the state-byte space or the block. Safe (log 5). -/
  | spongeRange
  /-- Raised by the engine when the pending word does not decode, with decode's error; R202 latches only words that
  decode, so no run reaches it. Safe (log 6). -/
  | pendingWord (e : CmdErr)
  deriving DecidableEq, Repr

/-- Why a step is refused. -/
inductive Refusal where
  /-- Raised by `exec` for an instruction that has no meaning yet. Safe. No arm of this model uses it. -/
  | notModelled (mnemonic : String)
  /-- Raised by the step for a second host on one instance: "a model with two hosts writing one instance has no meaning
  and must be refused" (60_exceptions.md R215; log 13). Safe. -/
  | secondHost
  deriving DecidableEq, Repr

/-- The outcome of a step or of a command's meaning. -/
abbrev Result := Host.Outcome State Fault Refusal

/-- The state after reset (10_state.md R35, 70_reset_and_hazards.md R240): everything 0, nothing pending, no error.
PEND.word and PEND.data are don't-care there (R33) and are 0 here (log 3); the model's own fields are empty (log 1,
log 4, log 8). -/
def State.reset : State where
  A := Vector.replicate 25 0#64
  data := 0#64
  result := 0#64
  rate := 0#8
  pos := 0#8
  err := false
  errCode := 0#4
  pend := { valid := false, word := 0#64, data := 0#64 }
  rejected := false
  moves := []
  replies := []
  draws := 0

end Sys2Proof.Machine
end

