-- ==== Sys2Proof/Machine/Flags.lean ====
section
/-!
DEFINITION. The status register: the error codes (60_exceptions.md R200) and the assembly of STATUS from BUSY, ERR and
ERRCODE (10_state.md R28). The hardware has no condition codes (R31), so no command computes a flag.
-/

namespace Sys2Proof

/-- The code reported in STATUS.ERRCODE (60_exceptions.md R200). -/
def CmdErr.code : CmdErr → BitVec 4
  | .illegalOp => 1#4
  | .reservedBits => 2#4
  | .badLane => 3#4
  | .badRound => 4#4
  | .badSuffix => 5#4
  | .badRate => 6#4
  | .busy => 7#4

namespace Machine

/-- STATUS.BUSY: "STATUS.BUSY = PEND.valid at all times" (10_state.md R33). -/
def State.busy (s : State) : Bool := s.pend.valid

/-- The 64-bit value of STATUS: bit 0 BUSY, bit 1 ERR, bits 7:2 zero, bits 11:8 ERRCODE, bits 63:12 zero
(10_state.md R28). -/
def statusWord (s : State) : Word :=
  0#52 ++ s.errCode ++ 0#6 ++ BitVec.ofBool s.err ++ BitVec.ofBool s.busy

end Machine

end Sys2Proof
end

