-- ==== Sys2Proof/Machine/Operands.lean ====
section
/-!
DEFINITION. Values and operand forms: rotation (00_scope.md R8), the byte view of a 64-bit value (20_memory.md R55),
and every operand of a command as 30_encoding.md R88 assembles it.
-/

namespace Sys2Proof.Machine

/-! ## Rotation (00_scope.md R8) -/

/-- `rotl64(v, n)`: bit z is `v[(z - n) mod 64]`, for any natural n. -/
def rotl64 (v : Lane) (n : Nat) : Lane := v.rotateLeft n

/-- `rotr64(v, n) = rotl64(v, (64 - (n mod 64)) mod 64)`. -/
def rotr64 (v : Lane) (n : Nat) : Lane := rotl64 v ((64 - n % 64) % 64)

/-! ## Bytes of a 64-bit value (20_memory.md R55) -/

/-- Byte j of a 64-bit value, bits `[8j+7:8j]`. -/
def wordByte (w : Word) (j : Nat) : Byte := w.extractLsb' (8 * j) 8

/-- The value with byte j replaced. -/
def putByte (w : Word) (j : Nat) (b : Byte) : Word :=
  (w &&& ~~~(0xFF#64 <<< (8 * j))) ||| (b.setWidth 64 <<< (8 * j))

/-- The little-endian assembly `Σ_j b_j * 2^(8j)` of up to 8 bytes; bytes that are not given are 0 (42_sponge.md R166,
R167). -/
def packBytes : List Byte → Word
  | [] => 0#64
  | b :: bs => (packBytes bs <<< 8) ||| b.setWidth 64

/-- Bytes 0 to n-1 of a value, byte 0 first: the message bytes ABSORB n takes from DATA (42_sponge.md R163). -/
def lowBytes (w : Word) (n : Nat) : List Byte := (List.range n).map (wordByte w)

/-! ## Operands of a command (30_encoding.md R88) -/

/-- A lane coordinate: legal when at most 4 (R83, R88). -/
def coordinate (v : BitVec 3) : Option (Fin 5) := if h : v.toNat < 5 then some ⟨v.toNat, h⟩ else none

/-- `M64 = Σ_j (MASK[j] * 0xFF * 2^(8j))`, the expanded byte mask (R88). -/
def expandMask (mask : BitVec 8) : Word :=
  packBytes ((List.range 8).map fun j => if mask.getLsbD j then 0xFF#8 else 0x00#8)

/-- The byte count `n = CNT + 1`, 1 to 8 (R86, R88). -/
def byteCount (cnt : BitVec 3) : Nat := cnt.toNat + 1

/-- The rotate amount, "used unchanged" (R84, R88). -/
def rotateAmount (amt : BitVec 6) : Nat := amt.toNat

/-- A round index: legal when at most 23 (R85, R88). -/
def roundIndex (ir : BitVec 5) : Option Nat := if ir.toNat < 24 then some ir.toNat else none

/-- A domain suffix: legal when SLEN is at most 6 and SUF has no 1 at bit SLEN or above (R87). -/
def suffixLegal (slen : BitVec 3) (suf : BitVec 6) : Bool :=
  decide (slen.toNat ≤ 6) && decide (suf >>> slen.toNat = 0#6)

/-- `padbyte = SUF OR (1 << SLEN)` (42_sponge.md R164). -/
def padByte (slen : BitVec 3) (suf : BitVec 6) : Byte := suf.setWidth 8 ||| (1#8 <<< slen.toNat)

end Sys2Proof.Machine
end

