-- ==== Sys2Proof/Machine/Lanes.lean ====
section
/-!
DEFINITION. The three views of the state array: lanes `L(x,y)` (10_state.md R21), bits `A[x][y][z]` (00_scope.md R9) and
bytes `SB(k)` (10_state.md R22, R23). They name the same 1600 storage bits: the lanes are stored, the others computed.
-/

namespace Sys2Proof.Machine

/-- Lane index `i = 5y + x` (10_state.md R21). -/
def laneIndex (x y : Fin 5) : Fin 25 := ⟨5 * y.val + x.val, by omega⟩

/-- `L(x,y)` (00_scope.md R9). -/
def laneAt (A : StateArray) (x y : Fin 5) : Lane := A[laneIndex x y]

/-- `L(x,y) <- v` (00_scope.md R10). -/
def setLane (A : StateArray) (x y : Fin 5) (v : Lane) : StateArray := A.set (laneIndex x y) v

/-- The state array whose lane (x,y) is `f x y`: how a whole-state mapping gives its whole output (00_scope.md R9). -/
def tabulate (f : Fin 5 → Fin 5 → Lane) : StateArray :=
  Vector.ofFn fun i : Fin 25 => f ⟨i.val % 5, by omega⟩ ⟨i.val / 5, by omega⟩

/-- `A[x][y][z]`, bit z of lane (x,y) (00_scope.md R9). -/
def bitAt (A : StateArray) (x y : Fin 5) (z : Nat) : Bool := (laneAt A x y).getLsbD z

/-- The zero state (40_lane_ops.md R100). -/
def zeroArray : StateArray := Vector.replicate 25 0#64

/-- `MemRead(k, 1) = SB(k)`: byte `k mod 8` of lane `k div 8` (00_scope.md R10, 10_state.md R22). The state-byte space is
k < 200 (20_memory.md R52); no meaning asks for a byte outside it. -/
def memRead (A : StateArray) (k : Nat) : Byte := wordByte (A[k / 8]?.getD 0#64) (k % 8)

/-- `MemWrite(k, 1, v)`: `SB(k) <- v` (00_scope.md R10). There is no byte outside k < 200 to write (20_memory.md R52). -/
def memWrite (A : StateArray) (k : Nat) (v : Byte) : StateArray :=
  if h : k / 8 < 25 then A.set (k / 8) (putByte A[k / 8] (k % 8) v) else A

/-- `XorByte(k, v)` is `MemWrite(k, 1, MemRead(k, 1) XOR v)` (42_sponge.md R162). -/
def xorByte (A : StateArray) (k : Nat) (v : Byte) : StateArray := memWrite A k (memRead A k ^^^ v)

end Sys2Proof.Machine
end

