-- ==== Sys2Proof/Machine/Keccak.lean ====
section
/-!
DEFINITION. The step mappings theta, rho, pi, chi, iota, the round constants, and the permutation Keccak-p[1600, 24]
(41_permutation.md R120 to R137), as pure functions of the state array. Coordinates are `Fin 5`, whose arithmetic is
mod 5 (00_scope.md R6).
-/

namespace Sys2Proof.Machine

/-! ## Step mappings -/

/-- `C[x]`, the XOR of the five lanes of column x (R120). -/
def columnParity (A : StateArray) (x : Fin 5) : Lane :=
  laneAt A x 0 ^^^ laneAt A x 1 ^^^ laneAt A x 2 ^^^ laneAt A x 3 ^^^ laneAt A x 4

/-- `D[x] = C[(x-1) mod 5] XOR rotl64(C[(x+1) mod 5], 1)` (R120). -/
def thetaD (A : StateArray) (x : Fin 5) : Lane := columnParity A (x - 1) ^^^ rotl64 (columnParity A (x + 1)) 1

/-- theta: `L'(x,y) = L(x,y) XOR D[x]` (R120). -/
def theta (A : StateArray) : StateArray := tabulate fun x y => laneAt A x y ^^^ thetaD A x

/-- The rho offsets of R122, by lane index: row y, column x. -/
def rhoOffsets : Vector Nat 25 :=
  #v[ 0,  1, 62, 28, 27,
     36, 44,  6, 55, 20,
      3, 10, 43, 25, 39,
     41, 45, 15, 21,  8,
     18,  2, 61, 56, 14]

/-- `offset(x,y)` (R122). -/
def rhoOffset (x y : Fin 5) : Nat := rhoOffsets[laneIndex x y]

/-- rho: `L'(x,y) = rotl64(L(x,y), offset(x,y))` (R121). -/
def rho (A : StateArray) : StateArray := tabulate fun x y => rotl64 (laneAt A x y) (rhoOffset x y)

/-- pi: `L'(x,y) = L((x+3y) mod 5, x)` (R123). -/
def pi (A : StateArray) : StateArray := tabulate fun x y => laneAt A (x + 3 * y) x

/-- chi: `L'(x,y) = L(x,y) XOR ((NOT L((x+1) mod 5, y)) AND L((x+2) mod 5, y))` (R124). -/
def chi (A : StateArray) : StateArray :=
  tabulate fun x y => laneAt A x y ^^^ (~~~ laneAt A (x + 1) y &&& laneAt A (x + 2) y)

/-! ## Round constants -/

/-- One step of the byte LFSR: shift towards bit 7, and feed the bit that left back into bits 0, 4, 5 and 6 (R126). -/
def lfsrStep (R : BitVec 8) : BitVec 8 := if R.getLsbD 7 then (R <<< 1) ^^^ 0x71#8 else R <<< 1

/-- The LFSR register after n steps from 0x01 (R126). -/
def lfsr : Nat → BitVec 8
  | 0 => 0x01#8
  | n + 1 => lfsrStep (lfsr n)

/-- `rc(t)`: bit 0 of the LFSR register after `t mod 255` steps (R125, R126). -/
def rc (t : Nat) : Bool := (lfsr (t % 255)).getLsbD 0

/-- `RC(ir)`: bit `2^j - 1` is `rc(j + 7*ir)` for j = 0..6, every other bit 0 (R127). -/
def RC (ir : Nat) : Lane :=
  (List.range 7).foldl (fun acc j => if rc (j + 7 * ir) then acc ||| (1#64 <<< (2 ^ j - 1)) else acc) 0#64

/-- iota: `L'(0,0) = L(0,0) XOR RC(ir)`, every other lane unchanged (R129). -/
def iota (A : StateArray) (ir : Nat) : StateArray := setLane A 0 0 (laneAt A 0 0 ^^^ RC ir)

/-! ## Rounds and the permutation -/

/-- `Rnd(A, ir) = iota(chi(pi(rho(theta(A)))), ir)` (R130). -/
def rnd (A : StateArray) (ir : Nat) : StateArray := iota (chi (pi (rho (theta A)))) ir

/-- `KeccakP(A)`: rounds 0 to 23 in increasing order (R137). -/
def keccakP (A : StateArray) : StateArray := (List.range 24).foldl rnd A

end Sys2Proof.Machine
end

