-- ==== Sys2Proof/Machine/Ops.lean ====
section
/-!
DEFINITION. The operations the meanings share: raising and clearing a command error, the operand checks with their
rejections, lane writes, and the sponge's byte accesses with the lazy block step.
-/

namespace Sys2Proof.Machine

/-! ## The one exception and its return -/

/-- `raise CmdError(code)` (60_exceptions.md R201): the first error since the last clear is recorded in STATUS, and
nothing else changes. The ghost flag notes that a rejection happened (R204; log 8). -/
def raiseCmdError (e : CmdErr) (s : State) : State :=
  if s.err then s else { s with err := true, errCode := e.code, rejected := true }

/-- Clearing ERR and ERRCODE (60_exceptions.md R204): the host's return from an error (R211). The ghost flag stays. -/
def clearError (s : State) : State := { s with err := false, errCode := 0#4 }

/-! ## Operand checks (R202 makes them when CMD is written; here they are the command's own exceptions, log 10) -/

/-- Run `k` on the lane coordinates, or reject with BAD_LANE when x > 4 or y > 4 (40_lane_ops.md R101 to R104). -/
def withLane (x y : BitVec 3) (s : State) (k : Fin 5 → Fin 5 → Result) : Result :=
  match coordinate x, coordinate y with
  | some x', some y' => k x' y'
  | _, _ => .next (raiseCmdError .badLane s)

/-- Run `k` on the round index, or reject with BAD_ROUND when IR > 23 (41_permutation.md R135, R136, R139). -/
def withRound (ir : BitVec 5) (s : State) (k : Nat → Result) : Result :=
  match roundIndex ir with
  | some n => k n
  | none => .next (raiseCmdError .badRound s)

/-- Run `k`, or reject with BAD_SUFFIX (42_sponge.md R165, 30_encoding.md R87). -/
def withSuffix (slen : BitVec 3) (suf : BitVec 6) (s : State) (k : Result) : Result :=
  if suffixLegal slen suf then k else .next (raiseCmdError .badSuffix s)

/-- R36 (a) and (b): RATE and POS as every reachable state has them, so that the byte position lies in the block and the
block in the state-byte space. -/
def spongeInRange (s : State) : Bool := decide (s.rate.toNat ≤ 200) && decide (s.pos.toNat ≤ s.rate.toNat)

/-- Run `k` with a configured RATE, or reject with BAD_RATE when RATE = 0 (42_sponge.md R160). A state that R36 rules out
stops by name (log 5). -/
def withRate (s : State) (k : Result) : Result :=
  if s.rate = 0#8 then .next (raiseCmdError .badRate s)
  else if spongeInRange s then k
  else .fault .spongeRange

/-! ## Writing the state array -/

/-- `A <- f(A)`. -/
def mapArray (f : StateArray → StateArray) (s : State) : State := { s with A := f s.A }

/-- `L(x,y) <- f(L(x,y))`. -/
def mapLane (x y : Fin 5) (f : Lane → Lane) (s : State) : State :=
  { s with A := setLane s.A x y (f (laneAt s.A x y)) }

/-! ## The sponge's byte accesses -/

/-- NEXT(), the lazy block step (42_sponge.md R161): when POS = RATE, permute and set POS to 0. -/
def nextBlock (s : State) : State := if s.pos = s.rate then { s with A := keccakP s.A, pos := 0#8 } else s

/-- One byte of ABSORB: NEXT(), XorByte at POS, POS + 1 (42_sponge.md R163). -/
def absorbByte (s : State) (b : Byte) : State :=
  let t := nextBlock s
  { t with A := xorByte t.A t.pos.toNat b, pos := t.pos + 1#8 }

/-- The bytes of one ABSORB, the first message byte first (42_sponge.md R163). -/
def absorbBytes (bs : List Byte) (s : State) : State := bs.foldl absorbByte s

/-- The state after one byte of SQUEEZE: NEXT(), then POS + 1 (42_sponge.md R166). -/
def squeezeByte (s : State) : State :=
  let t := nextBlock s
  { t with pos := t.pos + 1#8 }

/-- The byte one byte of SQUEEZE reads: ReadByte(POS) after NEXT() (42_sponge.md R166). -/
def squeezedByte (s : State) : Byte := memRead (nextBlock s).A (nextBlock s).pos.toNat

/-- n bytes of SQUEEZE: the bytes read, first byte first, and the state after them (42_sponge.md R166). -/
def squeezeBytes : Nat → State → List Byte × State
  | 0, s => ([], s)
  | n + 1, s => (squeezedByte s :: (squeezeBytes n (squeezeByte s)).1, (squeezeBytes n (squeezeByte s)).2)

/-- PAD's framing (42_sponge.md R165): NEXT(), the pad byte at POS, 0x80 into the last rate byte, POS <- RATE. -/
def padBlock (pb : Byte) (s : State) : State :=
  let t := nextBlock s
  { t with A := xorByte (xorByte t.A t.pos.toNat pb) (t.rate.toNat - 1) 0x80#8, pos := t.rate }

/-! ## Completion -/

/-- `PEND.valid <- 0`, which makes BUSY = 0 (20_memory.md R63). -/
def complete (s : State) : State := { s with pend := { s.pend with valid := false } }

end Sys2Proof.Machine
end

