-- ==== Sys2Proof/Machine/LaneOps.lean ====
section
/-!
DEFINITION. The state-buffer and lane commands INIT, XORL, WRL, ROTL, ROTR (40_lane_ops.md R100 to R104). `DATA` in the
spec's pseudocode is PEND.data, the value latched at acceptance (20_memory.md R68).
-/

namespace Sys2Proof.Machine

/-- INIT (R100): all lanes 0 and POS 0. Legal with RATE = 0. -/
def execInit (s : State) : Result := .next { s with A := zeroArray, pos := 0#8 }

/-- XORL (R101): `L(x,y) <- L(x,y) XOR (DATA AND M64)`. -/
def execXorl (x y : BitVec 3) (mask : BitVec 8) (s : State) : Result :=
  withLane x y s fun x y => .next (mapLane x y (fun L => L ^^^ (s.pend.data &&& expandMask mask)) s)

/-- WRL (R102): `L(x,y) <- (L(x,y) AND NOT M64) OR (DATA AND M64)`. -/
def execWrl (x y : BitVec 3) (mask : BitVec 8) (s : State) : Result :=
  withLane x y s fun x y =>
    .next (mapLane x y (fun L => (L &&& ~~~ expandMask mask) ||| (s.pend.data &&& expandMask mask)) s)

/-- ROTL (R103): `L(x,y) <- rotl64(L(x,y), AMT)`. -/
def execRotl (x y : BitVec 3) (amt : BitVec 6) (s : State) : Result :=
  withLane x y s fun x y => .next (mapLane x y (fun L => rotl64 L (rotateAmount amt)) s)

/-- ROTR (R104): `L(x,y) <- rotr64(L(x,y), AMT)`. -/
def execRotr (x y : BitVec 3) (amt : BitVec 6) (s : State) : Result :=
  withLane x y s fun x y => .next (mapLane x y (fun L => rotr64 L (rotateAmount amt)) s)

end Sys2Proof.Machine
end

