-- ==== Sys2Proof/Machine/Permutation.lean ====
section
/-!
DEFINITION. The permutation, step and round-constant commands THETA, RHO, PI, CHI, IOTA, ROUND, PERMUTE, RCGEN
(41_permutation.md R131 to R139). None of them reads or writes RATE, POS or DATA; only RCGEN writes RESULT.
-/

namespace Sys2Proof.Machine

/-- THETA (R131): `A <- theta(A)`. -/
def execTheta (s : State) : Result := .next (mapArray theta s)

/-- RHO (R132): `A <- rho(A)`. -/
def execRho (s : State) : Result := .next (mapArray rho s)

/-- PI (R133): `A <- pi(A)`. -/
def execPi (s : State) : Result := .next (mapArray pi s)

/-- CHI (R134): `A <- chi(A)`. -/
def execChi (s : State) : Result := .next (mapArray chi s)

/-- IOTA (R135): `L(0,0) <- L(0,0) XOR RC(IR)`. -/
def execIota (ir : BitVec 5) (s : State) : Result := withRound ir s fun n => .next (mapArray (iota · n) s)

/-- ROUND (R136): `A <- Rnd(A, IR)`. -/
def execRound (ir : BitVec 5) (s : State) : Result := withRound ir s fun n => .next (mapArray (rnd · n) s)

/-- PERMUTE (R138): `A <- KeccakP(A)`; RATE and POS are neither consulted nor changed. -/
def execPermute (s : State) : Result := .next (mapArray keccakP s)

/-- RCGEN (R139): `RESULT <- RC(IR)`; the state array is unchanged. -/
def execRcgen (ir : BitVec 5) (s : State) : Result := withRound ir s fun n => .next { s with result := RC n }

end Sys2Proof.Machine
end

