-- ==== Sys2Proof/Machine/Sponge.lean ====
section
/-!
DEFINITION. The sponge commands ABSORB, PAD and SQUEEZE (42_sponge.md R160 to R166).
-/

namespace Sys2Proof.Machine

/-- ABSORB n (R163): bytes 0 to n-1 of the latched DATA, each preceded by NEXT(). Bytes n to 7 are ignored. -/
def execAbsorb (cnt : BitVec 3) (s : State) : Result :=
  withRate s (.next (absorbBytes (lowBytes s.pend.data (byteCount cnt)) s))

/-- PAD (R165): the suffix check comes before the RATE check, as R202 orders them. -/
def execPad (slen : BitVec 3) (suf : BitVec 6) (s : State) : Result :=
  withSuffix slen suf s (withRate s (.next (padBlock (padByte slen suf) s)))

/-- SQUEEZE n (R166): n bytes from POS into RESULT, each preceded by NEXT(); bytes n to 7 of RESULT are 0. -/
def execSqueeze (cnt : BitVec 3) (s : State) : Result :=
  withRate s
    (.next { (squeezeBytes (byteCount cnt) s).2 with result := packBytes (squeezeBytes (byteCount cnt) s).1 })

end Sys2Proof.Machine
end

