-- ==== Sys2Proof/Machine/Dispatch.lean ====
section
/-!
DEFINITION. The dispatch of a command to its meaning, one arm per constructor.
-/

namespace Sys2Proof.Machine

/-- The effect of a command on the state, as the engine step performs it (20_memory.md R63), before PEND.valid is cleared. -/
def exec (i : Instr) (s : State) : Host.Outcome State Fault Refusal :=
  match i with
  | .init => Sys2Proof.Machine.execInit s
  | .xorl x y mask => Sys2Proof.Machine.execXorl x y mask s
  | .wrl x y mask => Sys2Proof.Machine.execWrl x y mask s
  | .rotl x y amt => Sys2Proof.Machine.execRotl x y amt s
  | .rotr x y amt => Sys2Proof.Machine.execRotr x y amt s
  | .theta => Sys2Proof.Machine.execTheta s
  | .rho => Sys2Proof.Machine.execRho s
  | .pi => Sys2Proof.Machine.execPi s
  | .chi => Sys2Proof.Machine.execChi s
  | .iota ir => Sys2Proof.Machine.execIota ir s
  | .round ir => Sys2Proof.Machine.execRound ir s
  | .permute => Sys2Proof.Machine.execPermute s
  | .rcgen ir => Sys2Proof.Machine.execRcgen ir s
  | .absorb cnt => Sys2Proof.Machine.execAbsorb cnt s
  | .pad slen suf => Sys2Proof.Machine.execPad slen suf s
  | .squeeze cnt => Sys2Proof.Machine.execSqueeze cnt s

end Sys2Proof.Machine
end

