-- ==== Sys2Proof/Machine/Engine.lean ====
section
/-!
DEFINITION. The Engine agent: one step completes the pending command (20_memory.md R50, R63).
-/

namespace Sys2Proof.Machine

/-- What follows a command's effect: `PEND.valid <- 0` (20_memory.md R63). -/
def completed : Result → Result
  | .next t => .next (complete t)
  | .fault f => .fault f
  | .refused r => .refused r

/-- The engine step (20_memory.md R63): perform the whole rule of the pending command and clear PEND.valid. With nothing
pending the engine executes nothing (70_reset_and_hazards.md R242). A pending word that does not decode, which R202 never
latches, stops by name (log 6). -/
def engineStep (s : State) : Result :=
  if s.pend.valid then
    match decode s.pend.word with
    | .ok i => completed (exec i s)
    | .error e => .fault (.pendingWord e)
  else .next s

end Sys2Proof.Machine
end

