-- ==== Sys2Proof/Machine/Port.lean ====
section
/-!
DEFINITION. The register port and the Host agent: the register map (20_memory.md R53), bus errors (R57), reads and
writes with their side effects (R59), acceptance of a CMD write (60_exceptions.md R202), the RATE write (R206), and the
reset event (70_reset_and_hazards.md R240).
-/

namespace Sys2Proof.Machine

/-- The registers of the port (20_memory.md R53). -/
inductive PortReg where
  | lane (i : Fin 25)
  | data
  | result
  | cmd
  | status
  | rate
  | pos
  deriving DecidableEq, Repr

/-- The register map (20_memory.md R53): `none` for a reserved offset or one that is not a multiple of 8 (R54). -/
def regAt (offset : BitVec 9) : Option PortReg :=
  let o := offset.toNat
  if o % 8 ≠ 0 then none
  else if h : o / 8 < 25 then some (.lane ⟨o / 8, h⟩)
  else
    match o with
    | 0x100 => some .data
    | 0x108 => some .result
    | 0x110 => some .cmd
    | 0x118 => some .status
    | 0x120 => some .rate
    | 0x128 => some .pos
    | _ => none

/-- The register an access may read: 64-bit accesses of mapped registers only (20_memory.md R54, R57 a, b). -/
def readable (width : Width) (offset : BitVec 9) : Option PortReg :=
  if width = .w64 then regAt offset else none

/-- The register an access may write: as `readable`, but LANE[i], RESULT and POS are read-only (20_memory.md R57 c). -/
def writable (width : Width) (offset : BitVec 9) : Option PortReg :=
  match readable width offset with
  | some .data => some .data
  | some .cmd => some .cmd
  | some .status => some .status
  | some .rate => some .rate
  | some (.lane _) | some .result | some .pos | none => none

/-- The accesses the port answers with BusError (20_memory.md R57). -/
def Access.isBusError : Access → Bool
  | .read width offset => (readable width offset).isNone
  | .write width offset _ => (writable width offset).isNone

/-! ## Reads -/

/-- The value of a register while it is defined: LANE[i] is `L(i mod 5, i div 5)` (20_memory.md R56), CMD reads 0 (R58),
RATE and POS are zero-extended (10_state.md R29, R30). -/
def regValue (r : PortReg) (s : State) : Word :=
  match r with
  | .lane i => s.A[i]
  | .data => s.data
  | .result => s.result
  | .cmd => 0#64
  | .status => statusWord s
  | .rate => s.rate.setWidth 64
  | .pos => s.pos.setWidth 64

/-- The registers whose value is unspecified while BUSY = 1: LANE[i], RESULT, POS (20_memory.md R64). -/
def PortReg.unspecifiedWhileBusy : PortReg → Bool
  | .lane _ | .result | .pos => true
  | .data | .cmd | .status | .rate => false

/-- A read of a register: its value, or a free draw while BUSY = 1 (20_memory.md R64; log 4). No other effect (R59). -/
def readReg (r : PortReg) (s : State) : State :=
  if s.busy && r.unspecifiedWhileBusy then
    { s with replies := .value (Config.busyRead s.draws) :: s.replies, draws := s.draws + 1 }
  else { s with replies := .value (regValue r s) :: s.replies }

/-! ## Writes -/

/-- Acceptance of a CMD write (60_exceptions.md R202), in R202's order: dropped while ERR = 1 (R203), BUSY (R205), decode's
errors (30_encoding.md R89), BAD_RATE, and otherwise latched with the current DATA (20_memory.md R68). -/
def issue (W : Word) (s : State) : State :=
  if s.err then s
  else if s.pend.valid then raiseCmdError .busy s
  else
    match decode W with
    | .error e => raiseCmdError e s
    | .ok i =>
      if i.isSponge && s.rate == 0#8 then raiseCmdError .badRate s
      else { s with pend := { valid := true, word := W, data := s.data } }

/-- The RATE write (60_exceptions.md R206), compared as a 64-bit number: dropped while ERR = 1, BUSY, BAD_RATE outside
1..200, and otherwise RATE is set and POS is 0. -/
def writeRate (v : Word) (s : State) : State :=
  if s.err then s
  else if s.pend.valid then raiseCmdError .busy s
  else if v.toNat < 1 ∨ v.toNat > 200 then raiseCmdError .badRate s
  else { s with rate := v.setWidth 8, pos := 0#8 }

/-- The STATUS write (10_state.md R28, 60_exceptions.md R204): bit 1 clears ERR and ERRCODE, every other bit is ignored. -/
def writeStatus (v : Word) (s : State) : State := if v.getLsbD 1 then clearError s else s

/-- The effect of a write to a register (20_memory.md R59). The read-only registers have none: a write to one is a bus
error and does not come here (R57). -/
def writeReg (r : PortReg) (v : Word) (s : State) : State :=
  match r with
  | .data => { s with data := v }
  | .cmd => issue v s
  | .status => writeStatus v s
  | .rate => writeRate v s
  | .lane _ | .result | .pos => s

/-- The Host agent's step: one register access (20_memory.md R50). An access that the port answers with BusError faults
the run (R57). -/
def hostStep (a : Access) (s : State) : Result :=
  match a with
  | .read width offset =>
    match readable width offset with
    | some r => .next (readReg r s)
    | none => .fault (.busError a)
  | .write width offset v =>
    match writable width offset with
    | some r => .next { writeReg r v s with replies := .done :: s.replies }
    | none => .fault (.busError a)

/-! ## Reset -/

/-- The reset event (70_reset_and_hazards.md R240, R241): every piece of the hardware's state takes its reset value and a
pending command is discarded. What lies outside the hardware stays: the environment's moves and the replies the host
already has, the draw counter (so that a later draw is a new one), and the ghost flag, which no rule clears
(R204; log 14). -/
def resetEvent (s : State) : State :=
  { State.reset with moves := s.moves, replies := s.replies, draws := s.draws, rejected := s.rejected }

/-! ## Host addresses -/

/-- The host address of a port offset: `KPE_BASE + offset` (20_memory.md R51, R55; log 7). -/
def hostAddress (offset : BitVec 9) : Nat := Config.kpeBase + offset.toNat

/-- The port offset a host address falls on: the port decodes [0x000, 0x200) relative to KPE_BASE (20_memory.md R51). -/
def offsetOfAddress (addr : Nat) : Option (BitVec 9) :=
  if Config.kpeBase ≤ addr ∧ addr < Config.kpeBase + 0x200 then some (BitVec.ofNat 9 (addr - Config.kpeBase)) else none

end Sys2Proof.Machine
end

