-- ==== Sys2Proof/Machine/Step.lean ====
section
/-!
DEFINITION. One step of the machine: the next move of the environment's list (20_memory.md R50).

The list is arbitrary, so every interleaving of the host's and the engine's steps, and a reset between any two of them,
is some list: that is how LATENCY stays free (R63; log 2). When the list is empty the host does nothing more, and an
engine step that is enabled is taken: R63's weak fairness on a finite list.
-/

namespace Sys2Proof.Machine

/-- One step of the machine. -/
def step (s : State) : Host.Outcome State Fault Refusal :=
  match s.moves with
  | [] => engineStep s
  | .host a :: ms => hostStep a { s with moves := ms }
  | .engine :: ms => engineStep { s with moves := ms }
  | .reset :: ms => .next (resetEvent { s with moves := ms })
  | .secondHost _ :: _ => .refused .secondHost

/-- `s` with an opcode-table word where the engine takes its next command: pending, with DATA latched as acceptance does
(20_memory.md R68), and the engine next to move (log 9). -/
def State.withFetchWord (s : State) (nbits w : Nat) : State :=
  { s with
    pend := { valid := true, word := tableWord nbits w, data := s.data }
    moves := .engine :: s.moves }

end Sys2Proof.Machine
end

