-- ==== Sys2Proof/Machine/HostProgram.lean ====
section
/-!
DEFINITION. The host software the spec describes: port operations, pseudo-instructions and the run of a host program
(30_encoding.md R93), the presets (42_sponge.md R175, R176), the absorb and squeeze procedures (R167, R168) and the API calls
(R173; log 19). It drives the machine and is no part of its step.

A host program is a list of port operations. It says nothing of when the engine completes a command: that is a list of
turns beside it, which is arbitrary (20_memory.md R63; log 15).
-/

namespace Sys2Proof.Machine

/-! ## Port offsets (20_memory.md R53) -/

/-- The offset of LANE[i] (20_memory.md R53). -/
def offLane (i : Fin 25) : BitVec 9 := BitVec.ofNat 9 (8 * i.val)
/-- DATA (20_memory.md R53). -/
def offData : BitVec 9 := 0x100#9
/-- RESULT (20_memory.md R53). -/
def offResult : BitVec 9 := 0x108#9
/-- CMD (20_memory.md R53). -/
def offCmd : BitVec 9 := 0x110#9
/-- STATUS (20_memory.md R53). -/
def offStatus : BitVec 9 := 0x118#9
/-- RATE (20_memory.md R53). -/
def offRate : BitVec 9 := 0x120#9
/-- POS (20_memory.md R53). -/
def offPos : BitVec 9 := 0x128#9

/-! ## Port operations (R93) -/

/-- The operations a host program is made of (R93). -/
inductive HostOp where
  /-- `WR REG, v`: a 64-bit write of v to the register at an offset. -/
  | wr (offset : BitVec 9) (v : Word)
  /-- `RD REG`: a 64-bit read of the register at an offset. -/
  | rd (offset : BitVec 9)
  /-- `POLL`: repeat `RD STATUS` until bit 0 (BUSY) reads 0. -/
  | poll
  /-- `CHECK`: `RD STATUS` and fault the host program if bit 1 (ERR) is 1. -/
  | check
  deriving DecidableEq, Repr

/-- `C <command>`: `WR CMD, encode(<command>)`. -/
def issueCmd (i : Instr) : HostOp := .wr offCmd (encode i)

/-- The port access an operation makes; for `POLL`, one pass of its loop. -/
def HostOp.access : HostOp → Access
  | .wr offset v => .write .w64 offset v
  | .rd offset => .read .w64 offset
  | .poll | .check => .read .w64 offStatus

/-- What `POLL` waits for: bit 0 (BUSY) of the STATUS value is 0 (R93). -/
def pollDone (status : Word) : Bool := !status.getLsbD 0

/-- What `CHECK` asks of the STATUS value it read: bit 1 (ERR) is 0 (R93). -/
def checkPasses (status : Word) : Bool := !status.getLsbD 1

/-! ## Pseudo-instructions (R93) -/

/-- The value of the host parameter `rawshake_suffix` (00_scope.md R4): the FIPS 202 bit string `11`, the default, or the
source's literal `111` (log 11). -/
inductive RawshakeSuffix where
  | fips
  | sourceLiteral
  deriving DecidableEq, Repr

/-- The pseudo-instructions of R93's table. -/
inductive Pseudo where
  | nop
  | cmdw (i : Instr)
  | ldlane (x y : BitVec 3) (v : Word)
  | clrlane (x y : BitVec 3)
  | padSha3
  | padShake
  | padRawshake (sfx : RawshakeSuffix)
  | padKeccak
  | clrerr
  | check
  deriving DecidableEq, Repr

/-- `CMDW c`: `C c` then `POLL`. -/
def cmdw (i : Instr) : List HostOp := [issueCmd i, .poll]

/-- The PAD command of RawSHAKE (R93, 42_sponge.md R175). -/
def rawshakePad : RawshakeSuffix → Instr
  | .fips => .pad 2#3 0b11#6
  | .sourceLiteral => .pad 3#3 0b111#6

/-- The expansions of R93. The table gives `PAD.SHA3`, `PAD.SHAKE`, `PAD.RAWSHAKE` and `PAD.KECCAK` as a bare command,
with neither the `C` it writes for `NOP` nor `CMDW`. DESIGN CHOICE (log 18): each is the port operation `C PAD ...`, one CMD
write and no `POLL`. -/
def Pseudo.expand : Pseudo → List HostOp
  | .nop => [issueCmd (.xorl 0#3 0#3 0#8)]
  | .cmdw i => Sys2Proof.Machine.cmdw i
  | .ldlane x y v => .wr offData v :: Sys2Proof.Machine.cmdw (.wrl x y 0xFF#8)
  | .clrlane x y => .wr offData 0#64 :: Sys2Proof.Machine.cmdw (.wrl x y 0xFF#8)
  | .padSha3 => [issueCmd (.pad 2#3 0b10#6)]
  | .padShake => [issueCmd (.pad 4#3 0b1111#6)]
  | .padRawshake sfx => [issueCmd (rawshakePad sfx)]
  | .padKeccak => [issueCmd (.pad 0#3 0#6)]
  | .clrerr => [.wr offStatus 0x2#64]
  | .check => [.check]

/-! ## Running a host program (R93) -/

/-- A host program under way: the operations it still has to do, and the machine it drives. -/
structure HostRun where
  program : List HostOp
  machine : State
  deriving DecidableEq, Repr

/-- A program at its start, on the machine right after reset. -/
def HostRun.start (program : List HostOp) : HostRun := { program := program, machine := State.reset }

/-- Why a run of a host program stops with a fault. -/
inductive HostFault where
  /-- Raised by `CHECK` when the STATUS value it reads has bit 1 (ERR) set (R93). Safe: the spec's own fault. -/
  | check
  /-- Raised when the machine's step faults, for a bus error (20_memory.md R57). Safe. -/
  | machine (f : Fault)
  deriving DecidableEq, Repr

/-- The outcome of a turn or of a run. -/
abbrev HostResult := Host.Outcome HostRun HostFault Refusal

/-- Whose turn it is: the two agents of 20_memory.md R50, and the platform's reset. -/
inductive Turn where
  | host
  | engine
  | reset
  deriving DecidableEq, Repr

/-- One step of the machine in which `m` moves, whatever other moves its own list holds. -/
def playMove (m : Move) (s : State) : Result := step { s with moves := m :: s.moves }

/-- The value the host's last access read, if it was a read. -/
def lastValue (s : State) : Option Word :=
  match s.replies with
  | .value v :: _ => some v
  | .done :: _ | [] => none

/-- What follows an operation's access, `rest` being the operations after it: `POLL` stays until the value read has
BUSY = 0, and `CHECK` faults the host program unless it has ERR = 0. -/
def HostOp.after (op : HostOp) (rest : List HostOp) (t : State) : HostResult :=
  match op with
  | .wr _ _ | .rd _ => .next { program := rest, machine := t }
  | .poll =>
    if (lastValue t).any pollDone then .next { program := rest, machine := t }
    else .next { program := .poll :: rest, machine := t }
  | .check => if (lastValue t).any checkPasses then .next { program := rest, machine := t } else .fault .check

/-- Go on from a step of the machine; its stop is the run's. -/
def afterMove (r : Result) (k : State → HostResult) : HostResult :=
  match r with
  | .next t => k t
  | .fault f => .fault (.machine f)
  | .refused q => .refused q

/-- One turn. The host does the access of its next operation; with none left it does nothing more. The engine's turn and
the reset event leave the program where it is. -/
def HostRun.turn (r : HostRun) : Turn → HostResult
  | .host =>
    match r.program with
    | [] => .next r
    | op :: rest => afterMove (playMove (.host op.access) r.machine) (op.after rest)
  | .engine => afterMove (playMove .engine r.machine) fun t => .next { r with machine := t }
  | .reset => afterMove (playMove .reset r.machine) fun t => .next { r with machine := t }

/-- A run of a host program under a list of turns. -/
def HostRun.run (r : HostRun) : List Turn → HostResult
  | [] => .next r
  | turn :: turns =>
    match r.turn turn with
    | .next q => q.run turns
    | .fault f => .fault f
    | .refused q => .refused q

/-! ## Presets (42_sponge.md R175, R176) -/

/-- The register settings of a function family: RATE in bytes and PAD's operands. -/
structure Preset where
  rate : BitVec 8
  slen : BitVec 3
  suf : BitVec 6
  deriving DecidableEq, Repr

/-- `digest(v, M)`: rows for v = 224, 256, 384, 512 only; any other v is a caller error of the host (60_exceptions.md R208). -/
def digestPreset (v : Nat) : Option Preset :=
  match v with
  | 224 => some { rate := 144#8, slen := 2#3, suf := 0b10#6 }
  | 256 => some { rate := 136#8, slen := 2#3, suf := 0b10#6 }
  | 384 => some { rate := 104#8, slen := 2#3, suf := 0b10#6 }
  | 512 => some { rate := 72#8, slen := 2#3, suf := 0b10#6 }
  | _ => none

/-- `shake(v, d, M)`. -/
def shakePreset (v : Nat) : Option Preset :=
  match v with
  | 128 => some { rate := 168#8, slen := 4#3, suf := 0b1111#6 }
  | 256 => some { rate := 136#8, slen := 4#3, suf := 0b1111#6 }
  | _ => none

/-- `rawshake(v, d, M)`. -/
def rawshakePreset (sfx : RawshakeSuffix) (v : Nat) : Option Preset :=
  let (slen, suf) : BitVec 3 × BitVec 6 :=
    match sfx with
    | .fips => (2#3, 0b11#6)
    | .sourceLiteral => (3#3, 0b111#6)
  match v with
  | 128 => some { rate := 168#8, slen := slen, suf := suf }
  | 256 => some { rate := 136#8, slen := slen, suf := suf }
  | _ => none

/-- `keccak(M, d, c)`: supported for c a multiple of 8 with 0 <= c <= 1592, through RATE = (1600 - c)/8 (R176). -/
def keccakPreset (c : Nat) : Option Preset :=
  if c % 8 = 0 ∧ c ≤ 1592 then some { rate := BitVec.ofNat 8 ((1600 - c) / 8), slen := 0#3, suf := 0#6 } else none

/-- Output bytes of a d-bit request of an XOF: `ceil(d/8)` (R168, R173). -/
def outputBytes (d : Nat) : Nat := (d + 7) / 8

/-- The host clears bits (d mod 8)..7 of the last output byte when d mod 8 is not 0 (R168). -/
def truncateOutput (d : Nat) (out : List Byte) : List Byte :=
  if d % 8 = 0 then out
  else out.mapIdx fun k b => if k + 1 = outputBytes d then b &&& BitVec.ofNat 8 (2 ^ (d % 8) - 1) else b

/-! ## Procedures (42_sponge.md R167, R168) -/

/-- The message in pieces of 8 bytes, the last one shorter. -/
def messagePieces (M : List Byte) : List (List Byte) :=
  (List.range ((M.length + 7) / 8)).map fun k => (M.drop (8 * k)).take 8

/-- The ABSORB command of a piece of 1 to 8 bytes. -/
def absorbOf (piece : List Byte) : Instr := .absorb (BitVec.ofNat 3 (piece.length - 1))

/-- The byte counts of a squeeze of D bytes: 8 at a time, the last one shorter (as CNT values, n - 1). -/
def squeezeCounts (D : Nat) : List (BitVec 3) :=
  (List.range ((D + 7) / 8)).map fun k => BitVec.ofNat 3 (min 8 (D - 8 * k) - 1)

/-- The absorb procedure of R167: RATE, INIT, the message in pieces, PAD. -/
def absorbProgram (p : Preset) (M : List Byte) : List HostOp :=
  .wr offRate (p.rate.setWidth 64) :: cmdw .init ++
    (messagePieces M).flatMap (fun piece => .wr offData (packBytes piece) :: cmdw (absorbOf piece)) ++
    cmdw (.pad p.slen p.suf)

/-- The squeeze procedure of R168 for D bytes; each SQUEEZE is followed by a read of RESULT. -/
def squeezeProgram (D : Nat) : List HostOp :=
  (squeezeCounts D).flatMap fun cnt => cmdw (.squeeze cnt) ++ [.rd offResult]

/-! ## Running commands without the port -/

/-- A command issued and completed at once: latched with its data operand, performed, PEND.valid cleared
(60_exceptions.md R202, 20_memory.md R63). -/
def runCommand (i : Instr) (data : Word) (s : State) : Result :=
  completed (exec i { s with pend := { valid := true, word := encode i, data := data } })

/-- Commands with their data operands, one after another (20_memory.md R62). -/
def runCommands : List (Instr × Word) → State → Result
  | [], s => .next s
  | (i, d) :: cs, s =>
    match runCommand i d s with
    | .next t => runCommands cs t
    | .fault f => .fault f
    | .refused r => .refused r

/-- SQUEEZE commands one after another: the output bytes the host takes from RESULT (42_sponge.md R168) and the state. -/
def runSqueezes : List (BitVec 3) → State → Option (List Byte × State)
  | [], s => some ([], s)
  | cnt :: cnts, s =>
    match runCommand (.squeeze cnt) 0#64 s with
    | .next t =>
      match runSqueezes cnts t with
      | some (out, u) => some (lowBytes t.result (byteCount cnt) ++ out, u)
      | none => none
    | .fault _ => none
    | .refused _ => none

/-- The commands of R167 after the RATE write, for a message given in pieces of 1 to 8 bytes. -/
def absorbCommands (pieces : List (List Byte)) (slen : BitVec 3) (suf : BitVec 6) : List (Instr × Word) :=
  (.init, 0#64) :: pieces.map (fun piece => (absorbOf piece, packBytes piece)) ++ [(.pad slen suf, 0#64)]

/-! ## The source's API functions (42_sponge.md R173, R175) -/

/-- A call of one of the four functions: the security level v, the output length d in bits and the capacity c as the
function has them, and the message. -/
inductive ApiCall where
  | digest (v : Nat) (message : List Byte)
  | shake (v d : Nat) (message : List Byte)
  | rawshake (v d : Nat) (message : List Byte)
  | keccak (message : List Byte) (d c : Nat)
  deriving DecidableEq, Repr

/-- The message of a call. -/
def ApiCall.message : ApiCall → List Byte
  | .digest _ M | .shake _ _ M | .rawshake _ _ M | .keccak M _ _ => M

/-- The row of R175's table for a call; `none` is a call the host must refuse (R176, 60_exceptions.md R208). -/
def ApiCall.preset (sfx : RawshakeSuffix) : ApiCall → Option Preset
  | .digest v _ => digestPreset v
  | .shake v _ _ => shakePreset v
  | .rawshake v _ _ => rawshakePreset sfx v
  | .keccak _ _ c => keccakPreset c

/-- The length of a call's output in bits: digest's is its security level. -/
def ApiCall.outputBits : ApiCall → Nat
  | .digest v _ => v
  | .shake _ d _ | .rawshake _ d _ | .keccak _ d _ => d

/-- The bytes a call returns: `ceil(d/8)`, or `v/8` for digest (R173). -/
def ApiCall.outputLength : ApiCall → Nat
  | .digest v _ => v / 8
  | .shake _ d _ | .rawshake _ d _ | .keccak _ d _ => outputBytes d

/-- The host program of a call: the absorb procedure, the squeeze procedure for exactly the bytes the call returns (R167,
R168, R173), and the CHECK after the last command, before any output is trusted (70_reset_and_hazards.md R247; it stands
where program P1 of 95_test_vectors.md has it). -/
def ApiCall.program (sfx : RawshakeSuffix) (c : ApiCall) : Option (List HostOp) :=
  (c.preset sfx).map fun p => absorbProgram p c.message ++ squeezeProgram c.outputLength ++ [.check]

/-- The output bytes in the values the SQUEEZE commands left in RESULT, first command first: bytes 0 to n-1 of each
(R168). -/
def gatherOutput : List (BitVec 3) → List Word → List Byte
  | cnt :: cnts, w :: ws => lowBytes w (byteCount cnt) ++ gatherOutput cnts ws
  | [], _ | _ :: _, [] => []

/-- The output a host trusts: none unless the STATUS value of its CHECK has ERR = 0 (70_reset_and_hazards.md R247). -/
def trustedOutput (status : Word) (out : List Byte) : Option (List Byte) := if checkPasses status then some out else none

/-- What a call returns, from the values its reads of RESULT gave in order (R168, R173) and the STATUS value of its
CHECK. -/
def ApiCall.returned (c : ApiCall) (results : List Word) (status : Word) : Option (List Byte) :=
  trustedOutput status (truncateOutput c.outputBits (gatherOutput (squeezeCounts c.outputLength) results))

/-- What a call returns when its commands are completed one after another after the RATE write, with the CHECK at the end;
`none` for a call the host refuses and where the CHECK finds an error. -/
def ApiCall.output (sfx : RawshakeSuffix) (c : ApiCall) (s : State) : Option (List Byte) :=
  match c.preset sfx with
  | none => none
  | some p =>
    match runCommands (absorbCommands (messagePieces c.message) p.slen p.suf) (writeRate (p.rate.setWidth 64) s) with
    | .next t =>
      match runSqueezes (squeezeCounts c.outputLength) t with
      | some (out, u) => trustedOutput (statusWord u) (truncateOutput c.outputBits out)
      | none => none
    | .fault _ => none
    | .refused _ => none

end Sys2Proof.Machine
end

