-- ==== Sys2Proof/Machine/SourceForms.lean ====
section
/-!
DEFINITION. The source's own forms of what the engine computes in another form, for the claims that the two agree: the
LFSR on bits (41_permutation.md R125), the visiting order of rho (R121), and the block-wise sponge with its padding
(42_sponge.md R169, R170). The step uses none of these.
-/

namespace Sys2Proof.Source

open Sys2Proof.Machine

/-! ## Round constants and rho (41_permutation.md) -/

/-- One iteration of R125 on bits R[0..7]: shift towards the higher index, then XOR the bit that left position 7 into
positions 0, 4, 5 and 6. -/
def rcShift (R : Vector Bool 8) : Vector Bool 8 :=
  let f := R[7]
  #v[f, R[0], R[1], R[2], R[3] ^^ f, R[4] ^^ f, R[5] ^^ f, R[6]]

/-- The register of R125 after n iterations from the string `10000000`, written from bit 0 to bit 7. -/
def rcRegister : Nat → Vector Bool 8
  | 0 => #v[true, false, false, false, false, false, false, false]
  | n + 1 => rcShift (rcRegister n)

/-- `rc(t)` as R125 gives it. -/
def rcBit (t : Nat) : Bool := if t % 255 = 0 then true else (rcRegister (t % 255))[0]

/-- The lane rho visits at visitation index t: `(x,y) -> (y, (2x+3y) mod 5)` from (1,0) (R121). -/
def rhoVisit : Nat → Fin 5 × Fin 5
  | 0 => (1, 0)
  | t + 1 => ((rhoVisit t).2, 2 * (rhoVisit t).1 + 3 * (rhoVisit t).2)

/-- The offset at visitation index t: `((t+1)(t+2)/2) mod 64` (R121). -/
def rhoVisitOffset (t : Nat) : Nat := (t + 1) * (t + 2) / 2 % 64

/-- The sources of pi for destinations 0 to 24, by lane index (R123). -/
def piSources : Vector Nat 25 :=
  #v[0, 6, 12, 18, 24, 3, 9, 10, 16, 22, 1, 7, 13, 19, 20, 4, 5, 11, 17, 23, 2, 8, 14, 15, 21]

/-- `c[x][z]`, the XOR over y of `A[x][y][z]` (R120). -/
def columnBit (A : StateArray) (x : Fin 5) (z : Nat) : Bool :=
  bitAt A x 0 z ^^ bitAt A x 1 z ^^ bitAt A x 2 z ^^ bitAt A x 3 z ^^ bitAt A x 4 z

/-- The bits of RC(ir) (R127): `RC[2^j - 1] = rc(j + 7*ir)` for j = 0..6 and all other bits 0. -/
def rcLaneBit (ir z : Nat) : Bool := (List.range 7).any fun j => decide (z = 2 ^ j - 1) && rcBit (j + 7 * ir)

/-- The round constants of R128's table. -/
def roundConstants : Vector Lane 24 :=
  #v[0x0000000000000001#64, 0x0000000000008082#64, 0x800000000000808A#64, 0x8000000080008000#64,
     0x000000000000808B#64, 0x0000000080000001#64, 0x8000000080008081#64, 0x8000000000008009#64,
     0x000000000000008A#64, 0x0000000000000088#64, 0x0000000080008009#64, 0x000000008000000A#64,
     0x000000008000808B#64, 0x800000000000008B#64, 0x8000000000008089#64, 0x8000000000008003#64,
     0x8000000000008002#64, 0x8000000000000080#64, 0x000000000000800A#64, 0x800000008000000A#64,
     0x8000000080008081#64, 0x8000000000008080#64, 0x0000000080000001#64, 0x8000000080008008#64]

/-! ## Command words (30_encoding.md) -/

/-- Whether the opcode map assigns OP (R81). -/
def assignedOp (op : Nat) : Bool := (decide (1 ≤ op) && decide (op ≤ 5)) || (decide (8 ≤ op) && decide (op ≤ 0x12))

/-- Whether bit b of the word is must-be-zero in the format of an assigned OP, bits 63:32 included (R82 to R87). -/
def reservedBit (op b : Nat) : Bool :=
  if op = 0x02 ∨ op = 0x03 then decide (20 ≤ b)
  else if op = 0x04 ∨ op = 0x05 then decide (18 ≤ b)
  else if op = 0x0C ∨ op = 0x0D ∨ op = 0x0F then decide (17 ≤ b) || (decide (6 ≤ b) && decide (b ≤ 11))
  else if op = 0x10 ∨ op = 0x12 then decide (15 ≤ b) || (decide (6 ≤ b) && decide (b ≤ 11))
  else if op = 0x11 then decide (22 ≤ b) || decide (b = 15) || (decide (6 ≤ b) && decide (b ≤ 11))
  else decide (6 ≤ b)

/-- Check 1 of R89 fails. -/
def illegalWord (W : Nat) : Prop := assignedOp (W % 64) = false

/-- Check 2 of R89 fails. -/
def reservedWord (W : Word) : Prop := ∃ b < 64, reservedBit (W.toNat % 64) b = true ∧ W.getLsbD b = true

/-- Check 3 of R89 fails: format L or LR and x > 4 or y > 4. -/
def badLaneWord (W : Nat) : Prop := (2 ≤ W % 64 ∧ W % 64 ≤ 5) ∧ (W / 2 ^ 6 % 8 > 4 ∨ W / 2 ^ 9 % 8 > 4)

/-- Check 4 of R89 fails: format R and IR > 23. -/
def badRoundWord (W : Nat) : Prop := (W % 64 = 0x0C ∨ W % 64 = 0x0D ∨ W % 64 = 0x0F) ∧ W / 2 ^ 12 % 32 > 23

/-- Check 5 of R89 fails: format P and SLEN = 7 or SUF >> SLEN not 0. -/
def badSuffixWord (W : Nat) : Prop :=
  W % 64 = 0x11 ∧ (W / 2 ^ 12 % 8 = 7 ∨ W / 2 ^ 16 % 64 / 2 ^ (W / 2 ^ 12 % 8) ≠ 0)

/-! ## The block-wise sponge (42_sponge.md R169) -/

/-- The padded length `r * (floor(L/r) + 1)`: the least multiple of r strictly greater than L (R170). -/
def paddedLength (r L : Nat) : Nat := r * (L / r + 1)

/-- The padded message: M, the pad byte right after it, zero bytes, and the high bit of the last byte OR-set to 1
(R164, R165, R170). -/
def padMessage (r : Nat) (slen : BitVec 3) (suf : BitVec 6) (M : List Byte) : List Byte :=
  (List.range (paddedLength r M.length)).map fun k =>
    (if k < M.length then M.getD k 0#8 else if k = M.length then padByte slen suf else 0#8) |||
      (if k + 1 = paddedLength r M.length then 0x80#8 else 0#8)

/-- XOR bytes into the state bytes from k upwards. -/
def xorBytes (A : StateArray) : Nat → List Byte → StateArray
  | _, [] => A
  | k, b :: bs => xorBytes (xorByte A k b) (k + 1) bs

/-- Absorb n blocks of r bytes: "XOR its bytes into the first r bytes of the State, then apply the Permutation". -/
def absorbBlocks (r : Nat) : Nat → List Byte → StateArray → StateArray
  | 0, _, A => A
  | n + 1, P, A => absorbBlocks r n (P.drop r) (keccakP (xorBytes A 0 (P.take r)))

/-- n blocks of output: "repeatedly read the first r bytes of the State as output, applying the Permutation between
reads". -/
def squeezeBlocks (r : Nat) : Nat → StateArray → List Byte
  | 0, _ => []
  | n + 1, A => (List.range r).map (memRead A) ++ squeezeBlocks r n (keccakP A)

/-- The source's sponge: D output bytes of message M under rate r and a domain suffix. -/
def sponge (r : Nat) (slen : BitVec 3) (suf : BitVec 6) (M : List Byte) (D : Nat) : List Byte :=
  (squeezeBlocks r (D / r + 1)
    (absorbBlocks r (paddedLength r M.length / r) (padMessage r slen suf M) zeroArray)).take D

end Sys2Proof.Source
end

