-- ==== Sys2Proof/Safety.lean ====
section
/-!
DEFINITION. The terms claims use: the invariants every reachable state keeps (10_state.md R36), the busy hazard
(70_reset_and_hazards.md R245), and what a step leaves unchanged.
-/

namespace Sys2Proof.Machine

/-- R202's promise about the pending word: it decodes, and a sponge command is pending only under a configured RATE. -/
def State.pendingLegal (s : State) : Bool :=
  match decode s.pend.word with
  | .ok i => !i.isSponge || s.rate != 0#8
  | .error _ => false

/-- The invariants of 10_state.md R36, with what R200, R202 and R204 add to them. R36 (c) holds by construction
(`State.busy`), and R36 (e) says nothing. -/
structure State.Inv (s : State) : Prop where
  /-- R36 (a): RATE = 0 or 1 ≤ RATE ≤ 200. -/
  rate_legal : s.rate.toNat ≤ 200
  /-- R36 (b): POS = 0 if RATE = 0, and otherwise 0 ≤ POS ≤ RATE. -/
  pos_legal : s.pos.toNat ≤ s.rate.toNat
  /-- R36 (d): STATUS.ERR = 0 if and only if STATUS.ERRCODE = 0. -/
  err_iff_code : s.err = false ↔ s.errCode = 0#4
  /-- R200: codes 8 to 15 are never produced. -/
  code_named : s.errCode.toNat ≤ 7
  /-- R204: an error that is set was a rejection the ghost flag noted. -/
  rejection_noted : s.err = true → s.rejected = true
  /-- R33, R202: a pending word was accepted. -/
  pending_legal : s.pend.valid = true → s.pendingLegal = true

/-- The accesses R245 forbids while a command is pending: reads of LANE, RESULT, POS, and writes of CMD or RATE. -/
def Access.busyHazard : Access → Bool
  | .read width offset =>
    match readable width offset with
    | some r => r.unspecifiedWhileBusy
    | none => false
  | .write width offset _ =>
    match writable width offset with
    | some .cmd | some .rate => true
    | some (.lane _) | some .data | some .result | some .status | some .pos | none => false

/-- R57's list in numbers: a reserved offset (a), a width or alignment that R54 does not allow (b), a write to LANE[i],
RESULT or POS (c). -/
def busErrorAccess : Access → Prop
  | .read width offset =>
    width ≠ .w64 ∨ offset.toNat % 8 ≠ 0 ∨ (0x0C8 ≤ offset.toNat ∧ offset.toNat < 0x100) ∨ 0x130 ≤ offset.toNat
  | .write width offset _ =>
    width ≠ .w64 ∨ offset.toNat % 8 ≠ 0 ∨ (0x0C8 ≤ offset.toNat ∧ offset.toNat < 0x100) ∨ 0x130 ≤ offset.toNat ∨
      offset.toNat < 0x0C8 ∨ offset.toNat = 0x108 ∨ offset.toNat = 0x128

/-- The moves of an environment that keeps to one host and to accesses the port takes (20_memory.md R57, R215). -/
def Move.legal : Move → Bool
  | .host a => !a.isBusError
  | .engine | .reset => true
  | .secondHost _ => false

/-- The engine is next to move: the list says so, or it is empty (20_memory.md R63; log 2). -/
def State.engineTurn (s : State) : Prop := s.moves = [] ∨ ∃ ms, s.moves = .engine :: ms

/-- The next step completes command `i`. -/
def State.completes (s : State) (i : Instr) : Prop :=
  s.engineTurn ∧ s.pend.valid = true ∧ decode s.pend.word = .ok i

/-! ## Frames -/

/-- The registers that no rejection changes: A, DATA, RESULT, RATE, POS and PEND (60_exceptions.md R201). -/
def sameRegs (s t : State) : Prop :=
  t.A = s.A ∧ t.data = s.data ∧ t.result = s.result ∧ t.rate = s.rate ∧ t.pos = s.pos ∧ t.pend = s.pend

/-- STATUS is unchanged; its BUSY bit is PEND.valid and is compared with PEND. -/
def sameStatus (s t : State) : Prop := t.err = s.err ∧ t.errCode = s.errCode

/-- The environment's side is unchanged: the moves to come, the replies given, the draws made. -/
def sameEnv (s t : State) : Prop := t.moves = s.moves ∧ t.replies = s.replies ∧ t.draws = s.draws

/-- All that no command changes when it completes by its rule: DATA, RATE, STATUS, PEND, the ghost flag, the
environment's side. -/
def sameButArrayResultPos (s t : State) : Prop :=
  t.data = s.data ∧ t.rate = s.rate ∧ sameStatus s t ∧ t.pend = s.pend ∧ t.rejected = s.rejected ∧ sameEnv s t

/-- The frame of the step mappings and the lane commands: everything but the array is unchanged. -/
def sameButArray (s t : State) : Prop := sameButArrayResultPos s t ∧ t.result = s.result ∧ t.pos = s.pos

/-- The frame of RCGEN: everything but RESULT is unchanged. -/
def sameButResult (s t : State) : Prop := sameButArrayResultPos s t ∧ t.A = s.A ∧ t.pos = s.pos

/-- The frame of INIT, ABSORB and PAD: everything but the array and POS is unchanged. -/
def sameButArrayPos (s t : State) : Prop := sameButArrayResultPos s t ∧ t.result = s.result

/-- A rejection with cause `e` (60_exceptions.md R201): ERR is 1, ERRCODE is the first error's code, and nothing else of
the hardware changes. -/
def Rejects (e : CmdErr) (s t : State) : Prop :=
  t.err = true ∧ t.errCode = (if s.err = true then s.errCode else e.code) ∧ sameRegs s t

/-! ## Sponge steps -/

/-- The states in which the sponge commands execute: RATE configured (42_sponge.md R160), RATE and POS as R36 (a), (b)
have them in every reachable state. -/
def SpongeReady (s : State) : Prop := 1 ≤ s.rate.toNat ∧ s.rate.toNat ≤ 200 ∧ s.pos.toNat ≤ s.rate.toNat

/-- The array a sponge byte access finds: after the permutation when one is owed (42_sponge.md R161). -/
def accessArray (s : State) : StateArray := if s.pos.toNat = s.rate.toNat then keccakP s.A else s.A

/-- The byte position a sponge byte access uses (42_sponge.md R161). -/
def accessPos (s : State) : Nat := if s.pos.toNat = s.rate.toNat then 0 else s.pos.toNat

/-- `t` is `s` after one message byte (42_sponge.md R163). -/
def AbsorbsByte (s : State) (b : Byte) (t : State) : Prop :=
  (∀ k < 200, memRead t.A k = if k = accessPos s then memRead (accessArray s) k ^^^ b else memRead (accessArray s) k) ∧
    t.pos.toNat = accessPos s + 1 ∧ t.rate = s.rate

/-- `t` is `s` after one output byte `b` (42_sponge.md R166). -/
def SqueezesByte (s : State) (b : Byte) (t : State) : Prop :=
  b = memRead (accessArray s) (accessPos s) ∧ t.A = accessArray s ∧ t.pos.toNat = accessPos s + 1 ∧ t.rate = s.rate

end Sys2Proof.Machine
end

