-- ==== Sys2Proof/Certificates/Slice0/Obligations.lean ====
section
/-!
DEFINITION. The statements for the provers. Each docstring names the rule of spec/ it formalises, and says so where a
clause rests on a choice of the model's (a log entry) and on no rule.
-/

open Sys2Proof Sys2Proof.Machine Sys2Proof.Source

/-! ## Reset and the invariant -/

/-- 70_reset_and_hazards.md R242, of the reset state and its first step: the engine is idle with no error, a zero state and
RATE not configured, and an engine turn, or a step with no move to come, leaves the hardware's state as it is. That a
program comes only as moves, and what a step does when none is left, are logs 1 and 2. -/
def Obligations.ResetStateIsIdleAndZero : Prop :=
  State.reset.pend.valid = false ∧ State.reset.err = false ∧ State.reset.rate = 0#8 ∧
    (∀ x y : Fin 5, laneAt State.reset.A x y = 0#64) ∧
    step State.reset = .next State.reset ∧
    ∀ ms, step { State.reset with moves := .engine :: ms } = .next { State.reset with moves := ms }

/-- 70_reset_and_hazards.md R240, R241: the reset event, between any two other steps and with or without a pending
command, leaves every lane and every register 0, STATUS 0 and nothing pending. -/
def Obligations.ResetEventClearsHardware : Prop :=
  ∀ (s : State) (ms : List Move),
    ∃ t, step { s with moves := .reset :: ms } = .next t ∧
      (∀ x y : Fin 5, laneAt t.A x y = 0#64) ∧ t.data = 0#64 ∧ t.result = 0#64 ∧ t.rate = 0#8 ∧ t.pos = 0#8 ∧
      t.err = false ∧ t.errCode = 0#4 ∧ t.pend.valid = false ∧ t.moves = ms

/-- The invariants of 10_state.md R36 hold at reset. (The model's invariant adds to R36 that ERRCODE is at most 7, that
ERR implies the ghost flag of log 8, and that a pending word was accepted, R202.) -/
def Obligations.ResetStateMeetsInvariant : Prop := State.reset.Inv

/-- 10_state.md R36, "every rule of this spec preserves it": every step, whatever moves next, keeps the invariant, from
every state that meets it. -/
def Obligations.StepKeepsInvariant : Prop :=
  ∀ s t : State, s.Inv → step s = .next t → t.Inv

/-! ## Command words -/

/-- 30_encoding.md R89, R92: decoding the word of a well-formed command gives that command back, with every operand. -/
def Obligations.DecodeReturnsEncodedCommand : Prop :=
  ∀ i : Instr, i.WellFormed → decode (encode i) = .ok i

/-- 30_encoding.md R94: `encode(decode(W)) = W` for every word decode accepts; the command it gives is well-formed. -/
def Obligations.EncodeReturnsAcceptedWord : Prop :=
  ∀ (W : Word) (i : Instr), decode W = .ok i → encode i = W ∧ i.WellFormed

/-- 30_encoding.md R89: decode is total, and the first of R89's checks that fails gives the result; a word no check of
which fails decodes to a command. -/
def Obligations.DecodeReportsFirstFailingCheck : Prop :=
  ∀ W : Word,
    (illegalWord W.toNat → decode W = .error .illegalOp) ∧
    (¬ illegalWord W.toNat → reservedWord W → decode W = .error .reservedBits) ∧
    (¬ illegalWord W.toNat → ¬ reservedWord W → badLaneWord W.toNat → decode W = .error .badLane) ∧
    (¬ illegalWord W.toNat → ¬ reservedWord W → badRoundWord W.toNat → decode W = .error .badRound) ∧
    (¬ illegalWord W.toNat → ¬ reservedWord W → badSuffixWord W.toNat → decode W = .error .badSuffix) ∧
    (¬ illegalWord W.toNat → ¬ reservedWord W → ¬ badLaneWord W.toNat → ¬ badRoundWord W.toNat →
      ¬ badSuffixWord W.toNat → ∃ i, decode W = .ok i)

/-- 30_encoding.md R92: its ten example words decode to the commands they stand for. -/
def Obligations.ExampleWordsDecode : Prop :=
  decode 0x00000001#64 = .ok .init ∧
    decode 0x00002010#64 = .ok (.absorb 2#3) ∧
    decode 0x00007010#64 = .ok (.absorb 7#3) ∧
    decode 0x00022011#64 = .ok (.pad 2#3 0b10#6) ∧
    decode 0x00007012#64 = .ok (.squeeze 7#3) ∧
    decode 0x000FF443#64 = .ok (.wrl 1#3 2#3 0xFF#8) ∧
    decode 0x00004444#64 = .ok (.rotl 1#3 2#3 4#6) ∧
    decode 0x0001700C#64 = .ok (.iota 23#5) ∧
    decode 0x0000100F#64 = .ok (.rcgen 1#5) ∧
    decode 0x00001902#64 = .ok (.xorl 4#3 4#3 0x01#8)

/-! ## Steps -/

/-- 20_memory.md R63: when the engine moves (its move is next, or no move is left), it performs the pending command's
whole rule and then clears PEND.valid; a stop of the meaning is the step's stop. With nothing pending it does nothing. -/
def Obligations.EngineStepRunsPendingCommand : Prop :=
  ∀ (s : State) (ms : List Move),
    (∀ i, s.pend.valid = true → decode s.pend.word = .ok i →
      (∀ u, exec i { s with moves := ms } = .next u →
        step { s with moves := .engine :: ms } = .next { u with pend := { u.pend with valid := false } }) ∧
      (∀ f, exec i { s with moves := ms } = .fault f → step { s with moves := .engine :: ms } = .fault f) ∧
      (∀ u, exec i { s with moves := [] } = .next u →
        step { s with moves := [] } = .next { u with pend := { u.pend with valid := false } })) ∧
    (s.pend.valid = false → step { s with moves := .engine :: ms } = .next { s with moves := ms })

/-- 60_exceptions.md R208: from a state that meets the invariant, the engine step completes the accepted command, with no
error, no fault and nothing left pending. -/
def Obligations.AcceptedCommandNeverFails : Prop :=
  ∀ (s : State) (ms : List Move), s.Inv → s.pend.valid = true →
    ∃ t, step { s with moves := .engine :: ms } = .next t ∧ t.pend.valid = false ∧ sameStatus s t ∧ t.moves = ms ∧
      t.data = s.data ∧ t.rate = s.rate

/-- 60_exceptions.md R208 with 20_memory.md R57: from a state that meets the invariant a step stops only for a bus error
of the host, or for a second host. -/
def Obligations.OnlyBusErrorsFault : Prop :=
  ∀ s : State, s.Inv →
    (∀ f, step s = .fault f → ∃ a ms, s.moves = .host a :: ms ∧ busErrorAccess a ∧ f = .busError a) ∧
    (∀ r, step s = .refused r → ∃ a ms, s.moves = .secondHost a :: ms ∧ r = .secondHost)

/-- 70_reset_and_hazards.md R251, for moves of one host that are no bus errors, resets allowed: one step more than the
moves to come leaves nothing pending. And where no reset comes, the command pending now takes effect: after at most as
many steps as there are moves its completion is the next step, on the array, RESULT, RATE, POS and latched operand it was
accepted with, and raises no error. A command accepted later is the pending one of the state after its acceptance. And a
host program's POLL loop, after any number of passes that read BUSY = 1, ends once the engine has had its turn. (That the
engine is taken when no move is left is the model's reading of R63's fairness, log 2.) -/
def Obligations.EveryAcceptedCommandCompletes : Prop :=
  ∀ s : State, s.Inv → (∀ m ∈ s.moves, m.legal = true) →
    (∃ t, Host.Core.run core (s.moves.length + 1) s = .next t ∧ t.moves = [] ∧ t.pend.valid = false ∧ t.Inv) ∧
    (∀ i, s.pend.valid = true → decode s.pend.word = .ok i → .reset ∉ s.moves →
      ∃ k ≤ s.moves.length, ∃ u v : State, Host.Core.run core k s = .next u ∧ u.completes i ∧
        u.pend = s.pend ∧ u.A = s.A ∧ u.result = s.result ∧ u.rate = s.rate ∧ u.pos = s.pos ∧
        exec i { u with moves := u.moves.tail } = .next v ∧ sameStatus u v ∧
        step u = .next { v with pend := { v.pend with valid := false } }) ∧
    (∀ (n : Nat) (rest : List HostOp), s.pend.valid = true →
      ∃ t : State, t.pend.valid = false ∧
        HostRun.run { program := .poll :: rest, machine := s } (List.replicate n .host ++ [.engine, .host]) =
          .next { program := rest, machine := t })

/-- 70_reset_and_hazards.md R245, R246: while a command is pending, a host access that is neither a bus error nor a busy
hazard gives the same state whether it comes before or after the command's completion; for a read of STATUS the states
differ in the value read, and that only in bit 0, BUSY, which reads 1 before and 0 after. -/
def Obligations.HazardFreeAccessCommutesWithCompletion : Prop :=
  ∀ (s : State) (a : Access) (ms : List Move), s.Inv → s.pend.valid = true →
    a.isBusError = false → a.busyHazard = false →
    ∃ t u, Host.Core.run core 2 { s with moves := .host a :: .engine :: ms } = .next t ∧
      Host.Core.run core 2 { s with moves := .engine :: .host a :: ms } = .next u ∧
      ((∀ w, a ≠ .read w 0x118#9) → t = u) ∧
      (∀ w, a = .read w 0x118#9 → ∃ before after : Word,
        t.replies = .value before :: s.replies ∧ u = { t with replies := .value after :: s.replies } ∧
        before.getLsbD 0 = true ∧ after.getLsbD 0 = false ∧ ∀ z, z ≠ 0 → before.getLsbD z = after.getLsbD z)

/-- 00_scope.md R14: a command's effect on the engine is a function of the array, RATE, POS and the latched operand: two
states that agree on these agree on the outcome, whatever STATUS, DATA and the environment hold. -/
def Obligations.CommandEffectDependsOnlyOnEngineState : Prop :=
  ∀ (i : Instr) (s s' t : State), s'.A = s.A → s'.rate = s.rate → s'.pos = s.pos → s'.result = s.result →
    s'.pend.data = s.pend.data → exec i s = .next t →
    ∃ t', exec i s' = .next t' ∧ t'.A = t.A ∧ t'.rate = t.rate ∧ t'.pos = t.pos ∧ t'.result = t.result

/-- 10_state.md R20, R26, R27, R29, R30, over every step: lanes change only at a reset or when a command other than RCGEN
completes; RESULT only at a reset or when SQUEEZE or RCGEN completes; DATA only at a reset or a host write of DATA; RATE
only at a reset or a host write of RATE; POS only at a reset, a host write of RATE, or when INIT, ABSORB, PAD or SQUEEZE
completes. -/
def Obligations.RegistersChangeOnlyByTheirWriters : Prop :=
  ∀ s t : State, step s = .next t →
    (t.A ≠ s.A → (∃ ms, s.moves = .reset :: ms) ∨ ∃ i, s.completes i ∧ ∀ ir, i ≠ .rcgen ir) ∧
    (t.result ≠ s.result → (∃ ms, s.moves = .reset :: ms) ∨
      ∃ i, s.completes i ∧ ((∃ cnt, i = .squeeze cnt) ∨ ∃ ir, i = .rcgen ir)) ∧
    (t.data ≠ s.data → (∃ ms, s.moves = .reset :: ms) ∨ ∃ v ms, s.moves = .host (.write .w64 0x100#9 v) :: ms) ∧
    (t.rate ≠ s.rate → (∃ ms, s.moves = .reset :: ms) ∨ ∃ v ms, s.moves = .host (.write .w64 0x120#9 v) :: ms) ∧
    (t.pos ≠ s.pos → (∃ ms, s.moves = .reset :: ms) ∨ (∃ v ms, s.moves = .host (.write .w64 0x120#9 v) :: ms) ∨
      ∃ i, s.completes i ∧ (i = .init ∨ i.isSponge = true))

/-- The ghost flag (60_exceptions.md R204; the model's choice to keep it and its details: log 8): no step clears it, and
ERR never becomes 1 without it. -/
def Obligations.RejectionIsNeverForgotten : Prop :=
  ∀ s t : State, step s = .next t →
    (s.rejected = true → t.rejected = true) ∧ (s.err = false → t.err = true → t.rejected = true)

/-! ## Lane commands (40_lane_ops.md) -/

/-- R100: INIT zeroes every lane and POS in every state, RATE configured or not; its word is 0x00000001; nothing else
changes. -/
def Obligations.InitClearsArrayAndPosition : Prop :=
  encode .init = 0x00000001#64 ∧
    ∀ s : State, ∃ t, exec .init s = .next t ∧ (∀ x y : Fin 5, laneAt t.A x y = 0#64) ∧ t.pos = 0#8 ∧
      sameButArrayPos s t

/-- R101: XORL flips bit z of the lane where the latched DATA has a 1 and MASK enables byte z/8; every other lane and
register is unchanged. That `exec` itself answers x > 4 or y > 4 with BAD_LANE, where R202 checks at the CMD write, is log
10 (DEDUCED). -/
def Obligations.XorlFlipsMaskedDataBits : Prop :=
  (∀ (x y : BitVec 3) (mask : BitVec 8),
    (encode (.xorl x y mask)).toNat = 0x02 + x.toNat * 2 ^ 6 + y.toNat * 2 ^ 9 + mask.toNat * 2 ^ 12) ∧
  (∀ (x y : Fin 5) (mask : BitVec 8) (s : State),
    ∃ t, exec (.xorl (BitVec.ofNat 3 x.val) (BitVec.ofNat 3 y.val) mask) s = .next t ∧
      (∀ z < 64, bitAt t.A x y z = (bitAt s.A x y z ^^ (s.pend.data.getLsbD z && mask.getLsbD (z / 8)))) ∧
      (∀ x' y' : Fin 5, ¬ (x' = x ∧ y' = y) → laneAt t.A x' y' = laneAt s.A x' y') ∧ sameButArray s t) ∧
  (∀ (x y : BitVec 3) (mask : BitVec 8) (s : State), 4 < x.toNat ∨ 4 < y.toNat →
    ∃ t, exec (.xorl x y mask) s = .next t ∧ Rejects .badLane s t)

/-- R102: WRL puts bit z of the latched DATA where MASK enables byte z/8 and keeps the lane's bit elsewhere; every other
lane and register is unchanged. That `exec` itself answers x > 4 or y > 4 with BAD_LANE, where R202 checks at the CMD
write, is log 10 (DEDUCED). -/
def Obligations.WrlWritesMaskedDataBytes : Prop :=
  (∀ (x y : BitVec 3) (mask : BitVec 8),
    (encode (.wrl x y mask)).toNat = 0x03 + x.toNat * 2 ^ 6 + y.toNat * 2 ^ 9 + mask.toNat * 2 ^ 12) ∧
  (∀ (x y : Fin 5) (mask : BitVec 8) (s : State),
    ∃ t, exec (.wrl (BitVec.ofNat 3 x.val) (BitVec.ofNat 3 y.val) mask) s = .next t ∧
      (∀ z < 64, bitAt t.A x y z = if mask.getLsbD (z / 8) = true then s.pend.data.getLsbD z else bitAt s.A x y z) ∧
      (∀ x' y' : Fin 5, ¬ (x' = x ∧ y' = y) → laneAt t.A x' y' = laneAt s.A x' y') ∧ sameButArray s t) ∧
  (∀ (x y : BitVec 3) (mask : BitVec 8) (s : State), 4 < x.toNat ∨ 4 < y.toNat →
    ∃ t, exec (.wrl x y mask) s = .next t ∧ Rejects .badLane s t)

/-- R103: after ROTL bit z of the lane is the old bit (z - AMT) mod 64, for every AMT in 0..63; every other lane and
register is unchanged. That `exec` itself answers x > 4 or y > 4 with BAD_LANE, where R202 checks at the CMD write, is log
10 (DEDUCED). -/
def Obligations.RotlRotatesLaneUp : Prop :=
  (∀ (x y : BitVec 3) (amt : BitVec 6),
    (encode (.rotl x y amt)).toNat = 0x04 + x.toNat * 2 ^ 6 + y.toNat * 2 ^ 9 + amt.toNat * 2 ^ 12) ∧
  (∀ (x y : Fin 5) (amt : BitVec 6) (s : State),
    ∃ t, exec (.rotl (BitVec.ofNat 3 x.val) (BitVec.ofNat 3 y.val) amt) s = .next t ∧
      (∀ z < 64, bitAt t.A x y z = bitAt s.A x y ((z + 64 - amt.toNat) % 64)) ∧
      (∀ x' y' : Fin 5, ¬ (x' = x ∧ y' = y) → laneAt t.A x' y' = laneAt s.A x' y') ∧ sameButArray s t) ∧
  (∀ (x y : BitVec 3) (amt : BitVec 6) (s : State), 4 < x.toNat ∨ 4 < y.toNat →
    ∃ t, exec (.rotl x y amt) s = .next t ∧ Rejects .badLane s t)

/-- R104: after ROTR bit z of the lane is the old bit (z + AMT) mod 64; every other lane and register is unchanged. That
`exec` itself answers x > 4 or y > 4 with BAD_LANE, where R202 checks at the CMD write, is log 10 (DEDUCED). -/
def Obligations.RotrRotatesLaneDown : Prop :=
  (∀ (x y : BitVec 3) (amt : BitVec 6),
    (encode (.rotr x y amt)).toNat = 0x05 + x.toNat * 2 ^ 6 + y.toNat * 2 ^ 9 + amt.toNat * 2 ^ 12) ∧
  (∀ (x y : Fin 5) (amt : BitVec 6) (s : State),
    ∃ t, exec (.rotr (BitVec.ofNat 3 x.val) (BitVec.ofNat 3 y.val) amt) s = .next t ∧
      (∀ z < 64, bitAt t.A x y z = bitAt s.A x y ((z + amt.toNat) % 64)) ∧
      (∀ x' y' : Fin 5, ¬ (x' = x ∧ y' = y) → laneAt t.A x' y' = laneAt s.A x' y') ∧ sameButArray s t) ∧
  (∀ (x y : BitVec 3) (amt : BitVec 6) (s : State), 4 < x.toNat ∨ 4 < y.toNat →
    ∃ t, exec (.rotr x y amt) s = .next t ∧ Rejects .badLane s t)

/-- R104: "`ROTR x,y,n` undoes `ROTL x,y,n` for every n"; R101: applying the same XORL twice with the same DATA restores
the lane. -/
def Obligations.RotrUndoesRotlAndXorlItself : Prop :=
  (∀ (x y : BitVec 3) (amt : BitVec 6) (s t u : State), x.toNat ≤ 4 → y.toNat ≤ 4 →
    exec (.rotl x y amt) s = .next t → exec (.rotr x y amt) t = .next u → u = s) ∧
  (∀ (x y : BitVec 3) (mask : BitVec 8) (s t u : State), x.toNat ≤ 4 → y.toNat ≤ 4 →
    exec (.xorl x y mask) s = .next t → exec (.xorl x y mask) t = .next u → u = s)

/-! ## Permutation commands (41_permutation.md) -/

/-- R120, R131: THETA in the bit form of the source, on every state: each bit of lane (x,y) is XORed with `c[x-1][z] XOR
c[x+1][z-1]`, coordinates mod 5 and z mod 64; nothing but the array changes. -/
def Obligations.ThetaXorsColumnParities : Prop :=
  encode .theta = 0x00000008#64 ∧
    ∀ s : State, ∃ t, exec .theta s = .next t ∧
      (∀ (x y : Fin 5), ∀ z < 64, bitAt t.A x y z =
        (bitAt s.A x y z ^^ (columnBit s.A (x - 1) z ^^ columnBit s.A (x + 1) ((z + 63) % 64)))) ∧
      sameButArray s t

/-- R121, R132: RHO never rotates lane (0,0), and rotates the lane of visitation index n by `((n+1)(n+2)/2) mod 64`; the
24 visits reach every other lane; nothing but the array changes. -/
def Obligations.RhoRotatesLanesInVisitingOrder : Prop :=
  encode .rho = 0x00000009#64 ∧
    (∀ x y : Fin 5, ¬ (x = 0 ∧ y = 0) → ∃ n < 24, rhoVisit n = (x, y)) ∧
    ∀ s : State, ∃ t, exec .rho s = .next t ∧ laneAt t.A 0 0 = laneAt s.A 0 0 ∧
      (∀ n < 24, ∀ z < 64, bitAt t.A (rhoVisit n).1 (rhoVisit n).2 z =
        bitAt s.A (rhoVisit n).1 (rhoVisit n).2 ((z + 64 - rhoVisitOffset n) % 64)) ∧
      sameButArray s t

/-- R123, R133: PI moves lane `((x+3y) mod 5, x)` to lane (x,y), which is R123's table of source lanes by index; nothing
but the array changes. -/
def Obligations.PiMovesLanes : Prop :=
  encode .pi = 0x0000000A#64 ∧
    ∀ s : State, ∃ t, exec .pi s = .next t ∧
      (∀ x y : Fin 5, laneAt t.A x y = laneAt s.A ⟨(x.val + 3 * y.val) % 5, Nat.mod_lt _ (Nat.succ_pos 4)⟩ x) ∧
      (∀ i : Fin 25, t.A[i.val]? = s.A[piSources[i]]?) ∧
      sameButArray s t

/-- R133: 24 PI commands in a row complete and give the starting state back: pi has order 24 as a permutation of lanes, so
no smaller number of them restores every state. -/
def Obligations.PiHasOrderTwentyFour : Prop :=
  (∀ s : State, ∃ f : Nat → State, f 0 = s ∧ (∀ n < 24, exec .pi (f n) = .next (f (n + 1))) ∧ f 24 = s) ∧
    (∀ m, 1 ≤ m → m < 24 →
      ∃ f : Nat → State, (∀ n < m, exec .pi (f n) = .next (f (n + 1))) ∧ f m ≠ f 0)

/-- R124, R134: CHI in the bit form of the source, read from the old state; nothing but the array changes. -/
def Obligations.ChiCombinesRowBits : Prop :=
  encode .chi = 0x0000000B#64 ∧
    ∀ s : State, ∃ t, exec .chi s = .next t ∧
      (∀ (x y : Fin 5), ∀ z < 64, bitAt t.A x y z =
        (bitAt s.A x y z ^^ ((!bitAt s.A (x + 1) y z) && bitAt s.A (x + 2) y z))) ∧
      sameButArray s t

/-- R127, R129, R135: IOTA XORs bit z of lane (0,0) with RC[z], where `RC[2^j - 1] = rc(j + 7*IR)` with rc as the bit LFSR
of R125 and every other bit 0; no other lane or register changes. That `exec` itself answers IR > 23 with BAD_ROUND, where
R202 checks at the CMD write, is log 10 (DEDUCED). -/
def Obligations.IotaXorsRoundConstant : Prop :=
  (∀ ir : BitVec 5, (encode (.iota ir)).toNat = 0x0C + ir.toNat * 2 ^ 12) ∧
  (∀ (ir : BitVec 5) (s : State), ir.toNat ≤ 23 →
    ∃ t, exec (.iota ir) s = .next t ∧
      (∀ z < 64, bitAt t.A 0 0 z = (bitAt s.A 0 0 z ^^ rcLaneBit ir.toNat z)) ∧
      (∀ x y : Fin 5, ¬ (x = 0 ∧ y = 0) → laneAt t.A x y = laneAt s.A x y) ∧ sameButArray s t) ∧
  (∀ (ir : BitVec 5) (s : State), 23 < ir.toNat → ∃ t, exec (.iota ir) s = .next t ∧ Rejects .badRound s t)

/-- R130, R136: ROUND ir has the effect of THETA; RHO; PI; CHI; IOTA ir issued one after another; nothing but the array
changes. That `exec` itself answers IR > 23 with BAD_ROUND, where R202 checks at the CMD write, is log 10 (DEDUCED). -/
def Obligations.RoundIsFiveStepCommands : Prop :=
  (∀ ir : BitVec 5, (encode (.round ir)).toNat = 0x0D + ir.toNat * 2 ^ 12) ∧
  (∀ (ir : BitVec 5) (s : State), ir.toNat ≤ 23 →
    ∃ t a b c d, exec (.round ir) s = .next t ∧ exec .theta s = .next a ∧ exec .rho a = .next b ∧
      exec .pi b = .next c ∧ exec .chi c = .next d ∧ exec (.iota ir) d = .next t ∧ sameButArray s t) ∧
  (∀ (ir : BitVec 5) (s : State), 23 < ir.toNat → ∃ t, exec (.round ir) s = .next t ∧ Rejects .badRound s t)

/-- R137, R138: PERMUTE has the effect of ROUND 0; ROUND 1; ...; ROUND 23; RATE, POS and everything but the array are
unchanged. -/
def Obligations.PermuteIsTwentyFourRounds : Prop :=
  encode .permute = 0x0000000E#64 ∧
    ∀ s : State, ∃ (t : State) (f : Nat → State), exec .permute s = .next t ∧ f 0 = s ∧ f 24 = t ∧
      (∀ n < 24, exec (.round (BitVec.ofNat 5 n)) (f n) = .next (f (n + 1))) ∧ sameButArray s t

/-- R138's example and R140 (b): PERMUTE of the zero state is the non-zero state whose lanes (0,0) and (4,4) R138 gives.
-/
def Obligations.PermuteOfZeroStateIsNotZero : Prop :=
  ∃ t, exec .permute State.reset = .next t ∧ laneAt t.A 0 0 = 0xF1258F7940E1DDE7#64 ∧
    laneAt t.A 4 4 = 0xEAF1FF7B5CECA249#64 ∧ t.A ≠ State.reset.A

/-- R127, R139: RCGEN writes RC(IR) to RESULT, bit for bit as R127 gives it from the bit LFSR of R125, and changes nothing
else. That `exec` itself answers IR > 23 with BAD_ROUND, where R202 checks at the CMD write, is log 10 (DEDUCED). -/
def Obligations.RcgenReadsRoundConstant : Prop :=
  (∀ ir : BitVec 5, (encode (.rcgen ir)).toNat = 0x0F + ir.toNat * 2 ^ 12) ∧
  (∀ (ir : BitVec 5) (s : State), ir.toNat ≤ 23 →
    ∃ t, exec (.rcgen ir) s = .next t ∧ (∀ z < 64, t.result.getLsbD z = rcLaneBit ir.toNat z) ∧ sameButResult s t) ∧
  (∀ (ir : BitVec 5) (s : State), 23 < ir.toNat → ∃ t, exec (.rcgen ir) s = .next t ∧ Rejects .badRound s t)

/-- R128: for every round index the constant RCGEN gives is the one of R128's table. -/
def Obligations.RoundConstantsAreTheTable : Prop :=
  ∀ ir : Fin 24, RC ir.val = roundConstants[ir] ∧
    ∃ t, exec (.rcgen (BitVec.ofNat 5 ir.val)) State.reset = .next t ∧ t.result = roundConstants[ir]

/-- R125, R126: the byte LFSR and the bit LFSR give the same rc(t) for every natural t, with period 255; the first eleven
registers, the first 21 values, those around the period and the number of ones in a period are R126's. -/
def Obligations.ByteLfsrIsBitLfsr : Prop :=
  (∀ t, rc t = rcBit t) ∧ (∀ t, rc (t + 255) = rc t) ∧
    (List.range 11).map lfsr =
      [0x01#8, 0x02#8, 0x04#8, 0x08#8, 0x10#8, 0x20#8, 0x40#8, 0x80#8, 0x71#8, 0xE2#8, 0xB5#8] ∧
    ((List.range 21).map fun t => (rc t).toNat) = [1, 0, 0, 0, 0, 0, 0, 0, 1, 0, 1, 1, 0, 0, 0, 1, 1, 1, 1, 0, 1] ∧
    rc 254 = false ∧ rc 255 = true ∧ rc 256 = false ∧ ((List.range 255).filter rc).length = 128

/-- R122: the offset table agrees with R121's visits entry for entry, and lane (0,0) has offset 0. -/
def Obligations.RhoOffsetTableFollowsVisits : Prop :=
  rhoOffset 0 0 = 0 ∧ ∀ n : Fin 24, rhoOffset (rhoVisit n.val).1 (rhoVisit n.val).2 = rhoVisitOffset n.val

/-! ## The byte view (10_state.md) -/

/-- R23: bit b of state byte k is `A[x][y][z]` with i = k div 8, x = i mod 5, y = i div 5, z = 8(k mod 8) + b, and a lane
is the little-endian sum of its eight bytes. -/
def Obligations.StateBytesNameTheLaneBits : Prop :=
  ∀ A : StateArray,
    (∀ k b (hk : k < 200), b < 8 →
      (memRead A k).getLsbD b =
        bitAt A ⟨k / 8 % 5, Nat.mod_lt _ (Nat.succ_pos 4)⟩ ⟨k / 8 / 5, by omega⟩ (8 * (k % 8) + b)) ∧
    (∀ x y : Fin 5,
      (laneAt A x y).toNat =
        ((List.range 8).map fun j => (memRead A (8 * (5 * y.val + x.val) + j)).toNat * 2 ^ (8 * j)).sum)

/-- R24: any 200 bytes are the bytes of exactly one state array. -/
def Obligations.ByteBufferRoundTrips : Prop :=
  ∀ buf : Nat → Byte, ∃ A : StateArray, (∀ k < 200, memRead A k = buf k) ∧
    ∀ B : StateArray, (∀ k < 200, memRead B k = buf k) → B = A

/-! ## Sponge commands (42_sponge.md) -/

/-- R161, R163: ABSORB n is n byte accesses: each finds the array after NEXT(), XORs its byte of the latched DATA into the
state byte at the position, changes no other state byte, and moves the position on; nothing but the array and POS changes.
That `exec` itself answers RATE = 0 with BAD_RATE, where R202 checks at the CMD write, is log 10 (DEDUCED). -/
def Obligations.AbsorbXorsBytesInOrder : Prop :=
  (∀ cnt : BitVec 3, (encode (.absorb cnt)).toNat = 0x10 + cnt.toNat * 2 ^ 12) ∧
  (∀ (cnt : BitVec 3) (s : State), SpongeReady s →
    ∃ (t : State) (f : Nat → State), exec (.absorb cnt) s = .next t ∧ f 0 = s ∧ f (cnt.toNat + 1) = t ∧
      (∀ j ≤ cnt.toNat, AbsorbsByte (f j) (wordByte s.pend.data j) (f (j + 1))) ∧ sameButArrayPos s t ∧
      SpongeReady t) ∧
  (∀ (cnt : BitVec 3) (s : State), s.rate = 0#8 → ∃ t, exec (.absorb cnt) s = .next t ∧ Rejects .badRate s t)

/-- R25: ABSORB that stays inside the block XORs its bytes into state bytes POS to POS+n-1 and touches no other byte, so
the capacity portion is untouched; POS moves by n. -/
def Obligations.AbsorbInsideBlockKeepsCapacity : Prop :=
  ∀ (cnt : BitVec 3) (s : State), SpongeReady s → s.pos.toNat + (cnt.toNat + 1) ≤ s.rate.toNat →
    ∃ t, exec (.absorb cnt) s = .next t ∧
      (∀ k < 200, memRead t.A k =
        if s.pos.toNat ≤ k ∧ k < s.pos.toNat + (cnt.toNat + 1)
        then memRead s.A k ^^^ wordByte s.pend.data (k - s.pos.toNat) else memRead s.A k) ∧
      (∀ k < 200, s.rate.toNat ≤ k → memRead t.A k = memRead s.A k) ∧
      t.pos.toNat = s.pos.toNat + (cnt.toNat + 1)

/-- R163: absorbing m+n bytes in one ABSORB gives the array and POS of an ABSORB of the first m followed by an ABSORB of
the next n. -/
def Obligations.AbsorbSplitsAnywhere : Prop :=
  ∀ (m n k : BitVec 3) (s t u v : State), k.toNat + 1 = (m.toNat + 1) + (n.toNat + 1) →
    exec (.absorb k) s = .next t → exec (.absorb m) s = .next u →
    exec (.absorb n) { u with pend := { u.pend with data := s.pend.data >>> (8 * (m.toNat + 1)) } } = .next v →
    v.A = t.A ∧ v.pos = t.pos

/-- R164, R165: PAD XORs the pad byte `SUF OR (1 << SLEN)` at the position NEXT() leaves and 0x80 into the last rate byte,
which may be the same byte, changes no other state byte, and leaves POS = RATE; nothing else changes. That `exec` itself
answers a bad suffix with BAD_SUFFIX whatever RATE is, and RATE = 0 with BAD_RATE for a good one, where R202 checks at the
CMD write, is log 10 (DEDUCED). -/
def Obligations.PadFramesTheBlock : Prop :=
  (∀ (slen : BitVec 3) (suf : BitVec 6),
    (encode (.pad slen suf)).toNat = 0x11 + slen.toNat * 2 ^ 12 + suf.toNat * 2 ^ 16) ∧
  (∀ (slen : BitVec 3) (suf : BitVec 6) (s : State), SpongeReady s → slen.toNat ≤ 6 → suf.toNat < 2 ^ slen.toNat →
    ∃ t, exec (.pad slen suf) s = .next t ∧
      (∀ k < 200, memRead t.A k =
        memRead (accessArray s) k ^^^ (if k = accessPos s then BitVec.ofNat 8 (suf.toNat + 2 ^ slen.toNat) else 0#8) ^^^
          (if k = s.rate.toNat - 1 then 0x80#8 else 0#8)) ∧
      t.pos = s.rate ∧ sameButArrayPos s t) ∧
  (∀ (slen : BitVec 3) (suf : BitVec 6) (s : State), slen.toNat = 7 ∨ suf.toNat / 2 ^ slen.toNat ≠ 0 →
    ∃ t, exec (.pad slen suf) s = .next t ∧ Rejects .badSuffix s t) ∧
  (∀ (slen : BitVec 3) (suf : BitVec 6) (s : State), s.rate = 0#8 → slen.toNat ≤ 6 → suf.toNat < 2 ^ slen.toNat →
    ∃ t, exec (.pad slen suf) s = .next t ∧ Rejects .badRate s t)

/-- R166: SQUEEZE n is n byte accesses: byte j of RESULT is the state byte at the position after NEXT(), bytes n to 7 of
RESULT are 0, and the array changes only by NEXT()'s permutation; nothing else changes. That `exec` itself answers RATE =
0 with BAD_RATE, where R202 checks at the CMD write, is log 10 (DEDUCED). -/
def Obligations.SqueezeReadsBytesInOrder : Prop :=
  (∀ cnt : BitVec 3, (encode (.squeeze cnt)).toNat = 0x12 + cnt.toNat * 2 ^ 12) ∧
  (∀ (cnt : BitVec 3) (s : State), SpongeReady s →
    ∃ (t : State) (f : Nat → State), exec (.squeeze cnt) s = .next t ∧ f 0 = s ∧
      (∀ j ≤ cnt.toNat, SqueezesByte (f j) (wordByte t.result j) (f (j + 1))) ∧
      t.A = (f (cnt.toNat + 1)).A ∧ t.pos = (f (cnt.toNat + 1)).pos ∧
      (∀ j, cnt.toNat < j → j < 8 → wordByte t.result j = 0#8) ∧ sameButArrayResultPos s t ∧ SpongeReady t) ∧
  (∀ (cnt : BitVec 3) (s : State), s.rate = 0#8 → ∃ t, exec (.squeeze cnt) s = .next t ∧ Rejects .badRate s t)

/-- R172: the output does not depend on how it is split into SQUEEZE commands: SQUEEZE of m+n bytes gives the bytes of
SQUEEZE m followed by those of SQUEEZE n, and the same array and POS. -/
def Obligations.SqueezeSplitsAnywhere : Prop :=
  ∀ (m n k : BitVec 3) (s t u v : State), k.toNat + 1 = (m.toNat + 1) + (n.toNat + 1) →
    exec (.squeeze k) s = .next t → exec (.squeeze m) s = .next u → exec (.squeeze n) u = .next v →
    SpongeReady s →
    (∀ j ≤ m.toNat, wordByte t.result j = wordByte u.result j) ∧
      (∀ j ≤ n.toNat, wordByte t.result (m.toNat + 1 + j) = wordByte v.result j) ∧ v.A = t.A ∧ v.pos = t.pos

/-- R169, R172: the byte-serial datapath computes the source's block-wise sponge: for every rate, every legal suffix,
every message in any pieces of 1 to 8 bytes and every split of the output into SQUEEZE commands, INIT, the ABSORBs, PAD
and the SQUEEZEs complete, and the bytes read from RESULT are the source's output for the whole message. -/
def Obligations.ByteSerialSpongeIsBlockSponge : Prop :=
  ∀ (slen : BitVec 3) (suf : BitVec 6) (pieces : List (List Byte)) (cnts : List (BitVec 3)) (s : State),
    1 ≤ s.rate.toNat → s.rate.toNat ≤ 200 → slen.toNat ≤ 6 → suf.toNat < 2 ^ slen.toNat →
    (∀ p ∈ pieces, 1 ≤ p.length ∧ p.length ≤ 8) →
    ∃ t u, runCommands (absorbCommands pieces slen suf) s = .next t ∧
      runSqueezes cnts t =
        some (sponge s.rate.toNat slen suf pieces.flatten (cnts.map fun c => c.toNat + 1).sum, u)

/-- R170: the padded length is the least multiple of r strictly greater than L, it holds the suffix and both framing bits
for SLEN ≤ 6, and the padded message has that length. -/
def Obligations.PaddedLengthIsLeastMultiple : Prop :=
  ∀ (r : Nat) (slen : BitVec 3) (suf : BitVec 6) (M : List Byte), 1 ≤ r → slen.toNat ≤ 6 →
    r ∣ paddedLength r M.length ∧ M.length < paddedLength r M.length ∧
      (∀ n, r ∣ n → M.length < n → paddedLength r M.length ≤ n) ∧
      8 * M.length + slen.toNat + 2 ≤ 8 * paddedLength r M.length ∧
      (padMessage r slen suf M).length = paddedLength r M.length

/-- The model's stop (log 5), and no rule: a sponge command that is not rejected faults by name in a state that
10_state.md R36 rules out, RATE > 200 or POS > RATE. -/
def Obligations.SpongeFaultsOutsideInvariant : Prop :=
  ∀ (s : State) (cnt : BitVec 3) (slen : BitVec 3) (suf : BitVec 6), s.rate ≠ 0#8 →
    200 < s.rate.toNat ∨ s.rate.toNat < s.pos.toNat →
    exec (.absorb cnt) s = .fault .spongeRange ∧ exec (.squeeze cnt) s = .fault .spongeRange ∧
      (slen.toNat ≤ 6 → suf.toNat < 2 ^ slen.toNat → exec (.pad slen suf) s = .fault .spongeRange)

/-- The model's stop (log 6), and no rule: a pending word that does not decode, which R202 never latches, faults by name
when the engine moves. -/
def Obligations.UndecodablePendingWordFaults : Prop :=
  ∀ (s : State) (ms : List Move) (e : CmdErr), s.pend.valid = true → decode s.pend.word = .error e →
    step { s with moves := .engine :: ms } = .fault (.pendingWord e)

/-! ## The register port (20_memory.md, 60_exceptions.md) -/

/-- 60_exceptions.md R202: what a CMD write does, in R202's order: dropped while ERR = 1; BUSY while a command is pending;
decode's error; BAD_RATE for a sponge command while RATE = 0; otherwise the word and the current DATA are latched. -/
def Obligations.CmdWriteAcceptance : Prop :=
  ∀ (s : State) (W : Word) (ms : List Move),
    ∃ t, step { s with moves := .host (.write .w64 0x110#9 W) :: ms } = .next t ∧
      t.moves = ms ∧ t.replies = .done :: s.replies ∧ t.draws = s.draws ∧
      (s.err = true → sameRegs s t ∧ sameStatus s t) ∧
      (s.err = false → s.pend.valid = true → Rejects .busy s t) ∧
      (∀ e, s.err = false → s.pend.valid = false → decode W = .error e → Rejects e s t) ∧
      (∀ i, s.err = false → s.pend.valid = false → decode W = .ok i → i.isSponge = true → s.rate = 0#8 →
        Rejects .badRate s t) ∧
      (∀ i, s.err = false → s.pend.valid = false → decode W = .ok i → (i.isSponge = true → s.rate ≠ 0#8) →
        t.pend = { valid := true, word := W, data := s.data } ∧ sameStatus s t ∧
          t.A = s.A ∧ t.data = s.data ∧ t.result = s.result ∧ t.rate = s.rate ∧ t.pos = s.pos)

/-- 60_exceptions.md R203: while ERR = 1 CMD and RATE writes have no effect and keep ERRCODE; reads, DATA writes and
STATUS writes work as normal; a command already pending still completes, from every state that meets the invariant. -/
def Obligations.StickyErrorDropsWrites : Prop :=
  ∀ (s : State) (ms : List Move), s.err = true →
    (∀ v, step { s with moves := .host (.write .w64 0x110#9 v) :: ms } =
      .next { s with moves := ms, replies := .done :: s.replies }) ∧
    (∀ v, step { s with moves := .host (.write .w64 0x120#9 v) :: ms } =
      .next { s with moves := ms, replies := .done :: s.replies }) ∧
    (∀ v, step { s with moves := .host (.write .w64 0x100#9 v) :: ms } =
      .next { s with data := v, moves := ms, replies := .done :: s.replies }) ∧
    (∀ v, v.getLsbD 1 = true → step { s with moves := .host (.write .w64 0x118#9 v) :: ms } =
      .next { s with err := false, errCode := 0#4, moves := ms, replies := .done :: s.replies }) ∧
    (∀ v, v.getLsbD 1 = false → step { s with moves := .host (.write .w64 0x118#9 v) :: ms } =
      .next { s with moves := ms, replies := .done :: s.replies }) ∧
    step { s with moves := .host (.read .w64 0x118#9) :: ms } =
      .next { s with moves := ms, replies := .value (statusWord s) :: s.replies } ∧
    (∀ o t, step { s with err := false, errCode := 0#4, moves := .host (.read .w64 o) :: ms } = .next t →
      o ≠ 0x118#9 → step { s with moves := .host (.read .w64 o) :: ms } =
        .next { t with err := true, errCode := s.errCode }) ∧
    (s.Inv → s.pend.valid = true →
      ∃ i u, decode s.pend.word = .ok i ∧ exec i { s with moves := ms } = .next u ∧ sameStatus s u ∧
        step { s with moves := .engine :: ms } = .next { u with pend := { u.pend with valid := false } })

/-- 60_exceptions.md R205: a CMD write or a RATE write while a command is pending and ERR = 0 raises BUSY; the pending
command is not affected and the write is lost. -/
def Obligations.BusyRejectsCmdAndRateWrites : Prop :=
  ∀ (s : State) (v : Word) (ms : List Move) (o : BitVec 9), s.pend.valid = true → s.err = false →
    o = 0x110#9 ∨ o = 0x120#9 →
    ∃ t, step { s with moves := .host (.write .w64 o v) :: ms } = .next t ∧
      t.err = true ∧ t.errCode = 7#4 ∧ sameRegs s t ∧ t.moves = ms

/-- 60_exceptions.md R206: what a RATE write does, in R206's order: dropped while ERR = 1; BUSY; BAD_RATE outside 1..200
as a 64-bit number; otherwise RATE is the value and POS is 0. -/
def Obligations.RateWriteSetsRateAndClearsPos : Prop :=
  ∀ (s : State) (v : Word) (ms : List Move),
    ∃ t, step { s with moves := .host (.write .w64 0x120#9 v) :: ms } = .next t ∧
      t.moves = ms ∧ t.replies = .done :: s.replies ∧
      (s.err = true → sameRegs s t ∧ sameStatus s t) ∧
      (s.err = false → s.pend.valid = true → Rejects .busy s t) ∧
      (s.err = false → s.pend.valid = false → v.toNat < 1 ∨ 200 < v.toNat → Rejects .badRate s t) ∧
      (s.err = false → s.pend.valid = false → 1 ≤ v.toNat → v.toNat ≤ 200 →
        t.rate.toNat = v.toNat ∧ t.pos = 0#8 ∧ sameStatus s t ∧ t.A = s.A ∧ t.data = s.data ∧
          t.result = s.result ∧ t.pend = s.pend)

/-- 10_state.md R28, 60_exceptions.md R204: the bits of a STATUS read, reserved bits 0; a STATUS write clears ERR and
ERRCODE when its bit 1 is 1, does nothing when it is 0, ignores every other bit, and leaves a pending command alone; the
reset event also clears both fields. -/
def Obligations.StatusReadsFieldsAndClearsOnWrite : Prop :=
  ∀ (s : State) (ms : List Move),
    (∃ w : Word, step { s with moves := .host (.read .w64 0x118#9) :: ms } =
        .next { s with moves := ms, replies := .value w :: s.replies } ∧
      w.getLsbD 0 = s.pend.valid ∧ w.getLsbD 1 = s.err ∧ w.extractLsb' 8 4 = s.errCode ∧
      (∀ z, 2 ≤ z ∧ z < 8 ∨ 12 ≤ z → w.getLsbD z = false)) ∧
    (∀ v : Word, v.getLsbD 1 = true → step { s with moves := .host (.write .w64 0x118#9 v) :: ms } =
      .next { s with err := false, errCode := 0#4, moves := ms, replies := .done :: s.replies }) ∧
    (∀ v : Word, v.getLsbD 1 = false → step { s with moves := .host (.write .w64 0x118#9 v) :: ms } =
      .next { s with moves := ms, replies := .done :: s.replies }) ∧
    (∃ t, step { s with moves := .reset :: ms } = .next t ∧ t.err = false ∧ t.errCode = 0#4)

/-- 20_memory.md R57: exactly the accesses R57 lists are answered with BusError, which faults the run; every other access
is taken. -/
def Obligations.BusErrorsAreExactlyTheListed : Prop :=
  ∀ (s : State) (a : Access) (ms : List Move),
    (busErrorAccess a → step { s with moves := .host a :: ms } = .fault (.busError a)) ∧
    (¬ busErrorAccess a → ∃ t, step { s with moves := .host a :: ms } = .next t ∧ t.moves = ms)

/-- 20_memory.md R56: a read of LANE[i] while idle returns `L(i mod 5, i div 5)` and changes nothing; a write to any LANE
offset is answered with BusError; while busy the value is a free draw, here the opaque `Config.busyRead` at a counter that
the read advances (log 4, DESIGN CHOICE). -/
def Obligations.LaneWindowReadsLanes : Prop :=
  ∀ (s : State) (i : Fin 25) (ms : List Move),
    (s.pend.valid = false → step { s with moves := .host (.read .w64 (BitVec.ofNat 9 (8 * i.val))) :: ms } =
      .next { s with
        moves := ms
        replies := .value (laneAt s.A ⟨i.val % 5, by omega⟩ ⟨i.val / 5, by omega⟩) :: s.replies }) ∧
    (∀ v, step { s with moves := .host (.write .w64 (BitVec.ofNat 9 (8 * i.val)) v) :: ms } =
      .fault (.busError (.write .w64 (BitVec.ofNat 9 (8 * i.val)) v))) ∧
    (s.pend.valid = true → step { s with moves := .host (.read .w64 (BitVec.ofNat 9 (8 * i.val))) :: ms } =
      .next { s with moves := ms, replies := .value (Config.busyRead s.draws) :: s.replies, draws := s.draws + 1 })

/-- 20_memory.md R64: while BUSY = 1 a read of LANE[i], RESULT or POS returns a free draw, of which nothing is known: the
opaque `Config.busyRead` at a counter that the read advances (log 4, DESIGN CHOICE). Reads of DATA, STATUS and RATE return
their defined values. -/
def Obligations.BusyReadsAreFreeDraws : Prop :=
  ∀ (s : State) (o : BitVec 9) (ms : List Move), s.pend.valid = true →
    (o.toNat < 0x0C8 ∧ o.toNat % 8 = 0 ∨ o = 0x108#9 ∨ o = 0x128#9 →
      step { s with moves := .host (.read .w64 o) :: ms } =
        .next { s with moves := ms, replies := .value (Config.busyRead s.draws) :: s.replies, draws := s.draws + 1 }) ∧
    step { s with moves := .host (.read .w64 0x100#9) :: ms } =
      .next { s with moves := ms, replies := .value s.data :: s.replies } ∧
    step { s with moves := .host (.read .w64 0x118#9) :: ms } =
      .next { s with moves := ms, replies := .value (statusWord s) :: s.replies } ∧
    step { s with moves := .host (.read .w64 0x120#9) :: ms } =
      .next { s with moves := ms, replies := .value (s.rate.setWidth 64) :: s.replies }

/-- 20_memory.md R58: "Reads of CMD return 0 and have no effect", busy or idle, error or none. -/
def Obligations.CmdReadsReturnZero : Prop :=
  ∀ (s : State) (ms : List Move),
    step { s with moves := .host (.read .w64 0x110#9) :: ms } =
      .next { s with moves := ms, replies := .value 0#64 :: s.replies }

/-- 10_state.md R26, 20_memory.md R68: a DATA write sets DATA and nothing else, a DATA read returns it, and the latched
operand of a pending command is not touched. -/
def Obligations.DataHoldsLastHostWrite : Prop :=
  ∀ (s : State) (v : Word) (ms : List Move),
    step { s with moves := .host (.write .w64 0x100#9 v) :: ms } =
      .next { s with data := v, moves := ms, replies := .done :: s.replies } ∧
    step { s with moves := .host (.read .w64 0x100#9) :: ms } =
      .next { s with moves := ms, replies := .value s.data :: s.replies }

/-- 10_state.md R27, R29, R30, 20_memory.md R53: reads of RESULT, RATE and POS while idle return the registers, RATE and
POS zero-extended, and change nothing. -/
def Obligations.IdleReadsReturnRegisters : Prop :=
  ∀ (s : State) (ms : List Move), s.pend.valid = false →
    step { s with moves := .host (.read .w64 0x108#9) :: ms } =
      .next { s with moves := ms, replies := .value s.result :: s.replies } ∧
    (∃ w : Word, step { s with moves := .host (.read .w64 0x120#9) :: ms } =
      .next { s with moves := ms, replies := .value w :: s.replies } ∧ w.toNat = s.rate.toNat) ∧
    (∃ w : Word, step { s with moves := .host (.read .w64 0x128#9) :: ms } =
      .next { s with moves := ms, replies := .value w :: s.replies } ∧ w.toNat = s.pos.toNat)

/-- 60_exceptions.md R215: a second host on one instance is refused. That the refusal comes with its first access,
whatever it is, a read too, is log 13 (DEDUCED from R215, which speaks of two hosts writing). -/
def Obligations.SecondHostIsRefused : Prop :=
  ∀ (s : State) (a : Access) (ms : List Move),
    step { s with moves := .secondHost a :: ms } = .refused .secondHost

/-- 20_memory.md R51, R55: host address KPE_BASE + offset is the port offset it names, and an address outside the 512
bytes is none, whatever KPE_BASE is. -/
def Obligations.HostAddressesDecodeToOffsets : Prop :=
  (∀ o : BitVec 9, offsetOfAddress (hostAddress o) = some o) ∧
    (∀ addr, addr < Config.kpeBase ∨ Config.kpeBase + 0x200 ≤ addr → offsetOfAddress addr = none)
end

