-- ==== Sys2Proof/Laws/PerInstr.lean ====
section
/-!
SUPPORT. Statements made per instruction, one lemma per constructor: an encoded command has every must-be-zero bit of its
format 0 (30_encoding.md R82 to R87), and its opcode field is the opcode of R81.
-/

namespace Sys2Proof.Laws

/-! ## No encoded command sets a must-be-zero bit -/

/-- The word of a command has no must-be-zero bit set, whatever the operand fields hold. -/
def MbzClear.Statement (i : Instr) : Prop := encode i &&& mbzMask i = 0#64

namespace MbzClear

/-- A field shifted to bit k meets no mask bit outside bits k to k+n-1. -/
theorem field_and_mask {n : Nat} (v : BitVec n) (k : Nat) (m : Word)
    (h : ∀ z < 64, k ≤ z → z < k + n → m.getLsbD z = false) : (v.setWidth 64 <<< k) &&& m = 0#64 := by
  apply BitVec.eq_of_getLsbD_eq
  intro z hz
  by_cases h1 : z < k
  · simp [h1]
  · by_cases h2 : z < k + n
    · simp [h z hz (by omega) h2]
    · have : v.getLsbD (z - k) = false := BitVec.getLsbD_of_ge _ _ (by omega)
      simp [h1, this]

theorem init : Statement .init := rfl
theorem xorl (x y mask) : Statement (.xorl x y mask) := by
  simp only [Statement, encode, mbzMask, opcode, BitVec.and_or_distrib_right,
    field_and_mask x 6 0xFFFFFFFFFFF00000#64 (by decide),
    field_and_mask y 9 0xFFFFFFFFFFF00000#64 (by decide), field_and_mask mask 12 0xFFFFFFFFFFF00000#64 (by decide)]
  decide
theorem wrl (x y mask) : Statement (.wrl x y mask) := by
  simp only [Statement, encode, mbzMask, opcode, BitVec.and_or_distrib_right,
    field_and_mask x 6 0xFFFFFFFFFFF00000#64 (by decide),
    field_and_mask y 9 0xFFFFFFFFFFF00000#64 (by decide), field_and_mask mask 12 0xFFFFFFFFFFF00000#64 (by decide)]
  decide
theorem rotl (x y amt) : Statement (.rotl x y amt) := by
  simp only [Statement, encode, mbzMask, opcode, BitVec.and_or_distrib_right,
    field_and_mask x 6 0xFFFFFFFFFFFC0000#64 (by decide),
    field_and_mask y 9 0xFFFFFFFFFFFC0000#64 (by decide), field_and_mask amt 12 0xFFFFFFFFFFFC0000#64 (by decide)]
  decide
theorem rotr (x y amt) : Statement (.rotr x y amt) := by
  simp only [Statement, encode, mbzMask, opcode, BitVec.and_or_distrib_right,
    field_and_mask x 6 0xFFFFFFFFFFFC0000#64 (by decide),
    field_and_mask y 9 0xFFFFFFFFFFFC0000#64 (by decide), field_and_mask amt 12 0xFFFFFFFFFFFC0000#64 (by decide)]
  decide
theorem theta : Statement .theta := rfl
theorem rho : Statement .rho := rfl
theorem pi : Statement .pi := rfl
theorem chi : Statement .chi := rfl
theorem iota (ir) : Statement (.iota ir) := by
  simp only [Statement, encode, mbzMask, opcode, BitVec.and_or_distrib_right,
    field_and_mask ir 12 0xFFFFFFFFFFFE0FC0#64 (by decide)]
  decide
theorem round (ir) : Statement (.round ir) := by
  simp only [Statement, encode, mbzMask, opcode, BitVec.and_or_distrib_right,
    field_and_mask ir 12 0xFFFFFFFFFFFE0FC0#64 (by decide)]
  decide
theorem permute : Statement .permute := rfl
theorem rcgen (ir) : Statement (.rcgen ir) := by
  simp only [Statement, encode, mbzMask, opcode, BitVec.and_or_distrib_right,
    field_and_mask ir 12 0xFFFFFFFFFFFE0FC0#64 (by decide)]
  decide
theorem absorb (cnt) : Statement (.absorb cnt) := by
  simp only [Statement, encode, mbzMask, opcode, BitVec.and_or_distrib_right,
    field_and_mask cnt 12 0xFFFFFFFFFFFF8FC0#64 (by decide)]
  decide
theorem pad (slen suf) : Statement (.pad slen suf) := by
  simp only [Statement, encode, mbzMask, opcode, BitVec.and_or_distrib_right,
    field_and_mask slen 12 0xFFFFFFFFFFC08FC0#64 (by decide),
    field_and_mask suf 16 0xFFFFFFFFFFC08FC0#64 (by decide)]
  decide
theorem squeeze (cnt) : Statement (.squeeze cnt) := by
  simp only [Statement, encode, mbzMask, opcode, BitVec.and_or_distrib_right,
    field_and_mask cnt 12 0xFFFFFFFFFFFF8FC0#64 (by decide)]
  decide

end MbzClear

/-! ## The opcode field of an encoded command -/

/-- Bits 5:0 of the command's word are its opcode, whatever the operand fields hold. -/
def OpcodeKept.Statement (i : Instr) : Prop := fieldOp (encode i) = (opcode i).setWidth 6

namespace OpcodeKept

theorem fieldOp_or (a b : Word) : fieldOp (a ||| b) = fieldOp a ||| fieldOp b := by
  simp only [fieldOp]
  apply BitVec.eq_of_getLsbD_eq
  intro z hz
  simp [hz]

theorem fieldOp_field {n : Nat} (v : BitVec n) (k : Nat) (h : 6 ≤ k) : fieldOp (v.setWidth 64 <<< k) = 0#6 := by
  apply BitVec.eq_of_getLsbD_eq
  intro z hz
  have : z < k := by omega
  simp [fieldOp, BitVec.getLsbD_extractLsb', this]

theorem init : Statement .init := rfl
theorem xorl (x y mask) : Statement (.xorl x y mask) := by
  simp [Statement, encode, fieldOp_or, fieldOp_field]; rfl
theorem wrl (x y mask) : Statement (.wrl x y mask) := by
  simp [Statement, encode, fieldOp_or, fieldOp_field]; rfl
theorem rotl (x y amt) : Statement (.rotl x y amt) := by
  simp [Statement, encode, fieldOp_or, fieldOp_field]; rfl
theorem rotr (x y amt) : Statement (.rotr x y amt) := by
  simp [Statement, encode, fieldOp_or, fieldOp_field]; rfl
theorem theta : Statement .theta := rfl
theorem rho : Statement .rho := rfl
theorem pi : Statement .pi := rfl
theorem chi : Statement .chi := rfl
theorem iota (ir) : Statement (.iota ir) := by simp [Statement, encode, fieldOp_or, fieldOp_field]; rfl
theorem round (ir) : Statement (.round ir) := by simp [Statement, encode, fieldOp_or, fieldOp_field]; rfl
theorem permute : Statement .permute := rfl
theorem rcgen (ir) : Statement (.rcgen ir) := by simp [Statement, encode, fieldOp_or, fieldOp_field]; rfl
theorem absorb (cnt) : Statement (.absorb cnt) := by simp [Statement, encode, fieldOp_or, fieldOp_field]; rfl
theorem pad (slen suf) : Statement (.pad slen suf) := by
  simp [Statement, encode, fieldOp_or, fieldOp_field]; rfl
theorem squeeze (cnt) : Statement (.squeeze cnt) := by simp [Statement, encode, fieldOp_or, fieldOp_field]; rfl

end OpcodeKept

end Sys2Proof.Laws
end

