-- ==== Sys2Proof/Laws/Decode.lean ====
section
/-!
SUPPORT. Fields of an encoded command: extracting a field from an OR of fields, from a field at the same place, and from a
field elsewhere; and what decode can answer.
-/

namespace Sys2Proof

theorem extract_or (k n : Nat) (a b : Word) :
    (a ||| b).extractLsb' k n = a.extractLsb' k n ||| b.extractLsb' k n := by
  apply BitVec.eq_of_getLsbD_eq
  intro z hz
  simp [hz]

/-- The field at bit k is the value put there. -/
theorem extract_field_same {n : Nat} (v : BitVec n) (k : Nat) (h : k + n ≤ 64) :
    (v.setWidth 64 <<< k).extractLsb' k n = v := by
  apply BitVec.eq_of_getLsbD_eq
  intro z hz
  have h1 : k + z < 64 := by omega
  simp [hz, h1]

/-- A field put elsewhere leaves the bits k to k+n-1 zero. -/
theorem extract_field_other {m : Nat} (v : BitVec m) (j k n : Nat) (h : k + n ≤ j ∨ j + m ≤ k) :
    (v.setWidth 64 <<< j).extractLsb' k n = 0#n := by
  apply BitVec.eq_of_getLsbD_eq
  intro z hz
  rcases h with h | h
  · have : k + z < j := by omega
    simp [this]
  · have : v.getLsbD (k + z - j) = false := BitVec.getLsbD_of_ge _ _ (by omega)
    simp [this]

/-- The opcode number is below 64, so every field above bit 5 of it is zero. -/
theorem extract_opcode (i : Instr) (k n : Nat) (h : 6 ≤ k) : (opcode i).extractLsb' k n = 0#n := by
  have hlt : (opcode i).toNat < 2 ^ 6 := by cases i <;> simp [opcode]
  apply BitVec.eq_of_toNat_eq
  rw [BitVec.extractLsb'_toNat, Nat.shiftRight_eq_div_pow, Nat.div_eq_of_lt]
  · simp
  · exact Nat.lt_of_lt_of_le hlt (Nat.pow_le_pow_right (by decide) h)

/-- What decode can answer (30_encoding.md R89): the first check that fails, or the command. -/
theorem decode_cases (W : Word) :
    (fieldsOf W = none ∧ decode W = .error .illegalOp) ∨
      (∃ i, fieldsOf W = some i ∧ W &&& mbzMask i ≠ 0#64 ∧ decode W = .error .reservedBits) ∨
      (∃ i e, fieldsOf W = some i ∧ W &&& mbzMask i = 0#64 ∧ operandError i = some e ∧ decode W = .error e) ∨
      (∃ i, fieldsOf W = some i ∧ W &&& mbzMask i = 0#64 ∧ operandError i = none ∧ decode W = .ok i) := by
  unfold decode
  cases hf : fieldsOf W with
  | none => exact .inl ⟨rfl, rfl⟩
  | some i =>
    by_cases hm : W &&& mbzMask i = 0#64
    · cases he : operandError i with
      | none => exact .inr (.inr (.inr ⟨i, rfl, hm, he, by simp [hm, he]⟩))
      | some e => exact .inr (.inr (.inl ⟨i, e, rfl, hm, he, by simp [hm, he]⟩))
    · exact .inr (.inl ⟨i, rfl, hm, by simp [hm]⟩)

/-- A command has no operand error exactly when its operands are in range (30_encoding.md R89, R92). -/
theorem operandError_eq_none_iff (i : Instr) : operandError i = none ↔ i.WellFormed := by
  cases i with
  | pad slen suf =>
    have h7 := slen.isLt
    have hs : suf >>> slen.toNat = 0#6 ↔ suf.toNat < 2 ^ slen.toNat := by
      rw [← BitVec.toNat_inj, BitVec.toNat_ushiftRight, Nat.shiftRight_eq_div_pow]
      simp [Nat.div_eq_zero_iff]
    by_cases h : suf.toNat < 2 ^ slen.toNat
    · simp [operandError, Instr.WellFormed, Instr.wellFormed, hs.mpr h, h]
      omega
    · simp [operandError, Instr.WellFormed, Instr.wellFormed, mt hs.mp h, h]
  | xorl x y _ => simp [operandError, Instr.WellFormed, Instr.wellFormed]; omega
  | wrl x y _ => simp [operandError, Instr.WellFormed, Instr.wellFormed]; omega
  | rotl x y _ => simp [operandError, Instr.WellFormed, Instr.wellFormed]; omega
  | rotr x y _ => simp [operandError, Instr.WellFormed, Instr.wellFormed]; omega
  | iota ir => simp [operandError, Instr.WellFormed, Instr.wellFormed]; omega
  | round ir => simp [operandError, Instr.WellFormed, Instr.wellFormed]; omega
  | rcgen ir => simp [operandError, Instr.WellFormed, Instr.wellFormed]; omega
  | init => simp [operandError, Instr.WellFormed, Instr.wellFormed]
  | theta => simp [operandError, Instr.WellFormed, Instr.wellFormed]
  | rho => simp [operandError, Instr.WellFormed, Instr.wellFormed]
  | pi => simp [operandError, Instr.WellFormed, Instr.wellFormed]
  | chi => simp [operandError, Instr.WellFormed, Instr.wellFormed]
  | permute => simp [operandError, Instr.WellFormed, Instr.wellFormed]
  | absorb cnt => simp [operandError, Instr.WellFormed, Instr.wellFormed]
  | squeeze cnt => simp [operandError, Instr.WellFormed, Instr.wellFormed]

end Sys2Proof
end

