-- ==== Sys2Proof/Laws/Operands.lean ====
section
/-!
SUPPORT. One lemma per operand form: the bits of a rotation, of a byte of a word, of a byte put into a word, and the
bytes of packed words.
-/

namespace Sys2Proof.Machine

/-! ## Rotation -/

/-- Bit z of `rotl64 v n` is bit `(z - n) mod 64` of v (00_scope.md R8). -/
theorem getLsbD_rotl64 (v : Lane) (n z : Nat) (hz : z < 64) :
    (rotl64 v n).getLsbD z = v.getLsbD ((z + (64 - n % 64)) % 64) := by
  have hn : n % 64 < 64 := Nat.mod_lt _ (by decide)
  rw [rotl64, BitVec.getLsbD_rotateLeft]
  by_cases h : z < n % 64
  · have : (z + (64 - n % 64)) % 64 = 64 - n % 64 + z := by omega
    simp [h, this]
  · have : (z + (64 - n % 64)) % 64 = z - n % 64 := by omega
    simp [h, hz, this]

/-- Bit z of `rotr64 v n` is bit `(z + n) mod 64` of v (00_scope.md R8). -/
theorem getLsbD_rotr64 (v : Lane) (n z : Nat) (hz : z < 64) :
    (rotr64 v n).getLsbD z = v.getLsbD ((z + n) % 64) := by
  rw [rotr64, getLsbD_rotl64 _ _ _ hz]
  congr 1
  omega

/-- A rotation by a multiple of 64 is the identity (00_scope.md R8: `rotl64(v, 0) = v`). -/
@[simp] theorem rotl64_zero (v : Lane) : rotl64 v 0 = v := by
  apply BitVec.eq_of_getLsbD_eq
  intro z hz
  rw [getLsbD_rotl64 _ _ _ hz]
  congr 1
  omega

/-! ## Bytes of a word -/

/-- Bit b of byte j is bit `8j + b` (20_memory.md R55). -/
@[simp] theorem getLsbD_wordByte (w : Word) (j b : Nat) :
    (wordByte w j).getLsbD b = (decide (b < 8) && w.getLsbD (8 * j + b)) := by
  simp [wordByte, BitVec.getLsbD_extractLsb']

/-- Bit z of a word with byte j replaced. -/
theorem getLsbD_putByte (w : Word) (j z : Nat) (b : Byte) (hz : z < 64) :
    (putByte w j b).getLsbD z = if z / 8 = j then b.getLsbD (z % 8) else w.getLsbD z := by
  have ones : ∀ n, (0xFF#64).getLsbD n = decide (n < 8) := by
    intro n
    by_cases h : n < 64
    · have : ∀ m : Fin 64, (0xFF#64).getLsbD m.val = decide (m.val < 8) := by decide
      exact this ⟨n, h⟩
    · rw [BitVec.getLsbD_of_ge _ _ (by omega)]
      simp
      omega
  simp only [putByte, BitVec.getLsbD_or, BitVec.getLsbD_and, BitVec.getLsbD_not, BitVec.getLsbD_shiftLeft,
    BitVec.getLsbD_setWidth, ones, hz, decide_true, Bool.true_and]
  by_cases h : z / 8 = j
  · have h1 : ¬ z < 8 * j := by omega
    have h2 : z - 8 * j = z % 8 := by omega
    have h3 : z % 8 < 8 := by omega
    have h4 : z % 8 < 64 := by omega
    simp [h, h1, h2, h3, h4]
  · by_cases h1 : z < 8 * j
    · simp [h, h1]
    · have h2 : 8 ≤ z - 8 * j := by omega
      have h3 : ¬ z - 8 * j < 8 := by omega
      simp [h, h1, BitVec.getLsbD_of_ge b _ h2, h3]

/-- Reading the byte just put. -/
@[simp] theorem wordByte_putByte_same (w : Word) (j : Nat) (b : Byte) (hj : j < 8) :
    wordByte (putByte w j b) j = b := by
  apply BitVec.eq_of_getLsbD_eq
  intro i hi
  rw [getLsbD_wordByte, getLsbD_putByte _ _ _ _ (by omega)]
  have h1 : (8 * j + i) / 8 = j := by omega
  have h2 : (8 * j + i) % 8 = i := by omega
  simp [h1, h2, hi]

/-- Every other byte stays. -/
theorem wordByte_putByte_other (w : Word) (j k : Nat) (b : Byte) (hk : k < 8) (h : k ≠ j) :
    wordByte (putByte w j b) k = wordByte w k := by
  apply BitVec.eq_of_getLsbD_eq
  intro i hi
  rw [getLsbD_wordByte, getLsbD_wordByte, getLsbD_putByte _ _ _ _ (by omega)]
  have h1 : (8 * k + i) / 8 ≠ j := by omega
  simp [h1]

/-- Two words with the same eight bytes are equal (10_state.md R23). -/
theorem word_ext_bytes {v w : Word} (h : ∀ j < 8, wordByte v j = wordByte w j) : v = w := by
  apply BitVec.eq_of_getLsbD_eq
  intro z hz
  have hb : (wordByte v (z / 8)).getLsbD (z % 8) = (wordByte w (z / 8)).getLsbD (z % 8) := by
    rw [h _ (by omega)]
  have h1 : 8 * (z / 8) + z % 8 = z := by omega
  have h2 : z % 8 < 8 := by omega
  simpa only [getLsbD_wordByte, h1, h2, decide_true, Bool.true_and] using hb

/-! ## Packed words -/

/-- Byte j of packed bytes is the j-th of them, and 0 past the last (42_sponge.md R166). -/
theorem wordByte_packBytes (bs : List Byte) (j : Nat) (hj : j < 8) :
    wordByte (packBytes bs) j = bs.getD j 0#8 := by
  induction bs generalizing j with
  | nil =>
    apply BitVec.eq_of_getLsbD_eq
    intro i hi
    simp [packBytes]
  | cons b bs ih =>
    apply BitVec.eq_of_getLsbD_eq
    intro i hi
    rw [getLsbD_wordByte, packBytes, BitVec.getLsbD_or, BitVec.getLsbD_shiftLeft, BitVec.getLsbD_setWidth]
    cases j with
    | zero =>
      have h1 : i < 64 := by omega
      simp [hi, h1]
    | succ j =>
      have hb := congrArg (fun c => c.getLsbD i) (ih j (by omega))
      have h1 : ¬ 8 * (j + 1) + i < 8 := by omega
      have h2 : 8 * (j + 1) + i - 8 = 8 * j + i := by omega
      have h3 : 8 * (j + 1) + i < 64 := by omega
      have h4 : b.getLsbD (8 * (j + 1) + i) = false := BitVec.getLsbD_of_ge _ _ (by omega)
      simp only [getLsbD_wordByte, hi, decide_true, Bool.true_and] at hb
      simp only [h1, h2, h3, h4, hi, hb, decide_true, decide_false, Bool.not_false, Bool.true_and, Bool.and_false,
        Bool.or_false, List.getD_cons_succ]

/-- The low bytes of packed bytes are those bytes. -/
theorem lowBytes_packBytes (bs : List Byte) (h : bs.length ≤ 8) : lowBytes (packBytes bs) bs.length = bs := by
  apply List.ext_getElem
  · simp [lowBytes]
  · intro n h1 h2
    have hn : n < 8 := by omega
    simp [lowBytes, wordByte_packBytes _ _ hn, h2]

@[simp] theorem length_lowBytes (w : Word) (n : Nat) : (lowBytes w n).length = n := by simp [lowBytes]

/-- Bit z of the expanded mask is bit `z / 8` of MASK (30_encoding.md R88). -/
theorem getLsbD_expandMask (mask : BitVec 8) (z : Nat) (hz : z < 64) :
    (expandMask mask).getLsbD z = mask.getLsbD (z / 8) := by
  have hb := wordByte_packBytes ((List.range 8).map fun j => if mask.getLsbD j then 0xFF#8 else 0x00#8) (z / 8)
    (by omega)
  have hbit := congrArg (fun c => c.getLsbD (z % 8)) hb
  have h1 : 8 * (z / 8) + z % 8 = z := by omega
  have h2 : z / 8 < 8 := by omega
  have h3 : z % 8 < 8 := by omega
  have ones : ∀ n < 8, (0xFF#8).getLsbD n = true := by decide
  simp only [getLsbD_wordByte, h1, h3, decide_true, Bool.true_and] at hbit
  rw [expandMask, hbit]
  rw [List.getD_eq_getElem _ _ (by simpa using h2), List.getElem_map, List.getElem_range]
  cases hm : mask.getLsbD (z / 8) <;> simp [ones _ h3]

/-! ## Operand checks -/

/-- A coordinate is legal exactly when it is at most 4 (30_encoding.md R88). -/
theorem coordinate_eq_some (v : BitVec 3) (h : v.toNat < 5) : coordinate v = some ⟨v.toNat, h⟩ := by
  simp [coordinate, h]

theorem coordinate_eq_none (v : BitVec 3) (h : 4 < v.toNat) : coordinate v = none := by
  have : ¬ v.toNat < 5 := by omega
  simp [coordinate, this]

/-- A round index is legal exactly when it is at most 23 (30_encoding.md R85). -/
theorem roundIndex_eq_some (ir : BitVec 5) (h : ir.toNat < 24) : roundIndex ir = some ir.toNat := by
  simp [roundIndex, h]

theorem roundIndex_eq_none (ir : BitVec 5) (h : 23 < ir.toNat) : roundIndex ir = none := by
  have : ¬ ir.toNat < 24 := by omega
  simp [roundIndex, this]

/-- The byte count is 1 to 8 (30_encoding.md R86). -/
theorem byteCount_bounds (cnt : BitVec 3) : 1 ≤ byteCount cnt ∧ byteCount cnt ≤ 8 := by
  have := cnt.isLt
  simp [byteCount]
  omega

end Sys2Proof.Machine
end

