-- ==== Sys2Proof/Laws/Lanes.lean ====
section
/-!
SUPPORT. The laws of the state array's views: reading a lane of a tabulated or updated array, reading a byte after a
write to the same or another byte, extensionality in both views (10_state.md R22 to R24), and the lanes of the step
mappings.
-/

namespace Sys2Proof.Machine

/-! ## Lanes -/

theorem laneIndex_surj (i : Fin 25) : laneIndex ⟨i.val % 5, by omega⟩ ⟨i.val / 5, by omega⟩ = i := by
  apply Fin.ext
  simp [laneIndex]
  omega

theorem laneIndex_inj {x y x' y' : Fin 5} (h : laneIndex x y = laneIndex x' y') : x = x' ∧ y = y' := by
  have h' := congrArg Fin.val h
  simp only [laneIndex] at h'
  omega

@[simp] theorem laneAt_tabulate (f : Fin 5 → Fin 5 → Lane) (x y : Fin 5) : laneAt (tabulate f) x y = f x y := by
  have hx : (5 * y.val + x.val) % 5 = x.val := by omega
  have hy : (5 * y.val + x.val) / 5 = y.val := by omega
  simp [laneAt, tabulate, laneIndex, hx, hy]

@[simp] theorem laneAt_setLane_same (A : StateArray) (x y : Fin 5) (v : Lane) : laneAt (setLane A x y v) x y = v := by
  simp [laneAt, setLane]

theorem laneAt_setLane_other (A : StateArray) (x y x' y' : Fin 5) (v : Lane) (h : ¬ (x' = x ∧ y' = y)) :
    laneAt (setLane A x y v) x' y' = laneAt A x' y' := by
  have hne : (laneIndex x y).val ≠ (laneIndex x' y').val := by
    intro he
    exact h ⟨(laneIndex_inj (Fin.ext he)).1.symm, (laneIndex_inj (Fin.ext he)).2.symm⟩
  simp only [laneAt, setLane, Fin.getElem_fin]
  exact Vector.getElem_set_ne _ _ hne

@[simp] theorem laneAt_zeroArray (x y : Fin 5) : laneAt zeroArray x y = 0#64 := by
  simp [laneAt, zeroArray]

/-- Two arrays with the same 25 lanes are equal (10_state.md R20). -/
theorem array_ext_lanes {A B : StateArray} (h : ∀ x y, laneAt A x y = laneAt B x y) : A = B := by
  apply Vector.ext
  intro i hi
  have hl := h ⟨i % 5, by omega⟩ ⟨i / 5, by omega⟩
  have hidx := laneIndex_surj ⟨i, hi⟩
  simp only [laneAt, hidx] at hl
  simpa using hl

/-- Two arrays with the same 1600 bits are equal. -/
theorem array_ext_bits {A B : StateArray} (h : ∀ x y, ∀ z < 64, bitAt A x y z = bitAt B x y z) : A = B :=
  array_ext_lanes fun x y => BitVec.eq_of_getLsbD_eq fun z hz => h x y z hz

/-! ## Bytes -/

theorem memRead_eq (A : StateArray) (k : Nat) (h : k < 200) :
    memRead A k = wordByte (A[k / 8]'(by omega)) (k % 8) := by
  have : k / 8 < 25 := by omega
  simp [memRead, this]

theorem memWrite_eq (A : StateArray) (k : Nat) (v : Byte) (h : k < 200) :
    memWrite A k v = A.set (k / 8) (putByte (A[k / 8]'(by omega)) (k % 8) v) (by omega) := by
  have : k / 8 < 25 := by omega
  simp [memWrite, this]

@[simp] theorem memRead_memWrite_same (A : StateArray) (k : Nat) (v : Byte) (h : k < 200) :
    memRead (memWrite A k v) k = v := by
  rw [memRead_eq _ _ h, memWrite_eq _ _ _ h]
  simp [wordByte_putByte_same _ _ _ (Nat.mod_lt k (by decide : 8 > 0))]

theorem memRead_memWrite_other (A : StateArray) (j k : Nat) (v : Byte) (hj : j < 200) (hk : k < 200) (h : k ≠ j) :
    memRead (memWrite A j v) k = memRead A k := by
  rw [memRead_eq _ _ hk, memRead_eq _ _ hk, memWrite_eq _ _ _ hj]
  by_cases hd : j / 8 = k / 8
  · have hm : k % 8 ≠ j % 8 := by omega
    simp [hd, wordByte_putByte_other _ _ _ _ (Nat.mod_lt k (by decide : 8 > 0)) hm]
  · simp [hd]

/-- XorByte changes the one byte it names (42_sponge.md R162). -/
theorem memRead_xorByte (A : StateArray) (j k : Nat) (v : Byte) (hj : j < 200) (hk : k < 200) :
    memRead (xorByte A j v) k = if k = j then memRead A k ^^^ v else memRead A k := by
  by_cases h : k = j
  · subst h
    simp [xorByte, hk]
  · simp [xorByte, memRead_memWrite_other _ _ _ _ hj hk h, h]

/-- Two arrays with the same 200 bytes are equal (10_state.md R24). -/
theorem array_ext_bytes {A B : StateArray} (h : ∀ k < 200, memRead A k = memRead B k) : A = B := by
  apply Vector.ext
  intro i hi
  apply word_ext_bytes
  intro j hj
  have hk := h (8 * i + j) (by omega)
  have h1 : (8 * i + j) / 8 = i := by omega
  have h2 : (8 * i + j) % 8 = j := by omega
  rw [memRead_eq _ _ (by omega), memRead_eq _ _ (by omega)] at hk
  simpa [h1, h2] using hk

/-! ## Lanes of the step mappings -/

@[simp] theorem laneAt_theta (A : StateArray) (x y : Fin 5) : laneAt (theta A) x y = laneAt A x y ^^^ thetaD A x := by
  simp [theta]

@[simp] theorem laneAt_rho (A : StateArray) (x y : Fin 5) :
    laneAt (rho A) x y = rotl64 (laneAt A x y) (rhoOffset x y) := by
  simp [rho]

@[simp] theorem laneAt_pi (A : StateArray) (x y : Fin 5) : laneAt (pi A) x y = laneAt A (x + 3 * y) x := by
  simp [pi]

@[simp] theorem laneAt_chi (A : StateArray) (x y : Fin 5) :
    laneAt (chi A) x y = laneAt A x y ^^^ (~~~ laneAt A (x + 1) y &&& laneAt A (x + 2) y) := by
  simp [chi]

@[simp] theorem laneAt_iota_zero (A : StateArray) (ir : Nat) : laneAt (iota A ir) 0 0 = laneAt A 0 0 ^^^ RC ir := by
  simp [iota]

theorem laneAt_iota_other (A : StateArray) (ir : Nat) (x y : Fin 5) (h : ¬ (x = 0 ∧ y = 0)) :
    laneAt (iota A ir) x y = laneAt A x y := by
  rw [iota, laneAt_setLane_other _ _ _ _ _ _ h]

end Sys2Proof.Machine
end

