-- ==== Sys2Proof/Laws/State.lean ====
section
/-!
SUPPORT. One lemma per field per update of State, so that no later proof unfolds a record update.
-/

namespace Sys2Proof.Machine

/-! ## mapArray, mapLane -/

@[simp] theorem mapArray_A (f) (s : State) : (mapArray f s).A = f s.A := rfl
@[simp] theorem mapArray_data (f) (s : State) : (mapArray f s).data = s.data := rfl
@[simp] theorem mapArray_result (f) (s : State) : (mapArray f s).result = s.result := rfl
@[simp] theorem mapArray_rate (f) (s : State) : (mapArray f s).rate = s.rate := rfl
@[simp] theorem mapArray_pos (f) (s : State) : (mapArray f s).pos = s.pos := rfl
@[simp] theorem mapArray_err (f) (s : State) : (mapArray f s).err = s.err := rfl
@[simp] theorem mapArray_errCode (f) (s : State) : (mapArray f s).errCode = s.errCode := rfl
@[simp] theorem mapArray_pend (f) (s : State) : (mapArray f s).pend = s.pend := rfl
@[simp] theorem mapArray_rejected (f) (s : State) : (mapArray f s).rejected = s.rejected := rfl
@[simp] theorem mapArray_moves (f) (s : State) : (mapArray f s).moves = s.moves := rfl
@[simp] theorem mapArray_replies (f) (s : State) : (mapArray f s).replies = s.replies := rfl
@[simp] theorem mapArray_draws (f) (s : State) : (mapArray f s).draws = s.draws := rfl

@[simp] theorem mapLane_A (x y f) (s : State) :
    (mapLane x y f s).A = setLane s.A x y (f (laneAt s.A x y)) := rfl
@[simp] theorem mapLane_data (x y f) (s : State) : (mapLane x y f s).data = s.data := rfl
@[simp] theorem mapLane_result (x y f) (s : State) : (mapLane x y f s).result = s.result := rfl
@[simp] theorem mapLane_rate (x y f) (s : State) : (mapLane x y f s).rate = s.rate := rfl
@[simp] theorem mapLane_pos (x y f) (s : State) : (mapLane x y f s).pos = s.pos := rfl
@[simp] theorem mapLane_err (x y f) (s : State) : (mapLane x y f s).err = s.err := rfl
@[simp] theorem mapLane_errCode (x y f) (s : State) : (mapLane x y f s).errCode = s.errCode := rfl
@[simp] theorem mapLane_pend (x y f) (s : State) : (mapLane x y f s).pend = s.pend := rfl
@[simp] theorem mapLane_rejected (x y f) (s : State) : (mapLane x y f s).rejected = s.rejected := rfl
@[simp] theorem mapLane_moves (x y f) (s : State) : (mapLane x y f s).moves = s.moves := rfl
@[simp] theorem mapLane_replies (x y f) (s : State) : (mapLane x y f s).replies = s.replies := rfl
@[simp] theorem mapLane_draws (x y f) (s : State) : (mapLane x y f s).draws = s.draws := rfl

/-! ## complete, clearError, resetEvent -/

@[simp] theorem complete_A (s : State) : (complete s).A = s.A := rfl
@[simp] theorem complete_data (s : State) : (complete s).data = s.data := rfl
@[simp] theorem complete_result (s : State) : (complete s).result = s.result := rfl
@[simp] theorem complete_rate (s : State) : (complete s).rate = s.rate := rfl
@[simp] theorem complete_pos (s : State) : (complete s).pos = s.pos := rfl
@[simp] theorem complete_err (s : State) : (complete s).err = s.err := rfl
@[simp] theorem complete_errCode (s : State) : (complete s).errCode = s.errCode := rfl
@[simp] theorem complete_valid (s : State) : (complete s).pend.valid = false := rfl
@[simp] theorem complete_word (s : State) : (complete s).pend.word = s.pend.word := rfl
@[simp] theorem complete_latched (s : State) : (complete s).pend.data = s.pend.data := rfl
@[simp] theorem complete_rejected (s : State) : (complete s).rejected = s.rejected := rfl
@[simp] theorem complete_moves (s : State) : (complete s).moves = s.moves := rfl
@[simp] theorem complete_replies (s : State) : (complete s).replies = s.replies := rfl
@[simp] theorem complete_draws (s : State) : (complete s).draws = s.draws := rfl

@[simp] theorem clearError_A (s : State) : (clearError s).A = s.A := rfl
@[simp] theorem clearError_data (s : State) : (clearError s).data = s.data := rfl
@[simp] theorem clearError_result (s : State) : (clearError s).result = s.result := rfl
@[simp] theorem clearError_rate (s : State) : (clearError s).rate = s.rate := rfl
@[simp] theorem clearError_pos (s : State) : (clearError s).pos = s.pos := rfl
@[simp] theorem clearError_err (s : State) : (clearError s).err = false := rfl
@[simp] theorem clearError_errCode (s : State) : (clearError s).errCode = 0#4 := rfl
@[simp] theorem clearError_pend (s : State) : (clearError s).pend = s.pend := rfl
@[simp] theorem clearError_rejected (s : State) : (clearError s).rejected = s.rejected := rfl
@[simp] theorem clearError_moves (s : State) : (clearError s).moves = s.moves := rfl
@[simp] theorem clearError_replies (s : State) : (clearError s).replies = s.replies := rfl
@[simp] theorem clearError_draws (s : State) : (clearError s).draws = s.draws := rfl

@[simp] theorem resetEvent_A (s : State) : (resetEvent s).A = State.reset.A := rfl
@[simp] theorem resetEvent_data (s : State) : (resetEvent s).data = 0#64 := rfl
@[simp] theorem resetEvent_result (s : State) : (resetEvent s).result = 0#64 := rfl
@[simp] theorem resetEvent_rate (s : State) : (resetEvent s).rate = 0#8 := rfl
@[simp] theorem resetEvent_pos (s : State) : (resetEvent s).pos = 0#8 := rfl
@[simp] theorem resetEvent_err (s : State) : (resetEvent s).err = false := rfl
@[simp] theorem resetEvent_errCode (s : State) : (resetEvent s).errCode = 0#4 := rfl
@[simp] theorem resetEvent_pend (s : State) : (resetEvent s).pend = State.reset.pend := rfl
@[simp] theorem resetEvent_rejected (s : State) : (resetEvent s).rejected = s.rejected := rfl
@[simp] theorem resetEvent_moves (s : State) : (resetEvent s).moves = s.moves := rfl
@[simp] theorem resetEvent_replies (s : State) : (resetEvent s).replies = s.replies := rfl
@[simp] theorem resetEvent_draws (s : State) : (resetEvent s).draws = s.draws := rfl

/-! ## raiseCmdError (60_exceptions.md R201) -/

section Raise

variable (e : CmdErr) (s : State)

@[simp] theorem raiseCmdError_A : (raiseCmdError e s).A = s.A := by unfold raiseCmdError; split <;> rfl
@[simp] theorem raiseCmdError_data : (raiseCmdError e s).data = s.data := by unfold raiseCmdError; split <;> rfl
@[simp] theorem raiseCmdError_result : (raiseCmdError e s).result = s.result := by unfold raiseCmdError; split <;> rfl
@[simp] theorem raiseCmdError_rate : (raiseCmdError e s).rate = s.rate := by unfold raiseCmdError; split <;> rfl
@[simp] theorem raiseCmdError_pos : (raiseCmdError e s).pos = s.pos := by unfold raiseCmdError; split <;> rfl
@[simp] theorem raiseCmdError_pend : (raiseCmdError e s).pend = s.pend := by unfold raiseCmdError; split <;> rfl
@[simp] theorem raiseCmdError_moves : (raiseCmdError e s).moves = s.moves := by unfold raiseCmdError; split <;> rfl
@[simp] theorem raiseCmdError_replies : (raiseCmdError e s).replies = s.replies := by
  unfold raiseCmdError; split <;> rfl
@[simp] theorem raiseCmdError_draws : (raiseCmdError e s).draws = s.draws := by unfold raiseCmdError; split <;> rfl

/-- After a rejection ERR is 1. -/
@[simp] theorem raiseCmdError_err : (raiseCmdError e s).err = true := by
  unfold raiseCmdError; split <;> simp_all

/-- The first error since the last clear is kept. -/
@[simp] theorem raiseCmdError_errCode :
    (raiseCmdError e s).errCode = if s.err = true then s.errCode else e.code := by
  unfold raiseCmdError; split <;> rfl

@[simp] theorem raiseCmdError_rejected :
    (raiseCmdError e s).rejected = if s.err = true then s.rejected else true := by
  unfold raiseCmdError; split <;> rfl

end Raise

/-! ## The sponge's updates -/

section Sponge

variable (s : State) (b pb : Byte)

@[simp] theorem nextBlock_data : (nextBlock s).data = s.data := by unfold nextBlock; split <;> rfl
@[simp] theorem nextBlock_result : (nextBlock s).result = s.result := by unfold nextBlock; split <;> rfl
@[simp] theorem nextBlock_rate : (nextBlock s).rate = s.rate := by unfold nextBlock; split <;> rfl
@[simp] theorem nextBlock_err : (nextBlock s).err = s.err := by unfold nextBlock; split <;> rfl
@[simp] theorem nextBlock_errCode : (nextBlock s).errCode = s.errCode := by unfold nextBlock; split <;> rfl
@[simp] theorem nextBlock_pend : (nextBlock s).pend = s.pend := by unfold nextBlock; split <;> rfl
@[simp] theorem nextBlock_rejected : (nextBlock s).rejected = s.rejected := by unfold nextBlock; split <;> rfl
@[simp] theorem nextBlock_moves : (nextBlock s).moves = s.moves := by unfold nextBlock; split <;> rfl
@[simp] theorem nextBlock_replies : (nextBlock s).replies = s.replies := by unfold nextBlock; split <;> rfl
@[simp] theorem nextBlock_draws : (nextBlock s).draws = s.draws := by unfold nextBlock; split <;> rfl

/-- NEXT()'s array and position (42_sponge.md R161). -/
theorem nextBlock_A : (nextBlock s).A = if s.pos = s.rate then keccakP s.A else s.A := by
  unfold nextBlock; split <;> rfl
theorem nextBlock_pos : (nextBlock s).pos = if s.pos = s.rate then 0#8 else s.pos := by
  unfold nextBlock; split <;> rfl

@[simp] theorem absorbByte_A : (absorbByte s b).A = xorByte (nextBlock s).A (nextBlock s).pos.toNat b := rfl
@[simp] theorem absorbByte_pos : (absorbByte s b).pos = (nextBlock s).pos + 1#8 := rfl
@[simp] theorem absorbByte_data : (absorbByte s b).data = s.data := by simp [absorbByte]
@[simp] theorem absorbByte_result : (absorbByte s b).result = s.result := by simp [absorbByte]
@[simp] theorem absorbByte_rate : (absorbByte s b).rate = s.rate := by simp [absorbByte]
@[simp] theorem absorbByte_err : (absorbByte s b).err = s.err := by simp [absorbByte]
@[simp] theorem absorbByte_errCode : (absorbByte s b).errCode = s.errCode := by simp [absorbByte]
@[simp] theorem absorbByte_pend : (absorbByte s b).pend = s.pend := by simp [absorbByte]
@[simp] theorem absorbByte_rejected : (absorbByte s b).rejected = s.rejected := by simp [absorbByte]
@[simp] theorem absorbByte_moves : (absorbByte s b).moves = s.moves := by simp [absorbByte]
@[simp] theorem absorbByte_replies : (absorbByte s b).replies = s.replies := by simp [absorbByte]
@[simp] theorem absorbByte_draws : (absorbByte s b).draws = s.draws := by simp [absorbByte]

@[simp] theorem squeezeByte_A : (squeezeByte s).A = (nextBlock s).A := rfl
@[simp] theorem squeezeByte_pos : (squeezeByte s).pos = (nextBlock s).pos + 1#8 := rfl
@[simp] theorem squeezeByte_data : (squeezeByte s).data = s.data := by simp [squeezeByte]
@[simp] theorem squeezeByte_result : (squeezeByte s).result = s.result := by simp [squeezeByte]
@[simp] theorem squeezeByte_rate : (squeezeByte s).rate = s.rate := by simp [squeezeByte]
@[simp] theorem squeezeByte_err : (squeezeByte s).err = s.err := by simp [squeezeByte]
@[simp] theorem squeezeByte_errCode : (squeezeByte s).errCode = s.errCode := by simp [squeezeByte]
@[simp] theorem squeezeByte_pend : (squeezeByte s).pend = s.pend := by simp [squeezeByte]
@[simp] theorem squeezeByte_rejected : (squeezeByte s).rejected = s.rejected := by simp [squeezeByte]
@[simp] theorem squeezeByte_moves : (squeezeByte s).moves = s.moves := by simp [squeezeByte]
@[simp] theorem squeezeByte_replies : (squeezeByte s).replies = s.replies := by simp [squeezeByte]
@[simp] theorem squeezeByte_draws : (squeezeByte s).draws = s.draws := by simp [squeezeByte]

@[simp] theorem padBlock_pos : (padBlock pb s).pos = s.rate := by simp [padBlock]
@[simp] theorem padBlock_data : (padBlock pb s).data = s.data := by simp [padBlock]
@[simp] theorem padBlock_result : (padBlock pb s).result = s.result := by simp [padBlock]
@[simp] theorem padBlock_rate : (padBlock pb s).rate = s.rate := by simp [padBlock]
@[simp] theorem padBlock_err : (padBlock pb s).err = s.err := by simp [padBlock]
@[simp] theorem padBlock_errCode : (padBlock pb s).errCode = s.errCode := by simp [padBlock]
@[simp] theorem padBlock_pend : (padBlock pb s).pend = s.pend := by simp [padBlock]
@[simp] theorem padBlock_rejected : (padBlock pb s).rejected = s.rejected := by simp [padBlock]
@[simp] theorem padBlock_moves : (padBlock pb s).moves = s.moves := by simp [padBlock]
@[simp] theorem padBlock_replies : (padBlock pb s).replies = s.replies := by simp [padBlock]
@[simp] theorem padBlock_draws : (padBlock pb s).draws = s.draws := by simp [padBlock]

end Sponge

end Sys2Proof.Machine
end

