-- ==== Sys2Proof/Laws/Ops.lean ====
section
/-!
SUPPORT. One lemma per shared operation that says once everything it can do: the operand checks, the sponge's byte
accesses and their loops, and the engine's completion.
-/

namespace Sys2Proof.Machine

/-! ## Operand checks -/

theorem withLane_legal {x y : BitVec 3} (hx : x.toNat < 5) (hy : y.toNat < 5) (s : State)
    (k : Fin 5 → Fin 5 → Result) : withLane x y s k = k ⟨x.toNat, hx⟩ ⟨y.toNat, hy⟩ := by
  simp [withLane, coordinate_eq_some, hx, hy]

theorem withLane_illegal {x y : BitVec 3} (h : 4 < x.toNat ∨ 4 < y.toNat) (s : State) (k : Fin 5 → Fin 5 → Result) :
    withLane x y s k = .next (raiseCmdError .badLane s) := by
  unfold withLane
  rcases h with h | h
  · simp [coordinate_eq_none x h]
  · rw [coordinate_eq_none y h]
    split <;> simp_all

/-- What a lane operand can lead to: the continuation on legal coordinates, or the BAD_LANE rejection. -/
theorem withLane_cases (x y : BitVec 3) (s : State) (k : Fin 5 → Fin 5 → Result) :
    (∃ hx : x.toNat < 5, ∃ hy : y.toNat < 5, withLane x y s k = k ⟨x.toNat, hx⟩ ⟨y.toNat, hy⟩) ∨
      ((4 < x.toNat ∨ 4 < y.toNat) ∧ withLane x y s k = .next (raiseCmdError .badLane s)) := by
  by_cases hx : x.toNat < 5
  · by_cases hy : y.toNat < 5
    · exact .inl ⟨hx, hy, withLane_legal hx hy s k⟩
    · exact .inr ⟨.inr (by omega), withLane_illegal (.inr (by omega)) s k⟩
  · exact .inr ⟨.inl (by omega), withLane_illegal (.inl (by omega)) s k⟩

theorem withRound_legal {ir : BitVec 5} (h : ir.toNat < 24) (s : State) (k : Nat → Result) :
    withRound ir s k = k ir.toNat := by
  simp [withRound, roundIndex_eq_some, h]

theorem withRound_illegal {ir : BitVec 5} (h : 23 < ir.toNat) (s : State) (k : Nat → Result) :
    withRound ir s k = .next (raiseCmdError .badRound s) := by
  simp [withRound, roundIndex_eq_none, h]

/-- What a round operand can lead to: the continuation on a legal index, or the BAD_ROUND rejection. -/
theorem withRound_cases (ir : BitVec 5) (s : State) (k : Nat → Result) :
    (ir.toNat < 24 ∧ withRound ir s k = k ir.toNat) ∨
      (23 < ir.toNat ∧ withRound ir s k = .next (raiseCmdError .badRound s)) := by
  by_cases h : ir.toNat < 24
  · exact .inl ⟨h, withRound_legal h s k⟩
  · exact .inr ⟨by omega, withRound_illegal (by omega) s k⟩

theorem withSuffix_legal {slen : BitVec 3} {suf : BitVec 6} (h : suffixLegal slen suf = true) (s : State) (k : Result) :
    withSuffix slen suf s k = k := by
  simp [withSuffix, h]

theorem withSuffix_illegal {slen : BitVec 3} {suf : BitVec 6} (h : suffixLegal slen suf = false) (s : State)
    (k : Result) : withSuffix slen suf s k = .next (raiseCmdError .badSuffix s) := by
  simp [withSuffix, h]

theorem withRate_ready {s : State} (h : SpongeReady s) (k : Result) : withRate s k = k := by
  have h0 : s.rate ≠ 0#8 := by
    intro he
    have := h.1
    simp [he] at this
  simp [withRate, h0, spongeInRange, h.2.1, h.2.2]

theorem withRate_zero {s : State} (h : s.rate = 0#8) (k : Result) :
    withRate s k = .next (raiseCmdError .badRate s) := by
  simp [withRate, h]

theorem withRate_outside {s : State} (h0 : s.rate ≠ 0#8) (h : 200 < s.rate.toNat ∨ s.rate.toNat < s.pos.toNat)
    (k : Result) : withRate s k = .fault .spongeRange := by
  have : spongeInRange s = false := by
    simp [spongeInRange]
    omega
  simp [withRate, h0, this]

/-- What a sponge command's RATE check can lead to: the BAD_RATE rejection, the continuation, or the named fault of a
state that 10_state.md R36 rules out. -/
theorem withRate_cases (s : State) (k : Result) :
    (s.rate = 0#8 ∧ withRate s k = .next (raiseCmdError .badRate s)) ∨ (SpongeReady s ∧ withRate s k = k) ∨
      (s.rate ≠ 0#8 ∧ (200 < s.rate.toNat ∨ s.rate.toNat < s.pos.toNat) ∧ withRate s k = .fault .spongeRange) := by
  by_cases h0 : s.rate = 0#8
  · exact .inl ⟨h0, withRate_zero h0 k⟩
  · have h1 : 1 ≤ s.rate.toNat := by
      rcases Nat.eq_zero_or_pos s.rate.toNat with h | h
      · exact absurd (BitVec.eq_of_toNat_eq (by simpa using h)) h0
      · exact h
    by_cases h : s.rate.toNat ≤ 200 ∧ s.pos.toNat ≤ s.rate.toNat
    · exact .inr (.inl ⟨⟨h1, h⟩, withRate_ready ⟨h1, h⟩ k⟩)
    · exact .inr (.inr ⟨h0, by omega, withRate_outside h0 (by omega) k⟩)

/-! ## The sponge's byte accesses -/

/-- After NEXT() the position lies inside the block (42_sponge.md R161). -/
theorem nextBlock_pos_lt {s : State} (h : SpongeReady s) : (nextBlock s).pos.toNat < s.rate.toNat := by
  obtain ⟨h1, h2, h3⟩ := h
  rw [nextBlock_pos]
  split
  · simp; omega
  · rename_i hne
    have : s.pos.toNat ≠ s.rate.toNat := fun he => hne (BitVec.eq_of_toNat_eq he)
    omega

theorem nextBlock_ready {s : State} (h : SpongeReady s) : SpongeReady (nextBlock s) := by
  have := nextBlock_pos_lt h
  exact ⟨by simpa using h.1, by simpa using h.2.1, by simp; omega⟩

/-- The position after one byte access. -/
theorem nextBlock_pos_succ {s : State} (h : SpongeReady s) :
    ((nextBlock s).pos + 1#8).toNat = (nextBlock s).pos.toNat + 1 := by
  have h1 := nextBlock_pos_lt h
  have h2 := h.2.1
  rw [BitVec.toNat_add]
  simp
  omega

theorem absorbByte_ready {s : State} (h : SpongeReady s) (b : Byte) : SpongeReady (absorbByte s b) := by
  have h1 := nextBlock_pos_lt h
  have h2 := nextBlock_pos_succ h
  refine ⟨by simpa using h.1, by simpa using h.2.1, ?_⟩
  rw [absorbByte_pos, absorbByte_rate, h2]
  omega

theorem squeezeByte_ready {s : State} (h : SpongeReady s) : SpongeReady (squeezeByte s) := by
  have h1 := nextBlock_pos_lt h
  have h2 := nextBlock_pos_succ h
  refine ⟨by simpa using h.1, by simpa using h.2.1, ?_⟩
  rw [squeezeByte_pos, squeezeByte_rate, h2]
  omega

/-- The bytes of the array after one byte of ABSORB (42_sponge.md R163). -/
theorem memRead_absorbByte {s : State} (h : SpongeReady s) (b : Byte) (k : Nat) (hk : k < 200) :
    memRead (absorbByte s b).A k =
      if k = (nextBlock s).pos.toNat then memRead (nextBlock s).A k ^^^ b else memRead (nextBlock s).A k := by
  have h1 := nextBlock_pos_lt h
  have h2 := h.2.1
  rw [absorbByte_A, memRead_xorByte _ _ _ _ (by omega) hk]

@[simp] theorem absorbBytes_nil (s : State) : absorbBytes [] s = s := rfl
@[simp] theorem absorbBytes_cons (b : Byte) (bs : List Byte) (s : State) :
    absorbBytes (b :: bs) s = absorbBytes bs (absorbByte s b) := rfl
theorem absorbBytes_append (bs cs : List Byte) (s : State) :
    absorbBytes (bs ++ cs) s = absorbBytes cs (absorbBytes bs s) := by
  simp [absorbBytes, List.foldl_append]

/-- ABSORB's loop changes the array and POS only. -/
theorem absorbBytes_frame (bs : List Byte) (s : State) : sameButArrayPos s (absorbBytes bs s) := by
  induction bs generalizing s with
  | nil => simp [sameButArrayPos, sameButArrayResultPos, sameStatus, sameEnv]
  | cons b bs ih =>
    have := ih (absorbByte s b)
    simpa [sameButArrayPos, sameButArrayResultPos, sameStatus, sameEnv] using this

theorem absorbBytes_ready (bs : List Byte) {s : State} (h : SpongeReady s) : SpongeReady (absorbBytes bs s) := by
  induction bs generalizing s with
  | nil => exact h
  | cons b bs ih => exact ih (absorbByte_ready h b)

@[simp] theorem length_squeezeBytes (n : Nat) (s : State) : (squeezeBytes n s).1.length = n := by
  induction n generalizing s with
  | zero => rfl
  | succ n ih => simp [squeezeBytes, ih]

/-- SQUEEZE's loop changes the array (through NEXT) and POS only. -/
theorem squeezeBytes_frame (n : Nat) (s : State) : sameButArrayPos s (squeezeBytes n s).2 := by
  induction n generalizing s with
  | zero => simp [squeezeBytes, sameButArrayPos, sameButArrayResultPos, sameStatus, sameEnv]
  | succ n ih =>
    have := ih (squeezeByte s)
    simpa [squeezeBytes, sameButArrayPos, sameButArrayResultPos, sameStatus, sameEnv] using this

theorem squeezeBytes_ready (n : Nat) {s : State} (h : SpongeReady s) : SpongeReady (squeezeBytes n s).2 := by
  induction n generalizing s with
  | zero => exact h
  | succ n ih => exact ih (squeezeByte_ready h)

theorem squeezeBytes_add (m n : Nat) (s : State) :
    squeezeBytes (m + n) s =
      ((squeezeBytes m s).1 ++ (squeezeBytes n (squeezeBytes m s).2).1, (squeezeBytes n (squeezeBytes m s).2).2) := by
  induction m generalizing s with
  | zero => simp [squeezeBytes]
  | succ m ih =>
    rw [Nat.succ_add]
    simp [squeezeBytes, ih]

theorem padBlock_ready {s : State} (h : SpongeReady s) (pb : Byte) : SpongeReady (padBlock pb s) :=
  ⟨by simpa using h.1, by simpa using h.2.1, by simp⟩

/-! ## Completion -/

/-- What an engine step's completion can be. -/
theorem completed_next {r : Result} {t : State} (h : completed r = .next t) : ∃ u, r = .next u ∧ t = complete u := by
  cases r with
  | next u => exact ⟨u, rfl, by simpa [completed] using h.symm⟩
  | fault f => simp [completed] at h
  | refused f => simp [completed] at h

end Sys2Proof.Machine
end

