-- ==== Sys2Proof/Laws/Exec.lean ====
section
/-!
SUPPORT. What a command can do, said once: the inversion lemma of `exec`, the completion of every well-formed command, and
the engine step's cases.
-/

namespace Sys2Proof.Machine

/-- The state a completed command leaves: the frame every command keeps, and RATE and POS still in the block. -/
structure Completes (s t : State) : Prop where
  /-- DATA, RATE, STATUS, PEND, the ghost flag and the environment's side are unchanged. -/
  frame : sameButArrayResultPos s t
  /-- POS stays, is cleared, or lies in the block. -/
  pos_cases : t.pos = s.pos ∨ t.pos = 0#8 ∨ SpongeReady t

theorem sameButArrayResultPos_refl (s : State) : sameButArrayResultPos s s := by
  simp [sameButArrayResultPos, sameStatus, sameEnv]

theorem mapArray_completes (f) (s : State) : Completes s (mapArray f s) :=
  ⟨by simp [sameButArrayResultPos, sameStatus, sameEnv], .inl rfl⟩

theorem mapLane_completes (x y f) (s : State) : Completes s (mapLane x y f s) :=
  ⟨by simp [sameButArrayResultPos, sameStatus, sameEnv], .inl rfl⟩

theorem absorbBytes_completes (bs : List Byte) {s : State} (h : SpongeReady s) : Completes s (absorbBytes bs s) :=
  ⟨(absorbBytes_frame bs s).1, .inr (.inr (absorbBytes_ready bs h))⟩

theorem padBlock_completes (pb : Byte) {s : State} (h : SpongeReady s) : Completes s (padBlock pb s) :=
  ⟨by simp [sameButArrayResultPos, sameStatus, sameEnv], .inr (.inr (padBlock_ready h pb))⟩

theorem squeezeBytes_completes (n : Nat) (v : Word) {s : State} (h : SpongeReady s) :
    Completes s { (squeezeBytes n s).2 with result := v } :=
  ⟨(squeezeBytes_frame n s).1, .inr (.inr (squeezeBytes_ready n h))⟩

/-- What a command can do, in every state: it is rejected for its operands or for RATE = 0, it completes, or it is a
sponge command in a state that 10_state.md R36 rules out and stops by name. -/
theorem exec_cases (i : Instr) (s : State) :
    (∃ e, exec i s = .next (raiseCmdError e s)) ∨ (∃ t, exec i s = .next t ∧ Completes s t) ∨
      (exec i s = .fault .spongeRange ∧ i.isSponge = true ∧ s.rate ≠ 0#8 ∧
        (200 < s.rate.toNat ∨ s.rate.toNat < s.pos.toNat)) := by
  have lane : ∀ (x y : BitVec 3) (f : Fin 5 → Fin 5 → Lane → Lane),
      (∃ e, withLane x y s (fun x y => .next (mapLane x y (f x y) s)) = .next (raiseCmdError e s)) ∨
      ∃ t, withLane x y s (fun x y => .next (mapLane x y (f x y) s)) = .next t ∧ Completes s t := by
    intro x y f
    rcases withLane_cases x y s (fun x y => .next (mapLane x y (f x y) s)) with ⟨hx, hy, h⟩ | ⟨-, h⟩
    · exact .inr ⟨_, h, mapLane_completes _ _ _ s⟩
    · exact .inl ⟨_, h⟩
  have rate : ∀ (k : Result) (P : Prop), (SpongeReady s → ∃ t, k = .next t ∧ Completes s t) → P →
      (∃ e, withRate s k = .next (raiseCmdError e s)) ∨ (∃ t, withRate s k = .next t ∧ Completes s t) ∨
      (withRate s k = .fault .spongeRange ∧ P ∧ s.rate ≠ 0#8 ∧
        (200 < s.rate.toNat ∨ s.rate.toNat < s.pos.toNat)) := by
    intro k P hk hP
    rcases withRate_cases s k with ⟨-, h⟩ | ⟨hr, h⟩ | ⟨h0, ho, h⟩
    · exact .inl ⟨_, h⟩
    · obtain ⟨t, ht, hc⟩ := hk hr
      exact .inr (.inl ⟨t, by rw [h, ht], hc⟩)
    · exact .inr (.inr ⟨h, hP, h0, ho⟩)
  cases i with
  | init => exact .inr (.inl ⟨_, rfl, by simp [sameButArrayResultPos, sameStatus, sameEnv], .inr (.inl rfl)⟩)
  | xorl x y mask =>
    exact (lane x y fun _ _ L => L ^^^ (s.pend.data &&& expandMask mask)).imp id .inl
  | wrl x y mask =>
    exact (lane x y fun _ _ L => (L &&& ~~~ expandMask mask) ||| (s.pend.data &&& expandMask mask)).imp id .inl
  | rotl x y amt => exact (lane x y fun _ _ L => rotl64 L (rotateAmount amt)).imp id .inl
  | rotr x y amt => exact (lane x y fun _ _ L => rotr64 L (rotateAmount amt)).imp id .inl
  | theta => exact .inr (.inl ⟨_, rfl, mapArray_completes _ s⟩)
  | rho => exact .inr (.inl ⟨_, rfl, mapArray_completes _ s⟩)
  | pi => exact .inr (.inl ⟨_, rfl, mapArray_completes _ s⟩)
  | chi => exact .inr (.inl ⟨_, rfl, mapArray_completes _ s⟩)
  | iota ir =>
    rcases withRound_cases ir s (fun n => .next (mapArray (iota · n) s)) with ⟨-, h⟩ | ⟨-, h⟩
    · exact .inr (.inl ⟨_, h, mapArray_completes _ s⟩)
    · exact .inl ⟨_, h⟩
  | round ir =>
    rcases withRound_cases ir s (fun n => .next (mapArray (rnd · n) s)) with ⟨-, h⟩ | ⟨-, h⟩
    · exact .inr (.inl ⟨_, h, mapArray_completes _ s⟩)
    · exact .inl ⟨_, h⟩
  | permute => exact .inr (.inl ⟨_, rfl, mapArray_completes _ s⟩)
  | rcgen ir =>
    rcases withRound_cases ir s (fun n => .next { s with result := RC n }) with ⟨-, h⟩ | ⟨-, h⟩
    · exact .inr (.inl ⟨_, h, by simp [sameButArrayResultPos, sameStatus, sameEnv], .inl rfl⟩)
    · exact .inl ⟨_, h⟩
  | absorb cnt => exact rate _ _ (fun hr => ⟨_, rfl, absorbBytes_completes _ hr⟩) rfl
  | pad slen suf =>
    by_cases hs : suffixLegal slen suf = true
    · have := rate (.next (padBlock (padByte slen suf) s)) ((Instr.pad slen suf).isSponge = true)
        (fun hr => ⟨_, rfl, padBlock_completes _ hr⟩) rfl
      simpa [exec, execPad, withSuffix_legal hs] using this
    · exact .inl ⟨.badSuffix, withSuffix_illegal (by simpa using hs) s _⟩
  | squeeze cnt => exact rate _ _ (fun hr => ⟨_, rfl, squeezeBytes_completes _ _ hr⟩) rfl

/-- `suffixLegal` is the range of 30_encoding.md R92. -/
theorem suffixLegal_of_range {slen : BitVec 3} {suf : BitVec 6} (h : slen.toNat < 7) (h' : suf.toNat < 2 ^ slen.toNat) :
    suffixLegal slen suf = true := by
  have hz : suf >>> slen.toNat = 0#6 := by
    apply BitVec.eq_of_toNat_eq
    rw [BitVec.toNat_ushiftRight, Nat.shiftRight_eq_div_pow]
    simpa using Nat.div_eq_of_lt h'
  simp [suffixLegal, hz]
  omega

/-- Every well-formed command completes, a sponge command in the states of `SpongeReady`. -/
theorem exec_wellFormed {i : Instr} {s : State} (hw : i.WellFormed) (hr : i.isSponge = true → SpongeReady s) :
    ∃ t, exec i s = .next t ∧ Completes s t := by
  have lane : ∀ {x y : BitVec 3} (f : Fin 5 → Fin 5 → Lane → Lane), x.toNat < 5 → y.toNat < 5 →
      ∃ t, withLane x y s (fun x y => .next (mapLane x y (f x y) s)) = .next t ∧ Completes s t :=
    fun f hx hy => ⟨_, withLane_legal hx hy s _, mapLane_completes _ _ _ s⟩
  cases i with
  | init => exact ⟨_, rfl, by simp [sameButArrayResultPos, sameStatus, sameEnv], .inr (.inl rfl)⟩
  | xorl x y mask =>
    simp [Instr.WellFormed, Instr.wellFormed] at hw
    exact lane (fun _ _ L => L ^^^ (s.pend.data &&& expandMask mask)) hw.1 hw.2
  | wrl x y mask =>
    simp [Instr.WellFormed, Instr.wellFormed] at hw
    exact lane (fun _ _ L => (L &&& ~~~ expandMask mask) ||| (s.pend.data &&& expandMask mask)) hw.1 hw.2
  | rotl x y amt =>
    simp [Instr.WellFormed, Instr.wellFormed] at hw
    exact lane (fun _ _ L => rotl64 L (rotateAmount amt)) hw.1 hw.2
  | rotr x y amt =>
    simp [Instr.WellFormed, Instr.wellFormed] at hw
    exact lane (fun _ _ L => rotr64 L (rotateAmount amt)) hw.1 hw.2
  | theta => exact ⟨_, rfl, mapArray_completes _ s⟩
  | rho => exact ⟨_, rfl, mapArray_completes _ s⟩
  | pi => exact ⟨_, rfl, mapArray_completes _ s⟩
  | chi => exact ⟨_, rfl, mapArray_completes _ s⟩
  | iota ir => exact ⟨_, withRound_legal (by simpa [Instr.WellFormed, Instr.wellFormed] using hw) s _, mapArray_completes _ s⟩
  | round ir => exact ⟨_, withRound_legal (by simpa [Instr.WellFormed, Instr.wellFormed] using hw) s _, mapArray_completes _ s⟩
  | permute => exact ⟨_, rfl, mapArray_completes _ s⟩
  | rcgen ir =>
    exact ⟨_, withRound_legal (by simpa [Instr.WellFormed, Instr.wellFormed] using hw) s _,
      by simp [sameButArrayResultPos, sameStatus, sameEnv], .inl rfl⟩
  | absorb cnt => exact ⟨_, withRate_ready (hr rfl) _, absorbBytes_completes _ (hr rfl)⟩
  | pad slen suf =>
    simp [Instr.WellFormed, Instr.wellFormed] at hw
    exact ⟨_, (withSuffix_legal (suffixLegal_of_range hw.1 hw.2) s _).trans (withRate_ready (hr rfl) _),
      padBlock_completes _ (hr rfl)⟩
  | squeeze cnt => exact ⟨_, withRate_ready (hr rfl) _, squeezeBytes_completes _ _ (hr rfl)⟩

/-- ABSORB completes where RATE and POS are in range, and leaves them so (42_sponge.md R163). -/
theorem exec_absorb_ready (cnt : BitVec 3) {s : State} (h : SpongeReady s) :
    ∃ t, exec (.absorb cnt) s = .next t ∧ SpongeReady t :=
  ⟨_, withRate_ready h _, absorbBytes_ready _ h⟩

/-- SQUEEZE completes where RATE and POS are in range, and leaves them so (42_sponge.md R166). -/
theorem exec_squeeze_ready (cnt : BitVec 3) {s : State} (h : SpongeReady s) :
    ∃ t, exec (.squeeze cnt) s = .next t ∧ SpongeReady t :=
  ⟨_, withRate_ready h _, squeezeBytes_ready _ h⟩

/-! ## The engine step -/

/-- With nothing pending the engine does nothing (70_reset_and_hazards.md R242). -/
theorem engineStep_idle {s : State} (h : s.pend.valid = false) : engineStep s = .next s := by
  simp [engineStep, h]

/-- With a decodable word pending the engine step is that command's effect and its completion (20_memory.md R63). -/
theorem engineStep_pending {s : State} {i : Instr} (h : s.pend.valid = true) (hd : decode s.pend.word = .ok i) :
    engineStep s = completed (exec i s) := by
  simp [engineStep, h, hd]

/-- What an engine step can leave. -/
theorem engineStep_next {s t : State} (h : engineStep s = .next t) :
    (s.pend.valid = false ∧ t = s) ∨
      ∃ i u, s.pend.valid = true ∧ decode s.pend.word = .ok i ∧ exec i s = .next u ∧ t = complete u := by
  cases hv : s.pend.valid with
  | false =>
    rw [engineStep_idle hv] at h
    exact .inl ⟨rfl, by simpa using h.symm⟩
  | true =>
    cases hd : decode s.pend.word with
    | error e => simp [engineStep, hv, hd] at h
    | ok i =>
      rw [engineStep_pending hv hd] at h
      obtain ⟨u, hu, ht⟩ := completed_next h
      exact .inr ⟨i, u, rfl, rfl, hu, ht⟩

end Sys2Proof.Machine
end

