-- ==== Sys2Proof/Laws/HostProgram.lean ====
section
/-!
SUPPORT. What a host program's run can do (30_encoding.md R93): the POLL loop, CHECK, and whole lists of turns.
-/

namespace Sys2Proof.Machine

/-- Bit 0 of STATUS is BUSY (10_state.md R28, R33). -/
theorem statusWord_busy (s : State) : (statusWord s).getLsbD 0 = s.pend.valid := by
  unfold statusWord State.busy
  generalize s.errCode = c
  cases s.err <;> cases s.pend.valid <;> revert c <;> decide

/-- Bit 1 of STATUS is ERR (10_state.md R28). -/
theorem statusWord_err (s : State) : (statusWord s).getLsbD 1 = s.err := by
  unfold statusWord State.busy
  generalize s.errCode = c
  cases s.err <;> cases s.pend.valid <;> revert c <;> decide

theorem readable_status : readable .w64 offStatus = some .status := rfl

/-- A read of STATUS takes its value and changes nothing else (20_memory.md R59, R64). -/
theorem playMove_readStatus (s : State) :
    playMove (.host (.read .w64 offStatus)) s = .next { s with replies := .value (statusWord s) :: s.replies } := by
  simp only [playMove, step, hostStep, readable_status, readReg, PortReg.unspecifiedWhileBusy, Bool.and_false]
  rfl

/-- POLL goes on once STATUS reads BUSY = 0. -/
theorem pollDone_statusWord (s : State) : pollDone (statusWord s) = !s.pend.valid := by
  rw [pollDone, statusWord_busy]

/-- CHECK goes on where STATUS reads ERR = 0. -/
theorem checkPasses_statusWord (s : State) : checkPasses (statusWord s) = !s.err := by
  rw [checkPasses, statusWord_err]

/-- A pass of the POLL loop while a command is pending: the loop stays. -/
theorem turn_poll_busy {s : State} (h : s.pend.valid = true) (rest : List HostOp) :
    HostRun.turn { program := .poll :: rest, machine := s } .host =
      .next { program := .poll :: rest, machine := { s with replies := .value (statusWord s) :: s.replies } } := by
  simp [HostRun.turn, HostOp.access, playMove_readStatus, afterMove, HostOp.after, lastValue, pollDone_statusWord, h]

/-- A pass of the POLL loop with nothing pending: the loop ends. -/
theorem turn_poll_idle {s : State} (h : s.pend.valid = false) (rest : List HostOp) :
    HostRun.turn { program := .poll :: rest, machine := s } .host =
      .next { program := rest, machine := { s with replies := .value (statusWord s) :: s.replies } } := by
  simp [HostRun.turn, HostOp.access, playMove_readStatus, afterMove, HostOp.after, lastValue, pollDone_statusWord, h]

/-- CHECK with ERR = 0 goes on. -/
theorem turn_check_passes {s : State} (h : s.err = false) (rest : List HostOp) :
    HostRun.turn { program := .check :: rest, machine := s } .host =
      .next { program := rest, machine := { s with replies := .value (statusWord s) :: s.replies } } := by
  simp [HostRun.turn, HostOp.access, playMove_readStatus, afterMove, HostOp.after, lastValue, checkPasses_statusWord, h]

/-- CHECK with ERR = 1 faults the host program. -/
theorem turn_check_faults {s : State} (h : s.err = true) (rest : List HostOp) :
    HostRun.turn { program := .check :: rest, machine := s } .host = .fault .check := by
  simp [HostRun.turn, HostOp.access, playMove_readStatus, afterMove, HostOp.after, lastValue, checkPasses_statusWord, h]

/-- A run under two lists of turns, one after the other. -/
theorem run_append {r q : HostRun} {turns : List Turn} (h : r.run turns = .next q) (more : List Turn) :
    r.run (turns ++ more) = q.run more := by
  induction turns generalizing r with
  | nil => cases h; rfl
  | cons turn turns ih =>
    simp only [HostRun.run, List.cons_append] at h ⊢
    split at h
    · exact ih h
    · cases h
    · cases h

/-- Any number of passes of the POLL loop while a command is pending leave the loop, and the machine but for the
replies. -/
theorem run_poll_busy (n : Nat) {s : State} (h : s.pend.valid = true) (rest : List HostOp) :
    HostRun.run { program := .poll :: rest, machine := s } (List.replicate n .host) =
      .next { program := .poll :: rest
              machine := { s with replies := List.replicate n (.value (statusWord s)) ++ s.replies } } := by
  induction n generalizing s with
  | zero => rfl
  | succ n ih =>
    rw [List.replicate_succ, HostRun.run, turn_poll_busy h]
    refine (ih (s := { s with replies := .value (statusWord s) :: s.replies }) h).trans ?_
    rw [List.replicate_succ', List.append_assoc]
    rfl

end Sys2Proof.Machine
end

