-- ==== Sys2Proof/Laws/Port.lean ====
section
/-!
SUPPORT. What each access of the register port can do, said once: the cases of a CMD write, of a RATE write and of a
read, and which registers a legal access reaches.
-/

namespace Sys2Proof.Machine

/-- What a CMD write can do (60_exceptions.md R202): it is dropped, it is rejected, or it is accepted. -/
theorem issue_cases (W : Word) (s : State) :
    (s.err = true ∧ issue W s = s) ∨
      (s.err = false ∧ ∃ e, issue W s = raiseCmdError e s) ∨
      (s.err = false ∧ s.pend.valid = false ∧ ∃ i, decode W = .ok i ∧ (i.isSponge = true → s.rate ≠ 0#8) ∧
        issue W s = { s with pend := { valid := true, word := W, data := s.data } }) := by
  unfold issue
  cases he : s.err with
  | true => exact .inl (by simp)
  | false =>
    cases hv : s.pend.valid with
    | true => exact .inr (.inl ⟨rfl, .busy, by simp⟩)
    | false =>
      cases hd : decode W with
      | error e => exact .inr (.inl ⟨rfl, e, by simp⟩)
      | ok i =>
        by_cases hb : (i.isSponge && s.rate == 0#8) = true
        · exact .inr (.inl ⟨rfl, .badRate, by simp only [hb]; simp⟩)
        · refine .inr (.inr ⟨rfl, rfl, i, rfl, ?_, by simp only [hb]; simp⟩)
          intro hs h0
          simp [hs, h0] at hb

/-- What a RATE write can do (60_exceptions.md R206): it is dropped, it is rejected, or it sets RATE and clears POS. -/
theorem writeRate_cases (v : Word) (s : State) :
    (s.err = true ∧ writeRate v s = s) ∨
      (s.err = false ∧ ∃ e, writeRate v s = raiseCmdError e s) ∨
      (s.err = false ∧ s.pend.valid = false ∧ 1 ≤ v.toNat ∧ v.toNat ≤ 200 ∧
        writeRate v s = { s with rate := v.setWidth 8, pos := 0#8 }) := by
  unfold writeRate
  cases he : s.err with
  | true => exact .inl (by simp)
  | false =>
    cases hv : s.pend.valid with
    | true => exact .inr (.inl ⟨rfl, .busy, by simp⟩)
    | false =>
      by_cases hb : v.toNat < 1 ∨ v.toNat > 200
      · exact .inr (.inl ⟨rfl, .badRate, by simp only [if_pos hb]; simp⟩)
      · exact .inr (.inr ⟨rfl, rfl, by omega, by omega, by simp only [hb]; simp⟩)

/-- What a STATUS write can do (60_exceptions.md R204). -/
theorem writeStatus_cases (v : Word) (s : State) : writeStatus v s = clearError s ∨ writeStatus v s = s := by
  unfold writeStatus
  split
  · exact .inl rfl
  · exact .inr rfl

/-- A read changes the replies and the draw counter only (20_memory.md R59). -/
theorem readReg_frame (r : PortReg) (s : State) :
    sameRegs s (readReg r s) ∧ sameStatus s (readReg r s) ∧ (readReg r s).rejected = s.rejected ∧
      (readReg r s).moves = s.moves := by
  unfold readReg
  split <;> simp [sameRegs, sameStatus]

/-- What a host step can do: a read of a mapped register, a write of a writable one, or a bus error. -/
theorem hostStep_cases (a : Access) (s : State) :
    (∃ w o r, a = .read w o ∧ readable w o = some r ∧ hostStep a s = .next (readReg r s)) ∨
      (∃ w o v r, a = .write w o v ∧ writable w o = some r ∧
        hostStep a s = .next { writeReg r v s with replies := .done :: s.replies }) ∨
      (a.isBusError = true ∧ hostStep a s = .fault (.busError a)) := by
  cases a with
  | read w o =>
    cases hr : readable w o with
    | some r => exact .inl ⟨w, o, r, rfl, hr, by simp [hostStep, hr]⟩
    | none => exact .inr (.inr ⟨by simp [Access.isBusError, hr], by simp [hostStep, hr]⟩)
  | write w o v =>
    cases hr : writable w o with
    | some r => exact .inr (.inl ⟨w, o, v, r, rfl, hr, by simp [hostStep, hr]⟩)
    | none => exact .inr (.inr ⟨by simp [Access.isBusError, hr], by simp [hostStep, hr]⟩)

/-- The writable registers are DATA, CMD, STATUS and RATE (20_memory.md R57 c). -/
theorem writable_cases {w : Width} {o : BitVec 9} {r : PortReg} (h : writable w o = some r) :
    r = .data ∨ r = .cmd ∨ r = .status ∨ r = .rate := by
  unfold writable at h
  split at h <;> simp_all

end Sys2Proof.Machine
end

