-- ==== Sys2Proof/Laws/HostApi.lean ====
section
/-!
SUPPORT. How many bytes a call of the source's API functions returns (42_sponge.md R173): the byte counts of the squeeze
procedure add up, and every call the host does not refuse completes and returns exactly its output length. And that the one
CHECK at the end catches every error (70_reset_and_hazards.md R247).
-/

namespace Sys2Proof.Machine

/-- The bytes of a list of SQUEEZE commands. -/
def squeezedLength (cnts : List (BitVec 3)) : Nat := (cnts.map byteCount).sum

/-- The squeeze procedure for D bytes squeezes D bytes (R168). -/
theorem squeezedLength_squeezeCounts (D : Nat) : squeezedLength (squeezeCounts D) = D := by
  have step : ∀ m, 8 * m < D + 8 →
      squeezedLength ((List.range m).map fun k => BitVec.ofNat 3 (min 8 (D - 8 * k) - 1)) = min (8 * m) D := by
    intro m
    induction m with
    | zero => intro _; simp [squeezedLength]
    | succ m ih =>
      intro h
      have := ih (by omega)
      simp only [squeezedLength, List.range_succ, List.map_append, List.sum_append] at this ⊢
      rw [this]
      have hm : (min 8 (D - 8 * m) - 1) % 2 ^ 3 = min 8 (D - 8 * m) - 1 := Nat.mod_eq_of_lt (by omega)
      simp only [List.map_cons, List.map_nil, List.sum_cons, List.sum_nil, byteCount, BitVec.toNat_ofNat, hm]
      omega
  rw [squeezeCounts, step _ (by omega)]
  omega

theorem length_gatherOutput {cnts : List (BitVec 3)} {results : List Word} (h : results.length = cnts.length) :
    (gatherOutput cnts results).length = squeezedLength cnts := by
  induction cnts generalizing results with
  | nil => simp [gatherOutput, squeezedLength]
  | cons cnt cnts ih =>
    cases results with
    | nil => simp at h
    | cons w ws => simpa [gatherOutput, squeezedLength] using ih (by simpa using h)

@[simp] theorem length_truncateOutput (d : Nat) (out : List Byte) : (truncateOutput d out).length = out.length := by
  unfold truncateOutput
  split <;> simp

/-- A call that reads RESULT as often as its squeeze procedure does returns its output length (R173). -/
theorem ApiCall.length_returned (c : ApiCall) {results : List Word}
    (h : results.length = (squeezeCounts c.outputLength).length) {status : Word} (hs : checkPasses status = true) :
    ∃ out, c.returned results status = some out ∧ out.length = c.outputLength :=
  ⟨_, if_pos hs, by rw [length_truncateOutput, length_gatherOutput h, squeezedLength_squeezeCounts]⟩

/-- A call whose CHECK reads ERR = 1 returns nothing (70_reset_and_hazards.md R247). -/
theorem ApiCall.returned_error (c : ApiCall) (results : List Word) {status : Word} (hs : checkPasses status = false) :
    c.returned results status = none := by
  simp [ApiCall.returned, trustedOutput, hs]

/-! ## Every call completes -/

/-- A well-formed command with RATE and POS in range completes, keeps them so and leaves ERR. -/
theorem runCommand_ready {i : Instr} (hw : i.WellFormed) (data : Word) {s : State} (h : SpongeReady s) :
    ∃ t, runCommand i data s = .next t ∧ SpongeReady t ∧ t.err = s.err := by
  obtain ⟨t, ht, hc⟩ := exec_wellFormed (s := { s with pend := { valid := true, word := encode i, data := data } }) hw
    fun _ => h
  refine ⟨complete t, by rw [runCommand, ht]; rfl, ?_, hc.frame.2.2.1.1⟩
  have hr : t.rate = s.rate := hc.frame.2.1
  rcases hc.pos_cases with hp | hp | hp
  · have hp : t.pos = s.pos := hp
    simpa [SpongeReady, complete, hr, hp] using h
  · simpa [SpongeReady, complete, hr, hp] using And.intro h.1 h.2.1
  · exact hp

theorem runCommands_ready {cs : List (Instr × Word)} (hw : ∀ c ∈ cs, c.1.WellFormed) {s : State} (h : SpongeReady s) :
    ∃ t, runCommands cs s = .next t ∧ SpongeReady t ∧ t.err = s.err := by
  induction cs generalizing s with
  | nil => exact ⟨s, rfl, h, rfl⟩
  | cons c cs ih =>
    obtain ⟨u, hu, hr, he⟩ := runCommand_ready (hw c (.head _)) c.2 h
    obtain ⟨t, ht, hs, he'⟩ := ih (fun c hc => hw c (.tail _ hc)) hr
    exact ⟨t, by rw [runCommands, hu]; exact ht, hs, he'.trans he⟩

theorem runSqueezes_ready (cnts : List (BitVec 3)) {s : State} (h : SpongeReady s) :
    ∃ out t, runSqueezes cnts s = some (out, t) ∧ out.length = squeezedLength cnts ∧ t.err = s.err := by
  induction cnts generalizing s with
  | nil => exact ⟨[], s, rfl, rfl, rfl⟩
  | cons cnt cnts ih =>
    obtain ⟨u, hu, hr, he⟩ := runCommand_ready (i := .squeeze cnt) rfl 0#64 h
    obtain ⟨out, t, ht, hl, he'⟩ := ih hr
    refine ⟨lowBytes u.result (byteCount cnt) ++ out, t, by rw [runSqueezes, hu]; simp only [ht], ?_, he'.trans he⟩
    simp [hl, squeezedLength]

/-- R175's rows hold a legal RATE and a legal suffix. -/
theorem ApiCall.preset_legal {sfx : RawshakeSuffix} {c : ApiCall} {p : Preset} (h : c.preset sfx = some p) :
    1 ≤ p.rate.toNat ∧ p.rate.toNat ≤ 200 ∧ (Instr.pad p.slen p.suf).WellFormed := by
  cases c with
  | digest v M =>
    simp only [ApiCall.preset, digestPreset] at h
    split at h <;> cases h <;> decide
  | shake v d M =>
    simp only [ApiCall.preset, shakePreset] at h
    split at h <;> cases h <;> decide
  | rawshake v d M =>
    cases sfx <;> simp only [ApiCall.preset, rawshakePreset] at h <;> split at h <;> cases h <;> decide
  | keccak M d c =>
    simp only [ApiCall.preset, keccakPreset] at h
    split at h
    · cases h
      have : (1600 - c) / 8 % 2 ^ 8 = (1600 - c) / 8 := Nat.mod_eq_of_lt (by omega)
      refine ⟨?_, ?_, rfl⟩ <;> rw [BitVec.toNat_ofNat, this] <;> omega
    · cases h

/-- A call the host does not refuse, from an idle state without error, completes and returns its output length (R173). -/
theorem ApiCall.output_length {sfx : RawshakeSuffix} {c : ApiCall} {p : Preset} {s : State} (h : c.preset sfx = some p)
    (he : s.err = false) (hv : s.pend.valid = false) :
    ∃ out, c.output sfx s = some out ∧ out.length = c.outputLength := by
  obtain ⟨h1, h2, hw⟩ := ApiCall.preset_legal h
  have hn : (p.rate.setWidth 64).toNat = p.rate.toNat := by
    have := p.rate.isLt
    simp
    omega
  have hs : SpongeReady (writeRate (p.rate.setWidth 64) s) ∧ (writeRate (p.rate.setWidth 64) s).err = false := by
    have : ¬ ((p.rate.setWidth 64).toNat < 1 ∨ (p.rate.setWidth 64).toNat > 200) := by omega
    simp only [writeRate, he, hv, if_neg this]
    simp [SpongeReady]
    omega
  have hcs : ∀ x ∈ absorbCommands (messagePieces c.message) p.slen p.suf, x.1.WellFormed := by
    intro x hx
    simp only [absorbCommands, List.cons_append, List.mem_cons, List.mem_append, List.mem_map, List.not_mem_nil,
      or_false] at hx
    rcases hx with rfl | ⟨piece, -, rfl⟩ | rfl
    · rfl
    · rfl
    · exact hw
  obtain ⟨t, ht, hr, het⟩ := runCommands_ready hcs hs.1
  obtain ⟨out, u, hu, hl, heu⟩ := runSqueezes_ready (squeezeCounts c.outputLength) hr
  have hc : checkPasses (statusWord u) = true := by rw [checkPasses_statusWord, heu, het, hs.2]; rfl
  refine ⟨truncateOutput c.outputBits out, ?_, ?_⟩
  · simp only [ApiCall.output, h, ht, hu]
    exact if_pos hc
  · rw [length_truncateOutput, hl, squeezedLength_squeezeCounts]

/-- "`digest(256, M)` always gives 32 bytes, for every M including the empty message" (R173). -/
theorem digest256_gives_32_bytes (sfx : RawshakeSuffix) (M : List Byte) {s : State} (he : s.err = false)
    (hv : s.pend.valid = false) : ∃ out, (ApiCall.digest 256 M).output sfx s = some out ∧ out.length = 32 :=
  ApiCall.output_length rfl he hv

/-! ## One CHECK at the end is enough (70_reset_and_hazards.md R247) -/

/-- An operation that may clear the error: a write to STATUS (60_exceptions.md R204). -/
def HostOp.writesStatus (op : HostOp) : Prop := ∃ v, op = .wr offStatus v

/-- No operation but a write to STATUS clears the error (60_exceptions.md R203, R204). -/
theorem hostOp_keeps_error {op : HostOp} (hop : ¬ op.writesStatus) {s t : State} (he : s.err = true)
    (h : playMove (.host op.access) s = .next t) : t.err = true := by
  have h : hostStep op.access s = .next t := h
  rcases hostStep_cases op.access s with ⟨_, _, r, -, -, hx⟩ | ⟨w, o, v, r, ha, hr, hx⟩ | ⟨-, hx⟩ <;> rw [hx] at h <;>
    cases h
  · exact (readReg_frame r s).2.1.1.trans he
  · rcases writable_cases hr with rfl | rfl | rfl | rfl
    · exact he
    · simp [writeReg, issue, he]
    · cases op with
      | wr offset v' =>
        simp only [HostOp.access, Access.write.injEq] at ha
        obtain ⟨rfl, rfl, rfl⟩ := ha
        refine absurd ⟨v', ?_⟩ hop
        have : ∀ o : BitVec 9, writable .w64 o = some .status → o = offStatus := by decide
        rw [this _ hr]
      | rd _ => cases ha
      | poll => cases ha
      | check => cases ha
    · simp [writeReg, writeRate, he]

/-- The engine's turn does not clear the error (60_exceptions.md R203, R208). -/
theorem engine_keeps_error {s t : State} (he : s.err = true) (h : playMove .engine s = .next t) : t.err = true := by
  have h : engineStep s = .next t := h
  rcases engineStep_next h with ⟨-, rfl⟩ | ⟨i, u, -, -, hx, rfl⟩
  · exact he
  · rcases exec_cases i s with ⟨e, h1⟩ | ⟨v, h1, hc⟩ | ⟨h1, -⟩ <;> rw [h1] at hx <;> cases hx
    · simp [raiseCmdError, complete, he]
    · exact hc.frame.2.2.1.1.trans he

/-- A run with an error showing, of a program that has a CHECK last and no write to STATUS. -/
def HostRun.Caught (r : HostRun) : Prop :=
  r.machine.err = true ∧ ∃ ops, r.program = ops ++ [.check] ∧ ∀ op ∈ ops, ¬ op.writesStatus

theorem turn_caught {r q : HostRun} {turn : Turn} (hr : r.Caught) (ht : turn ≠ .reset) (h : r.turn turn = .next q) :
    q.Caught := by
  obtain ⟨he, ops, hp, hw⟩ := hr
  obtain ⟨program, s⟩ := r
  simp only at he hp
  subst hp
  cases turn with
  | reset => exact absurd rfl ht
  | engine =>
    simp only [HostRun.turn, afterMove] at h
    split at h <;> cases h
    rename_i t hm
    exact ⟨engine_keeps_error he hm, ops, rfl, hw⟩
  | host =>
    cases ops with
    | nil => rw [List.nil_append, turn_check_faults he] at h; cases h
    | cons op ops =>
      simp only [HostRun.turn, List.cons_append, afterMove] at h
      split at h
      · rename_i t hm
        have het := hostOp_keeps_error (hw op (.head _)) he hm
        have hw' : ∀ op ∈ ops, ¬ op.writesStatus := fun op ho => hw op (.tail _ ho)
        cases op with
        | wr _ _ => cases h; exact ⟨het, ops, rfl, hw'⟩
        | rd _ => cases h; exact ⟨het, ops, rfl, hw'⟩
        | poll =>
          simp only [HostOp.after] at h
          split at h <;> cases h
          · exact ⟨het, ops, rfl, hw'⟩
          · exact ⟨het, .poll :: ops, rfl, hw⟩
        | check =>
          simp only [HostOp.after] at h
          split at h <;> cases h
          exact ⟨het, ops, rfl, hw'⟩
      · cases h
      · cases h

/-- "ERR is sticky, so any rejection in the sequence leaves ERR = 1": once an error shows, no turns but a reset bring such
a program to its end, because its CHECK faults it. -/
theorem run_never_ends_with_error {r q : HostRun} {turns : List Turn} (hr : r.Caught) (ht : .reset ∉ turns)
    (h : r.run turns = .next q) : q.Caught ∧ q.program ≠ [] := by
  induction turns generalizing r with
  | nil =>
    cases h
    obtain ⟨-, ops, hp, -⟩ := id hr
    exact ⟨hr, by simp [hp]⟩
  | cons turn turns ih =>
    simp only [HostRun.run] at h
    split at h
    · rename_i u hu
      refine ih (turn_caught hr ?_ hu) (fun hm => ht (.tail _ hm)) h
      rintro rfl
      exact ht (.head _)
    · cases h
    · cases h

/-- The program of a call has its CHECK last and no write to STATUS. -/
theorem ApiCall.program_checked {sfx : RawshakeSuffix} {c : ApiCall} {program : List HostOp}
    (h : c.program sfx = some program) :
    ∃ ops, program = ops ++ [.check] ∧ ∀ op ∈ ops, ¬ op.writesStatus := by
  unfold ApiCall.program at h
  cases hp : c.preset sfx with
  | none => simp [hp] at h
  | some p =>
    simp only [hp, Option.map_some, Option.some.injEq] at h
    refine ⟨_, h.symm, ?_⟩
    rintro op hop ⟨v, rfl⟩
    simp [absorbProgram, squeezeProgram, cmdw, issueCmd, offStatus, offData, offRate, offCmd] at hop

end Sys2Proof.Machine
end

