-- ==== Sys2Proof/Machine/Assembler.lean ====
section
/-!
DEFINITION. The text forms of a command: the assembler's line (30_encoding.md R92) and the disassembler's (R94), on lists
of characters.
-/

namespace Sys2Proof

/-! ## Numbers -/

/-- A hexadecimal digit, upper case. -/
def hexDigit (n : Nat) : Char :=
  ['0', '1', '2', '3', '4', '5', '6', '7', '8', '9', 'A', 'B', 'C', 'D', 'E', 'F'].getD n '0'

/-- n digits of v in base 2^bits, most significant first. -/
def fixedDigits (bits : Nat) : Nat → Nat → List Char
  | 0, _ => []
  | n + 1, v => hexDigit (v / 2 ^ (bits * n) % 2 ^ bits) :: fixedDigits bits n v

/-- A number below 100 in decimal. -/
def decimal (v : Nat) : List Char := if v < 10 then [hexDigit v] else [hexDigit (v / 10), hexDigit (v % 10)]

/-- The value of a digit in any base up to 16. -/
def digitValue (c : Char) : Option Nat :=
  if '0'.toNat ≤ c.toNat ∧ c.toNat ≤ '9'.toNat then some (c.toNat - '0'.toNat)
  else if 'A'.toNat ≤ c.toNat ∧ c.toNat ≤ 'F'.toNat then some (c.toNat - 'A'.toNat + 10)
  else if 'a'.toNat ≤ c.toNat ∧ c.toNat ≤ 'f'.toNat then some (c.toNat - 'a'.toNat + 10)
  else none

/-- The value of a string of digits in a base, most significant first; `acc` is the value so far. -/
def digitsValue (base : Nat) : Nat → List Char → Option Nat
  | acc, [] => some acc
  | acc, c :: cs =>
    match digitValue c with
    | some d => if d < base then digitsValue base (acc * base + d) cs else none
    | none => none

/-- An unsigned operand, decimal or `0x` hexadecimal (R92); the spec's own examples also write `0b` binary suffixes
(log 17). -/
def numberValue (cs : List Char) : Option Nat :=
  match cs with
  | [] => none
  | '0' :: 'x' :: d :: ds => digitsValue 16 0 (d :: ds)
  | '0' :: 'b' :: d :: ds => digitsValue 2 0 (d :: ds)
  | d :: ds => digitsValue 10 0 (d :: ds)

/-! ## Names -/

/-- The mnemonic of a command (R81). -/
def mnemonic : Instr → List Char
  | .init => ['I', 'N', 'I', 'T']
  | .xorl _ _ _ => ['X', 'O', 'R', 'L']
  | .wrl _ _ _ => ['W', 'R', 'L']
  | .rotl _ _ _ => ['R', 'O', 'T', 'L']
  | .rotr _ _ _ => ['R', 'O', 'T', 'R']
  | .theta => ['T', 'H', 'E', 'T', 'A']
  | .rho => ['R', 'H', 'O']
  | .pi => ['P', 'I']
  | .chi => ['C', 'H', 'I']
  | .iota _ => ['I', 'O', 'T', 'A']
  | .round _ => ['R', 'O', 'U', 'N', 'D']
  | .permute => ['P', 'E', 'R', 'M', 'U', 'T', 'E']
  | .rcgen _ => ['R', 'C', 'G', 'E', 'N']
  | .absorb _ => ['A', 'B', 'S', 'O', 'R', 'B']
  | .pad _ _ => ['P', 'A', 'D']
  | .squeeze _ => ['S', 'Q', 'U', 'E', 'E', 'Z', 'E']

/-- The name of a decode error (60_exceptions.md R200). -/
def CmdErr.name : CmdErr → List Char
  | .illegalOp => ['I', 'L', 'L', 'E', 'G', 'A', 'L', '_', 'O', 'P']
  | .reservedBits => ['R', 'E', 'S', 'E', 'R', 'V', 'E', 'D', '_', 'B', 'I', 'T', 'S']
  | .badLane => ['B', 'A', 'D', '_', 'L', 'A', 'N', 'E']
  | .badRound => ['B', 'A', 'D', '_', 'R', 'O', 'U', 'N', 'D']
  | .badSuffix => ['B', 'A', 'D', '_', 'S', 'U', 'F', 'F', 'I', 'X']
  | .badRate => ['B', 'A', 'D', '_', 'R', 'A', 'T', 'E']
  | .busy => ['B', 'U', 'S', 'Y']

/-! ## Disassembly (R94) -/

/-- The operands of a command as the disassembler prints them, without the mnemonic. -/
def operandsText : Instr → List (List Char)
  | .xorl x y mask | .wrl x y mask =>
    [decimal x.toNat, decimal y.toNat, '0' :: 'x' :: fixedDigits 4 2 mask.toNat]
  | .rotl x y amt | .rotr x y amt => [decimal x.toNat, decimal y.toNat, decimal amt.toNat]
  | .iota ir | .round ir | .rcgen ir => [decimal ir.toNat]
  | .absorb cnt | .squeeze cnt => [decimal (cnt.toNat + 1)]
  | .pad slen suf =>
    [decimal slen.toNat,
      if slen.toNat = 0 then decimal suf.toNat else '0' :: 'b' :: fixedDigits 1 slen.toNat suf.toNat]
  | .init | .theta | .rho | .pi | .chi | .permute => []

/-- Operands joined with a comma and a space. -/
def joinOperands : List (List Char) → List Char
  | [] => []
  | [o] => o
  | o :: os => o ++ [',', ' '] ++ joinOperands os

/-- A command in the syntax of R92. -/
def printInstr (i : Instr) : List Char :=
  match operandsText i with
  | [] => mnemonic i
  | os => mnemonic i ++ [' '] ++ joinOperands os

/-- The disassembly of a word (R94): the command, or `.word 0x<16 hex digits>  ; <error name>`. -/
def disassemble (W : Word) : List Char :=
  match decode W with
  | .ok i => printInstr i
  | .error e => ['.', 'w', 'o', 'r', 'd', ' ', '0', 'x'] ++ fixedDigits 4 16 W.toNat ++ [' ', ' ', ';', ' '] ++ e.name

/-! ## Assembly (R92) -/

/-- The command with a name and operand values; `none` for an unknown name, a wrong operand count or a value out of
range ("operands out of range are assembly errors", R92). -/
def assembleCommand (name : List Char) (ops : List Nat) : Option Instr :=
  match ops with
  | [] => [Instr.init, .theta, .rho, .pi, .chi, .permute].find? fun i => mnemonic i == name
  | [a] =>
    if a < 24 then
      match [Instr.iota (BitVec.ofNat 5 a), .round (BitVec.ofNat 5 a), .rcgen (BitVec.ofNat 5 a)].find?
          fun i => mnemonic i == name with
      | some i => some i
      | none =>
        if 1 ≤ a ∧ a ≤ 8 then
          [Instr.absorb (BitVec.ofNat 3 (a - 1)), .squeeze (BitVec.ofNat 3 (a - 1))].find? fun i => mnemonic i == name
        else none
    else none
  | [a, b] =>
    if a < 7 ∧ b < 2 ^ a then
      [Instr.pad (BitVec.ofNat 3 a) (BitVec.ofNat 6 b)].find? fun i => mnemonic i == name
    else none
  | [a, b, c] =>
    if a < 5 ∧ b < 5 ∧ c < 256 then
      match [Instr.xorl (BitVec.ofNat 3 a) (BitVec.ofNat 3 b) (BitVec.ofNat 8 c),
          .wrl (BitVec.ofNat 3 a) (BitVec.ofNat 3 b) (BitVec.ofNat 8 c)].find? fun i => mnemonic i == name with
      | some i => some i
      | none =>
        if c < 64 then
          [Instr.rotl (BitVec.ofNat 3 a) (BitVec.ofNat 3 b) (BitVec.ofNat 6 c),
            .rotr (BitVec.ofNat 3 a) (BitVec.ofNat 3 b) (BitVec.ofNat 6 c)].find? fun i => mnemonic i == name
        else none
    else none
  | _ => none

/-- The pieces of a text between occurrences of a character. -/
def splitText (sep : Char) : List Char → List (List Char)
  | [] => [[]]
  | c :: cs =>
    if c = sep then [] :: splitText sep cs
    else
      match splitText sep cs with
      | [] => [[c]]
      | p :: ps => (c :: p) :: ps

/-- A text without the spaces at its start. -/
def dropSpaces : List Char → List Char
  | ' ' :: cs => dropSpaces cs
  | cs => cs

/-- A text without the spaces at either end. -/
def trimText (cs : List Char) : List Char := (dropSpaces (dropSpaces cs).reverse).reverse

/-- The mnemonic of a line and the rest after the first space. -/
def splitMnemonic : List Char → List Char × List Char
  | [] => ([], [])
  | ' ' :: cs => ([], cs)
  | c :: cs => (c :: (splitMnemonic cs).1, (splitMnemonic cs).2)

/-- One line of R92: the mnemonic, then comma-separated unsigned operands. -/
def assembleLine (line : List Char) : Option Instr :=
  let (name, rest) := splitMnemonic (trimText line)
  if trimText rest = [] then assembleCommand name []
  else
    match (splitText ',' rest).mapM fun o => numberValue (trimText o) with
    | some ops => assembleCommand name ops
    | none => none

end Sys2Proof
end

