-- ==== Sys2Proof/Tests/Slice0.lean ====
section
/-!
SUPPORT. Tests with expected results taken from the spec's own examples and vectors (95_test_vectors.md), the
well-formedness smoke test, and for every statement with hypotheses a witness that meets them.
-/

namespace Sys2Proof.Tests

open Sys2Proof Sys2Proof.Machine Sys2Proof.Source

/-! ## Helpers -/

/-- The outcome is a next state that satisfies `p`. -/
def nextIs (r : Result) (p : State → Bool) : Bool :=
  match r with
  | .next t => p t
  | .fault _ => false
  | .refused _ => false

/-- The outcome is this fault. -/
def faultIs (r : Result) (f : Fault) : Bool :=
  match r with
  | .fault g => g == f
  | .next _ => false
  | .refused _ => false

/-- The reset state with one lane set. -/
def oneLane (x y : Fin 5) (v : Lane) : State := { State.reset with A := setLane zeroArray x y v }

/-- The reset state with RATE configured and a command pending. -/
def pendingState (i : Instr) (data : Word) : State :=
  { State.reset with rate := 136#8, data := data, pend := { valid := true, word := encode i, data := data } }

/-- The moves of single port operations. -/
def wr (offset : BitVec 9) (v : Word) : Move := .host (HostOp.wr offset v).access
def rd (offset : BitVec 9) : Move := .host (HostOp.rd offset).access
def cmdMove (i : Instr) : Move := .host (issueCmd i).access

/-- The run of a host program from reset ends under these turns with this program left and a state that satisfies `p`. -/
def runLeaves (program : List HostOp) (turns : List Turn) (rest : List HostOp) (p : State → Bool) : Bool :=
  match (HostRun.start program).run turns with
  | .next r => r.program == rest && p r.machine
  | .fault _ => false
  | .refused _ => false

/-- The reset state with a list of moves, run to the end of the list. -/
def runMoves (ms : List Move) : Result := Host.Core.run core ms.length { State.reset with moves := ms }

/-! ## Well-formedness smoke: one ill-formed term for each check (R92) -/

theorem test_wf_refuses_x : (Instr.xorl 5#3 0#3 0#8).wellFormed = false := by decide
theorem test_wf_refuses_y : (Instr.rotr 0#3 5#3 0#6).wellFormed = false := by decide
theorem test_wf_refuses_round : (Instr.rcgen 24#5).wellFormed = false := by decide
theorem test_wf_refuses_slen : (Instr.pad 7#3 0#6).wellFormed = false := by decide
theorem test_wf_refuses_suf : (Instr.pad 2#3 0b100#6).wellFormed = false := by decide
theorem test_wf_takes_longest_suffix : (Instr.pad 6#3 0b111111#6).wellFormed = true := by decide

/-! ## Decoding: one word a constructor, written bit by bit from the format tables of R82 to R87 -/

theorem test_decode_init : decode 0b000001#64 = .ok .init := by decide
/-- mmmmmmmm = 00000001, yyy = 100, xxx = 011, oooooo = 000010 (R83). -/
theorem test_decode_xorl : decode 0b00000001100011000010#64 = .ok (.xorl 3#3 4#3 0x01#8) := by decide
theorem test_decode_wrl : decode 0b11111111010001000011#64 = .ok (.wrl 1#3 2#3 0xFF#8) := by decide
theorem test_decode_rotl : decode 0b000100010001000100#64 = .ok (.rotl 1#3 2#3 4#6) := by decide
theorem test_decode_rotr : decode 0b111111001011000101#64 = .ok (.rotr 3#3 1#3 63#6) := by decide
theorem test_decode_theta : decode 0b001000#64 = .ok .theta := by decide
theorem test_decode_rho : decode 0b001001#64 = .ok .rho := by decide
theorem test_decode_pi : decode 0b001010#64 = .ok .pi := by decide
theorem test_decode_chi : decode 0b001011#64 = .ok .chi := by decide
theorem test_decode_iota : decode 0b10111000000001100#64 = .ok (.iota 23#5) := by decide
theorem test_decode_round : decode 0b00001000000001101#64 = .ok (.round 1#5) := by decide
theorem test_decode_permute : decode 0b001110#64 = .ok .permute := by decide
theorem test_decode_rcgen : decode 0b00001000000001111#64 = .ok (.rcgen 1#5) := by decide
theorem test_decode_absorb : decode 0b010000000010000#64 = .ok (.absorb 2#3) := by decide
theorem test_decode_pad : decode 0b0000100010000000010001#64 = .ok (.pad 2#3 0b10#6) := by decide
theorem test_decode_squeeze : decode 0b111000000010010#64 = .ok (.squeeze 7#3) := by decide

/-- V-D30, V-D36, V-D43, V-D40, V-D45, V-D51, V-E10: one rejected word a check, and the order of the checks. -/
theorem test_decode_errors :
    decode 0x0#64 = .error .illegalOp ∧ decode 0x0000010000000001#64 = .error .reservedBits ∧
      decode 0x18000C#64 = .error .reservedBits ∧ decode 0x0E02#64 = .error .badLane ∧
      decode 0x1F00D#64 = .error .badRound ∧ decode 0x42011#64 = .error .badSuffix ∧
      decode 0x401C4#64 = .error .reservedBits := by decide

theorem test_decodeTableWord : decodeTableWord 64 0xFF443 = some (.wrl 1#3 2#3 0xFF#8) := by decide

/-! ## Lane commands (V-L) -/

/-- V-L1 with POS 5 (R100's example). -/
theorem test_init : nextIs (exec .init { oneLane 1 2 0x0EDCBA9879ABCDEF#64 with pos := 5#8 })
    (fun t => t.A == zeroArray && t.pos == 0#8) = true := by decide

/-- V-L3. -/
theorem test_xorl : nextIs (exec (.xorl 1#3 2#3 0xF0#8)
      { oneLane 1 2 0x123456789ABCDEF0#64 with pend := { valid := true, word := 0#64, data := 0xFFFFFFFFFFFFFFFF#64 } })
    (fun t => laneAt t.A 1 2 == 0xEDCBA9879ABCDEF0#64) = true := by decide

/-- V-L9. -/
theorem test_wrl : nextIs (exec (.wrl 1#3 2#3 0x81#8) (oneLane 1 2 0x0123456789ABCDEF#64))
    (fun t => laneAt t.A 1 2 == 0x0023456789ABCD00#64) = true := by decide

/-- V-L12 and V-L15. -/
theorem test_rotl :
    nextIs (exec (.rotl 0#3 0#3 1#6) (oneLane 0 0 0x8000000000000001#64)) (fun t => laneAt t.A 0 0 == 3#64) = true ∧
    nextIs (exec (.rotl 2#3 3#3 32#6) (oneLane 2 3 0x0123456789ABCDEF#64))
      (fun t => laneAt t.A 2 3 == 0x89ABCDEF01234567#64) = true := by decide

/-- V-L16 and V-L19. -/
theorem test_rotr :
    nextIs (exec (.rotr 1#3 2#3 4#6) (oneLane 1 2 0xEDCBA9879ABCDEF0#64))
      (fun t => laneAt t.A 1 2 == 0x0EDCBA9879ABCDEF#64) = true ∧
    nextIs (exec (.rotr 3#3 1#3 63#6) (oneLane 3 1 0x0123456789ABCDEF#64))
      (fun t => laneAt t.A 3 1 == 0x02468ACF13579BDE#64) = true := by decide

/-! ## Step mappings (V-P) -/

/-- V-P1. -/
theorem test_theta : nextIs (exec .theta (oneLane 0 0 1#64)) (fun t => t.A ==
    tabulate fun x y => if x = 1 then 1#64 else if x = 4 then 2#64 else if x = 0 ∧ y = 0 then 1#64 else 0#64) = true := by
  decide +kernel

/-- V-P4, three of its lanes. -/
theorem test_rho : nextIs (exec .rho { State.reset with A := Vector.replicate 25 1#64 })
    (fun t => laneAt t.A 2 0 == 0x4000000000000000#64 && laneAt t.A 1 4 == 4#64 && laneAt t.A 4 4 == 0x4000#64) = true := by
  decide +kernel

/-- V-P5, four of its lanes: lane i holds i before. -/
theorem test_pi : nextIs (exec .pi { State.reset with A := Vector.ofFn fun i : Fin 25 => BitVec.ofNat 64 i.val })
    (fun t => laneAt t.A 1 0 == 6#64 && laneAt t.A 0 1 == 3#64 && laneAt t.A 0 2 == 1#64 &&
      laneAt t.A 4 4 == 0x15#64) = true := by
  decide +kernel

/-- V-P7. -/
theorem test_chi : nextIs (exec .chi { State.reset with
      A := setLane (setLane zeroArray 1 0 0xFFFFFFFFFFFFFFFF#64) 2 0 0xFFFFFFFFFFFFFFFF#64 })
    (fun t => t.A == tabulate fun x y =>
      if y = 0 ∧ (x = 1 ∨ x = 2 ∨ x = 4) then 0xFFFFFFFFFFFFFFFF#64 else 0#64) = true := by
  decide +kernel

/-- V-P8. -/
theorem test_iota : nextIs (exec (.iota 23#5) State.reset) (fun t => laneAt t.A 0 0 == 0x8000000080008008#64) = true := by
  decide +kernel

/-- V-P11, four of its lanes. -/
theorem test_round : nextIs (exec (.round 0#5) (oneLane 0 0 1#64))
    (fun t => laneAt t.A 0 0 == 0#64 && laneAt t.A 4 0 == 0x0000100000008000#64 &&
      laneAt t.A 0 3 == 0x0000000010000400#64 && laneAt t.A 2 4 == 0x0000010000000004#64) = true := by
  decide +kernel

/-- V-P17. -/
theorem test_rcgen : nextIs (exec (.rcgen 1#5) (oneLane 0 0 0x0123456789ABCDEF#64))
    (fun t => t.result == 0x8082#64 && laneAt t.A 0 0 == 0x0123456789ABCDEF#64) = true := by decide +kernel

/-! ## Sponge commands (V-S) -/

/-- V-S1. -/
theorem test_absorb : nextIs (exec (.absorb 2#3) (pendingState (.absorb 2#3) 0x636261#64))
    (fun t => laneAt t.A 0 0 == 0x636261#64 && t.pos == 3#8) = true := by decide +kernel

/-- V-S4: RATE 1, the second byte is preceded by a permutation. -/
theorem test_absorb_permutes : nextIs (exec (.absorb 1#3) { pendingState (.absorb 1#3) 0x201#64 with rate := 1#8 })
    (fun t => laneAt t.A 0 0 == 0xE2A944396F0B13C4#64 && t.pos == 1#8) = true := by decide +kernel

/-- V-S2 and V-S7: pad byte and frame bit apart, and in one byte. -/
theorem test_pad :
    nextIs (exec (.pad 2#3 0b10#6) { oneLane 0 0 0x636261#64 with rate := 136#8, pos := 3#8 })
      (fun t => laneAt t.A 0 0 == 0x06636261#64 && laneAt t.A 1 3 == 0x8000000000000000#64 && t.pos == 136#8) = true ∧
    nextIs (exec (.pad 2#3 0b10#6) { State.reset with rate := 1#8 })
      (fun t => laneAt t.A 0 0 == 0x86#64 && t.pos == 1#8) = true := by decide +kernel

/-- R166 on a lane of known bytes: RESULT bytes n to 7 are 0 and POS moves by n. -/
theorem test_squeeze : nextIs (exec (.squeeze 2#3) { oneLane 0 0 0x66D71EBFF8C6FFA7#64 with rate := 136#8, result := 5#64 })
    (fun t => t.result == 0xC6FFA7#64 && t.pos == 3#8) = true := by decide +kernel

/-! ## The port (V-M, V-E, V-R) -/

/-- V-E14 and V-E15: the second write is rejected with BUSY, the first still completes. -/
theorem test_busy_rejection :
    nextIs (runMoves [cmdMove .init, cmdMove .init, rd offStatus])
      (fun t => t.replies.head? == some (.value 0x703#64)) = true ∧
    nextIs (runMoves [cmdMove .init, cmdMove .init, .engine, rd offStatus])
      (fun t => t.replies.head? == some (.value 0x702#64)) = true := by decide +kernel

/-- V-E2 and V-E3: BAD_RATE, the dropped RATE write, and the clear. -/
theorem test_bad_rate_and_clear :
    nextIs (runMoves [cmdMove (.absorb 2#3), wr offRate 136#64, rd offStatus])
      (fun t => t.replies.head? == some (.value 0x602#64) && t.rate == 0#8) = true ∧
    nextIs (runMoves [cmdMove (.absorb 2#3), wr offRate 136#64, wr offStatus 2#64, wr offRate 136#64, rd offStatus])
      (fun t => t.replies.head? == some (.value 0#64) && t.rate == 136#8) = true := by decide +kernel

/-- V-M6: the RATE value is compared as a 64-bit number. -/
theorem test_rate_is_not_truncated :
    nextIs (runMoves [wr offRate 200#64, wr offRate 0x100#64, rd offStatus])
      (fun t => t.replies.head? == some (.value 0x602#64) && t.rate == 200#8) = true := by decide +kernel

/-- V-M7: the command uses the DATA latched at acceptance. -/
theorem test_latched_data :
    nextIs (runMoves [wr offData 0xFFFFFFFFFFFFFFFF#64, cmdMove (.wrl 1#3 2#3 0xFF#8), wr offData 0x1111#64, .engine])
      (fun t => laneAt t.A 1 2 == 0xFFFFFFFFFFFFFFFF#64 && t.data == 0x1111#64) = true := by decide +kernel

/-- V-M2, V-M4, V-E21: bus errors. -/
theorem test_bus_errors :
    faultIs (runMoves [wr 0x018#9 5#64]) (.busError (.write .w64 0x018#9 5#64)) = true ∧
    faultIs (runMoves [.host (.read .w32 0x118#9)]) (.busError (.read .w32 0x118#9)) = true ∧
    faultIs (runMoves [rd 0x104#9]) (.busError (.read .w64 0x104#9)) = true ∧
    faultIs (runMoves [rd 0x1F8#9]) (.busError (.read .w64 0x1F8#9)) = true := by decide +kernel

/-- V-R2: reset discards the pending command. -/
theorem test_reset_discards : nextIs (runMoves [cmdMove .permute, .reset, .engine, rd offStatus])
    (fun t => t.replies.head? == some (.value 0#64) && t.A == zeroArray) = true := by decide +kernel

/-! ## Host programs (R93) -/

/-- V-M7's first accesses as a program, and R93's POLL: it repeats while BUSY reads 1, twice here, and ends at 0. -/
theorem test_poll_repeats :
    runLeaves (cmdw .init) [.host, .host, .host] [.poll] (fun t => t.replies == [.value 1#64, .value 1#64, .done]) = true ∧
    runLeaves (cmdw .init) [.host, .host, .host, .engine, .host] []
      (fun t => t.replies == [.value 0#64, .value 1#64, .value 1#64, .done]) = true := by decide +kernel

/-- R93's CHECK after an INIT passes, and after V-E2's ABSORB without RATE it faults the host program. -/
theorem test_check :
    runLeaves (cmdw .init ++ [.check]) [.host, .engine, .host, .host] [] (fun _ => true) = true ∧
    (HostRun.start (cmdw (.absorb 2#3) ++ [.check])).run [.host, .host, .host] = .fault .check := by
  refine ⟨by decide +kernel, by rfl⟩

/-- R93's LDLANE and CLRLANE. -/
theorem test_ldlane :
    runLeaves ((Pseudo.ldlane 1#3 2#3 5#64).expand ++ (Pseudo.clrlane 0#3 0#3).expand)
      [.host, .host, .engine, .host, .host, .host, .host, .engine, .host] []
      (fun t => laneAt t.A 1 2 == 5#64 && laneAt t.A 0 0 == 0#64) = true := by decide +kernel

/-- The words of R93's table. -/
theorem test_pseudo_words :
    Pseudo.nop.expand = [.wr 0x110#9 0x00000002#64] ∧ Pseudo.padSha3.expand = [.wr 0x110#9 0x00022011#64] ∧
      Pseudo.padShake.expand = [.wr 0x110#9 0x000F4011#64] ∧
      (Pseudo.padRawshake .fips).expand = [.wr 0x110#9 0x00032011#64] ∧
      Pseudo.padKeccak.expand = [.wr 0x110#9 0x00000011#64] ∧ Pseudo.clrerr.expand = [.wr 0x118#9 0x2#64] := by decide

/-- The step of a table word after reset runs the instruction (RCGEN 23: R128). -/
theorem test_withFetchWord : nextIs (step (State.reset.withFetchWord 64 0x1700F))
    (fun t => t.result == 0x8000000080008008#64 && t.pend.valid == false) = true := by decide +kernel

/-- P1 of 95_test_vectors.md without its message: RATE, INIT and PAD, four SQUEEZE 8, each with a read of RESULT, and the
CHECK of R247. -/
theorem test_digest_program : (ApiCall.digest 256 []).program .fips = some
    ([.wr 0x120#9 136#64, .wr 0x110#9 0x01#64, .poll, .wr 0x110#9 0x00022011#64, .poll] ++
      (List.replicate 4 [HostOp.wr 0x110#9 0x00007012#64, .poll, .rd 0x108#9]).flatten ++ [.check]) := by decide

/-- R173: `ceil(d/8)` bytes, `v/8` for digest, and V-S47's empty output. -/
theorem test_output_lengths :
    (ApiCall.digest 224 []).outputLength = 28 ∧ (ApiCall.digest 512 []).outputLength = 64 ∧
      (ApiCall.shake 128 9 []).outputLength = 2 ∧ (ApiCall.digest 255 []).program .fips = none ∧
      (ApiCall.keccak [] 8 1593).program .fips = none ∧
      (ApiCall.shake 128 0 []).output .fips State.reset = some [] := by decide +kernel

/-- R168: the host clears the high bits of the last byte, and takes only the bytes asked for; R247: with STATUS = 0x602,
BAD_RATE, it trusts none of them. -/
theorem test_returned :
    (ApiCall.shake 128 67 []).returned [0x0807060504030201#64, 0xFF#64] 0#64 =
        some [1#8, 2#8, 3#8, 4#8, 5#8, 6#8, 7#8, 8#8, 7#8] ∧
      (ApiCall.shake 128 67 []).returned [0x0807060504030201#64, 0xFF#64] 0x602#64 = none := by decide +kernel

/-- R247: a call whose RATE write is dropped, because an error shows, ends in its CHECK and returns nothing. -/
theorem test_call_with_error :
    (ApiCall.shake 128 0 []).output .fips { State.reset with err := true, errCode := 6#4 } = none := by decide +kernel

/-! ## Text forms (V-D) -/

/-- V-D5, V-D27, V-D51. -/
theorem test_disassemble :
    disassemble 0x1902#64 = "XORL 4, 4, 0x01".toList ∧ disassemble 0x66011#64 = "PAD 6, 0b000110".toList ∧
      disassemble 0x42011#64 = ".word 0x0000000000042011  ; BAD_SUFFIX".toList := by decide +kernel

/-- R92's examples. -/
theorem test_assemble :
    assembleLine "WRL 1, 2, 0xFF".toList = some (.wrl 1#3 2#3 0xFF#8) ∧
      assembleLine "ABSORB 8".toList = some (.absorb 7#3) ∧ assembleLine "ROUND 24".toList = none := by decide +kernel

/-! ## Witnesses: a state and operands that meet each statement's hypotheses, one a clause, at the ends of the ranges -/

theorem next_of_nextIs {r : Result} {p : State → Bool} (h : nextIs r p = true) : ∃ t, r = .next t := by
  cases r with
  | next t => exact ⟨t, rfl⟩
  | fault f => simp [nextIs] at h
  | refused f => simp [nextIs] at h

/-- Idle, RATE at its largest, POS = RATE, an error showing. -/
def fullState : State :=
  { State.reset with rate := 200#8, pos := 200#8, err := true, errCode := 7#4, rejected := true }

/-- RATE at its smallest, nothing absorbed. -/
def smallState : State := { State.reset with rate := 1#8 }

/-- RATE above 200, and POS above RATE: what R36 rules out. -/
def overState : State := { State.reset with rate := 201#8 }
def pastState : State := { State.reset with rate := 199#8, pos := 200#8 }

theorem full_inv : fullState.Inv := ⟨by decide, by decide, by decide, by decide, by decide, by decide⟩

theorem pending_inv : (pendingState (.pad 6#3 63#6) 5#64).Inv :=
  ⟨by decide, by decide, by decide, by decide, by decide, by decide⟩

/-- StepKeepsInvariant: an idle engine step, and one that completes a PAD. -/
theorem witness_StepKeepsInvariant :
    (fullState.Inv ∧ ∃ t, step fullState = .next t) ∧
      ((pendingState (.pad 6#3 63#6) 5#64).Inv ∧ ∃ t, step (pendingState (.pad 6#3 63#6) 5#64) = .next t) :=
  ⟨⟨full_inv, next_of_nextIs (p := fun _ => true) (by decide +kernel)⟩,
    pending_inv, next_of_nextIs (p := fun _ => true) (by decide +kernel)⟩

/-- DecodeReturnsEncodedCommand: every format at the top of its operand ranges. -/
theorem witness_DecodeReturnsEncodedCommand :
    Instr.init.WellFormed ∧ (Instr.xorl 4#3 4#3 255#8).WellFormed ∧ (Instr.rotl 4#3 4#3 63#6).WellFormed ∧
      (Instr.round 23#5).WellFormed ∧ (Instr.absorb 7#3).WellFormed ∧ (Instr.pad 6#3 63#6).WellFormed ∧
      (Instr.pad 0#3 0#6).WellFormed := by
  simp [Instr.WellFormed, Instr.wellFormed]

theorem witness_EncodeReturnsAcceptedWord :
    decode 0xFF902#64 = .ok (.xorl 4#3 4#3 255#8) ∧ decode 0x3F6011#64 = .ok (.pad 6#3 63#6) := by decide

/-- DecodeReportsFirstFailingCheck, one word a clause. -/
theorem witness_DecodeReportsFirstFailingCheck :
    illegalWord 0x13 ∧
    (¬ illegalWord 0x8000000000000001 ∧ reservedWord 0x8000000000000001#64) ∧
    (¬ illegalWord 0xE02 ∧ ¬ reservedWord 0xE02#64 ∧ badLaneWord 0xE02) ∧
    (¬ illegalWord 0x1800C ∧ ¬ reservedWord 0x1800C#64 ∧ badRoundWord 0x1800C) ∧
    (¬ illegalWord 0x7011 ∧ ¬ reservedWord 0x7011#64 ∧ badSuffixWord 0x7011) ∧
    (¬ illegalWord 0x3F6011 ∧ ¬ reservedWord 0x3F6011#64 ∧ ¬ badLaneWord 0x3F6011 ∧ ¬ badRoundWord 0x3F6011 ∧
      ¬ badSuffixWord 0x3F6011) := by
  unfold illegalWord reservedWord badLaneWord badRoundWord badSuffixWord
  decide

/-- EngineStepRunsPendingCommand: a meaning that goes on, one that faults, nothing pending. -/
theorem witness_EngineStepRunsPendingCommand :
    ((pendingState .init 0#64).pend.valid = true ∧ decode (pendingState .init 0#64).pend.word = .ok .init ∧
      ∃ u, exec .init { pendingState .init 0#64 with moves := [.reset] } = .next u) ∧
    (∃ s : State, s.pend.valid = true ∧ decode s.pend.word = .ok (.absorb 0#3) ∧
      exec (.absorb 0#3) { s with moves := [.reset] } = .fault .spongeRange) ∧
    State.reset.pend.valid = false :=
  ⟨⟨by decide, by decide, next_of_nextIs (p := fun _ => true) (by decide)⟩,
    ⟨{ overState with pend := { valid := true, word := encode (.absorb 0#3), data := 0#64 } }, by decide, by decide,
      by rfl⟩, by decide⟩

theorem witness_AcceptedCommandNeverFails :
    (pendingState (.pad 6#3 63#6) 5#64).Inv ∧ (pendingState (.pad 6#3 63#6) 5#64).pend.valid = true :=
  ⟨pending_inv, by decide⟩

/-- OnlyBusErrorsFault: a state with the invariant that faults, and one that is refused. -/
theorem witness_OnlyBusErrorsFault :
    (∃ s : State, s.Inv ∧ ∃ f, step s = .fault f) ∧ (∃ s : State, s.Inv ∧ ∃ r, step s = .refused r) :=
  ⟨⟨{ fullState with moves := [rd 0x130#9] },
      ⟨full_inv.1, full_inv.2, full_inv.3, full_inv.4, full_inv.5, full_inv.6⟩, _, rfl⟩,
    ⟨{ fullState with moves := [.secondHost (.read .w64 0x118#9)] },
      ⟨full_inv.1, full_inv.2, full_inv.3, full_inv.4, full_inv.5, full_inv.6⟩, _, rfl⟩⟩

/-- EveryAcceptedCommandCompletes: with a reset to come, and without. -/
theorem witness_EveryAcceptedCommandCompletes :
    (∃ s : State, s.Inv ∧ (∀ m ∈ s.moves, m.legal = true) ∧ s.moves.length = 4 ∧ s.pend.valid = true) ∧
    (∃ s : State, s.Inv ∧ (∀ m ∈ s.moves, m.legal = true) ∧ s.pend.valid = true ∧
      decode s.pend.word = .ok (.squeeze 7#3) ∧ .reset ∉ s.moves) :=
  ⟨⟨{ pendingState (.squeeze 7#3) 0#64 with moves := [cmdMove .init, rd offStatus, .engine, .reset] },
      ⟨by decide, by decide, by decide, by decide, by decide, by decide⟩, by decide, by decide, by decide⟩,
    ⟨{ pendingState (.squeeze 7#3) 0#64 with moves := [cmdMove .init, rd offStatus] },
      ⟨by decide, by decide, by decide, by decide, by decide, by decide⟩, by decide, by decide, by decide, by decide⟩⟩

/-- HazardFreeAccessCommutesWithCompletion: writes, a read, and a read of STATUS. -/
theorem witness_HazardFreeAccessCommutesWithCompletion :
    (pendingState (.pad 6#3 63#6) 5#64).Inv ∧ (pendingState (.pad 6#3 63#6) 5#64).pend.valid = true ∧
      (∀ a ∈ [Access.write .w64 0x100#9 7#64, .write .w64 0x118#9 2#64, .read .w64 0x120#9, .read .w64 0x118#9],
        a.isBusError = false ∧ a.busyHazard = false) ∧
      (∀ w, Access.read .w64 0x120#9 ≠ .read w 0x118#9) ∧ Access.read .w64 0x118#9 = .read .w64 0x118#9 := by
  refine ⟨pending_inv, by decide, by decide, ?_, rfl⟩
  simp

theorem witness_CommandEffectDependsOnlyOnEngineState :
    ∃ s s' t : State, s ≠ s' ∧ s'.A = s.A ∧ s'.rate = s.rate ∧ s'.pos = s.pos ∧ s'.result = s.result ∧
      s'.pend.data = s.pend.data ∧ exec (.absorb 7#3) s = .next t := by
  obtain ⟨t, ht⟩ : ∃ t, exec (.absorb 7#3) (pendingState (.absorb 7#3) 5#64) = .next t :=
    next_of_nextIs (p := fun _ => true) (by decide +kernel)
  exact ⟨pendingState (.absorb 7#3) 5#64, { pendingState (.absorb 7#3) 5#64 with data := 9#64, err := true }, t,
    by decide, rfl, rfl, rfl, rfl, rfl, ht⟩

/-- RegistersChangeOnlyByTheirWriters, one step a clause: XORL, RCGEN, and writes of DATA and RATE (which moves POS). -/
theorem witness_RegistersChangeOnlyByTheirWriters :
    (∃ s : State, nextIs (step s) (fun t => t.A != s.A) = true) ∧
    (∃ s : State, nextIs (step s) (fun t => t.result != s.result) = true) ∧
    (∃ s : State, nextIs (step s) (fun t => t.data != s.data) = true) ∧
    (∃ s : State, nextIs (step s) (fun t => t.rate != s.rate && t.pos != s.pos) = true) :=
  ⟨⟨pendingState (.xorl 4#3 4#3 255#8) 1#64, by decide +kernel⟩,
    ⟨pendingState (.rcgen 23#5) 0#64, by decide +kernel⟩,
    ⟨{ State.reset with moves := [wr offData 1#64] }, by decide +kernel⟩,
    ⟨{ State.reset with rate := 200#8, pos := 200#8, moves := [wr offRate 1#64] }, by decide +kernel⟩⟩

/-- RejectionIsNeverForgotten: a flag that was set, and a first rejection. -/
theorem witness_RejectionIsNeverForgotten :
    (∃ t, fullState.rejected = true ∧ step { fullState with moves := [.reset] } = .next t) ∧
    nextIs (step { State.reset with moves := [wr offCmd 0#64] }) (fun t => t.err) = true :=
  ⟨⟨_, rfl, rfl⟩, by decide +kernel⟩

/-- The coordinate ranges of the lane commands: 4 is legal, 5 and 7 are not (XORL, WRL, ROTL, ROTR). -/
theorem witness_lane_coordinates :
    (4#3).toNat ≤ 4 ∧ 4 < (5#3).toNat ∧ 4 < (7#3).toNat ∧ BitVec.ofNat 3 (4 : Fin 5).val = 4#3 := by decide

/-- RotrUndoesRotlAndXorlItself: both pairs complete, at the top of the ranges. -/
theorem witness_RotrUndoesRotlAndXorlItself :
    (∃ s t u, exec (.rotl 4#3 4#3 63#6) s = .next t ∧ exec (.rotr 4#3 4#3 63#6) t = .next u) ∧
    (∃ s t u, exec (.xorl 4#3 4#3 255#8) s = .next t ∧ exec (.xorl 4#3 4#3 255#8) t = .next u) :=
  ⟨⟨oneLane 4 4 3#64, _, _, rfl, rfl⟩, ⟨oneLane 4 4 3#64, _, _, rfl, rfl⟩⟩

/-- The round index range (IOTA, ROUND, RCGEN): 23 is legal, 24 and 31 are not. -/
theorem witness_round_indices : (23#5).toNat ≤ 23 ∧ 23 < (24#5).toNat ∧ 23 < (31#5).toNat := by decide

/-- Sponge states at the ends of the ranges: POS 0, POS = RATE = 200, and RATE = 0 (ABSORB, PAD, SQUEEZE). -/
theorem witness_sponge_states :
    SpongeReady smallState ∧ SpongeReady fullState ∧ State.reset.rate = 0#8 := by
  unfold SpongeReady
  decide

/-- AbsorbInsideBlockKeepsCapacity: the block is just filled. -/
theorem witness_AbsorbInsideBlockKeepsCapacity :
    SpongeReady { fullState with pos := 192#8 } ∧ (192#8).toNat + ((7#3).toNat + 1) ≤ fullState.rate.toNat := by
  unfold SpongeReady
  decide

theorem full_ready : SpongeReady fullState := by
  unfold SpongeReady
  decide

/-- AbsorbSplitsAnywhere: 8 = 7 + 1 bytes. -/
theorem witness_AbsorbSplitsAnywhere :
    (7#3).toNat + 1 = ((6#3).toNat + 1) + ((0#3).toNat + 1) ∧
    ∃ s t u v : State, exec (.absorb 7#3) s = .next t ∧ exec (.absorb 6#3) s = .next u ∧
      exec (.absorb 0#3) { u with pend := { u.pend with data := s.pend.data >>> (8 * ((6#3).toNat + 1)) } } =
        .next v := by
  obtain ⟨t, ht, -⟩ := exec_absorb_ready 7#3 full_ready
  obtain ⟨u, hu, hr⟩ := exec_absorb_ready 6#3 full_ready
  obtain ⟨v, hv, -⟩ := exec_absorb_ready 0#3
    (s := { u with pend := { u.pend with data := fullState.pend.data >>> (8 * ((6#3).toNat + 1)) } }) hr
  exact ⟨by decide, fullState, t, u, v, ht, hu, hv⟩

/-- PadFramesTheBlock, its clauses: the longest and the empty suffix in a ready state; SLEN = 7; SUF too long; RATE 0. -/
theorem witness_PadFramesTheBlock :
    (SpongeReady fullState ∧ (6#3).toNat ≤ 6 ∧ (63#6).toNat < 2 ^ (6#3).toNat) ∧
    (SpongeReady smallState ∧ (0#3).toNat ≤ 6 ∧ (0#6).toNat < 2 ^ (0#3).toNat) ∧
    (7#3).toNat = 7 ∧ (1#6).toNat / 2 ^ (0#3).toNat ≠ 0 ∧
    (State.reset.rate = 0#8 ∧ (6#3).toNat ≤ 6 ∧ (63#6).toNat < 2 ^ (6#3).toNat) := by
  unfold SpongeReady
  decide

/-- SqueezeSplitsAnywhere: 8 = 1 + 7 bytes. -/
theorem witness_SqueezeSplitsAnywhere :
    (7#3).toNat + 1 = ((0#3).toNat + 1) + ((6#3).toNat + 1) ∧
    ∃ s t u v : State, exec (.squeeze 7#3) s = .next t ∧ exec (.squeeze 0#3) s = .next u ∧
      exec (.squeeze 6#3) u = .next v ∧ SpongeReady s := by
  obtain ⟨t, ht, -⟩ := exec_squeeze_ready 7#3 full_ready
  obtain ⟨u, hu, hr⟩ := exec_squeeze_ready 0#3 full_ready
  obtain ⟨v, hv, -⟩ := exec_squeeze_ready 6#3 hr
  exact ⟨by decide, fullState, t, u, v, ht, hu, hv, full_ready⟩

/-- ByteSerialSpongeIsBlockSponge: the smallest and the largest rate, pieces of 1 and 8 bytes. -/
theorem witness_ByteSerialSpongeIsBlockSponge :
    (1 ≤ smallState.rate.toNat ∧ smallState.rate.toNat ≤ 200) ∧
      (1 ≤ fullState.rate.toNat ∧ fullState.rate.toNat ≤ 200) ∧
      (6#3).toNat ≤ 6 ∧ (63#6).toNat < 2 ^ (6#3).toNat ∧
      ∀ p ∈ [[1#8], List.replicate 8 2#8], 1 ≤ p.length ∧ p.length ≤ 8 := by decide

theorem witness_PaddedLengthIsLeastMultiple : 1 ≤ 1 ∧ (6#3).toNat ≤ 6 ∧ (1 ∣ 1 ∧ ([] : List Byte).length < 1) := by
  decide

/-- SpongeFaultsOutsideInvariant: each way out of R36. -/
theorem witness_SpongeFaultsOutsideInvariant :
    (overState.rate ≠ 0#8 ∧ 200 < overState.rate.toNat) ∧
      (pastState.rate ≠ 0#8 ∧ pastState.rate.toNat < pastState.pos.toNat) ∧
      (6#3).toNat ≤ 6 ∧ (63#6).toNat < 2 ^ (6#3).toNat := by decide

theorem witness_UndecodablePendingWordFaults :
    ∃ s : State, s.pend.valid = true ∧ decode s.pend.word = .error .badSuffix :=
  ⟨{ State.reset with pend := { valid := true, word := 0x7011#64, data := 0#64 } }, by decide, by decide⟩

/-- CmdWriteAcceptance, one a clause; a plain command needs no RATE. -/
theorem witness_CmdWriteAcceptance :
    fullState.err = true ∧
    ((pendingState .init 0#64).err = false ∧ (pendingState .init 0#64).pend.valid = true) ∧
    (State.reset.err = false ∧ State.reset.pend.valid = false ∧ decode 0x1800F#64 = .error .badRound) ∧
    (State.reset.rate = 0#8 ∧ decode 0x7012#64 = .ok (.squeeze 7#3) ∧ (Instr.squeeze 7#3).isSponge = true) ∧
    (smallState.err = false ∧ smallState.pend.valid = false ∧ smallState.rate ≠ 0#8) ∧
    (decode 0x01#64 = .ok .init ∧ Instr.init.isSponge = false) := by decide

/-- An error showing and an ABSORB pending. -/
def stickyState : State :=
  { fullState with pend := { valid := true, word := encode (.absorb 7#3), data := 0#64 } }

/-- StickyErrorDropsWrites: ERR = 1, idle for the writes and reads, and legal with a command pending. -/
theorem witness_StickyErrorDropsWrites :
    (fullState.err = true ∧ (2#64).getLsbD 1 = true ∧ (1#64).getLsbD 1 = false ∧ (0x110#9 : BitVec 9) ≠ 0x118#9 ∧
      ∃ t, step { fullState with err := false, errCode := 0#4, moves := [rd 0x110#9] } = .next t) ∧
    (stickyState.err = true ∧ stickyState.Inv ∧ stickyState.pend.valid = true) :=
  ⟨⟨by decide, by decide, by decide, by decide, _, rfl⟩, by decide,
    ⟨by decide, by decide, by decide, by decide, by decide, by decide⟩, by decide⟩

/-- BusyRejectsCmdAndRateWrites; and busy states for LaneWindowReadsLanes and BusyReadsAreFreeDraws. -/
theorem witness_BusyRejectsCmdAndRateWrites :
    (pendingState .init 0#64).pend.valid = true ∧ (pendingState .init 0#64).err = false := by decide

/-- RateWriteSetsRateAndClearsPos: the ends of the range, outside and inside, the whole 64 bits taken. -/
theorem witness_RateWriteSetsRateAndClearsPos :
    fullState.err = true ∧ (smallState.err = false ∧ smallState.pend.valid = false) ∧
      ((0#64).toNat < 1 ∧ 200 < (201#64).toNat ∧ 200 < (0x100000001#64).toNat) ∧
      (1 ≤ (1#64).toNat ∧ (1#64).toNat ≤ 200) ∧ (1 ≤ (200#64).toNat ∧ (200#64).toNat ≤ 200) := by decide

/-- StatusReadsFieldsAndClearsOnWrite: bit 1 set, and clear with every other bit set. -/
theorem witness_StatusReadsFieldsAndClearsOnWrite :
    (2#64).getLsbD 1 = true ∧ (0xFFFFFFFFFFFFFFFD#64).getLsbD 1 = false := by decide

/-- BusErrorsAreExactlyTheListed: the ends of each listed range, and the legal accesses beside them. -/
theorem witness_BusErrorsAreExactlyTheListed :
    (∀ a ∈ [Access.read .w64 0x0C8#9, .read .w64 0x0F8#9, .read .w64 0x130#9, .read .w64 0x1F8#9, .read .w64 0x101#9,
        .read .w32 0x100#9, .write .w64 0x0C0#9 0#64, .write .w64 0x108#9 0#64, .write .w64 0x128#9 0#64,
        .write .burst 0x110#9 0#64], busErrorAccess a) ∧
    (∀ a ∈ [Access.read .w64 0x000#9, .read .w64 0x0C0#9, .read .w64 0x100#9, .read .w64 0x110#9, .read .w64 0x128#9,
        .write .w64 0x100#9 0#64, .write .w64 0x110#9 0#64, .write .w64 0x118#9 0#64, .write .w64 0x120#9 0#64],
        ¬ busErrorAccess a) := by
  simp [busErrorAccess]

/-- LaneWindowReadsLanes, BusyReadsAreFreeDraws, IdleReadsReturnRegisters: busy, idle, and the last lane's offset. -/
theorem witness_port_reads :
    (pendingState .init 0#64).pend.valid = true ∧ State.reset.pend.valid = false ∧
      ((0x0C0#9).toNat < 0x0C8 ∧ (0x0C0#9).toNat % 8 = 0) := by decide

/-- HostAddressesDecodeToOffsets: the address right after the port. -/
theorem witness_HostAddressesDecodeToOffsets : Config.kpeBase + 0x200 ≤ Config.kpeBase + 0x200 := Nat.le_refl _

end Sys2Proof.Tests
end

section
/-!
Noninterference of the commands (00_scope.md R14, 20_memory.md R68). `SameInputs` is the relation "agree on all that a
command reads"; each shared operation keeps it, so every command does, and `exec_sameOutcome` reads this off command by
command.
-/

namespace Sys2Proof.Machine

/-! ## The relation -/

/-- The two states agree on the engine's registers and the latched operand, which is all a command reads (R14). -/
structure SameInputs (s s' : State) : Prop where
  A : s'.A = s.A
  rate : s'.rate = s.rate
  pos : s'.pos = s.pos
  result : s'.result = s.result
  latched : s'.pend.data = s.pend.data

/-- Both outcomes are next states that agree on a command's inputs, or both are the same fault; none is refused. -/
inductive SameOutcome : Result → Result → Prop where
  | next {t t' : State} (h : SameInputs t t') : SameOutcome (.next t) (.next t')
  | fault (f : Fault) : SameOutcome (.fault f) (.fault f)

theorem SameOutcome.next_of_next {r' : Result} {t : State} (h : SameOutcome (.next t) r') :
    ∃ t', r' = .next t' ∧ SameInputs t t' := by
  cases h with
  | next h => exact ⟨_, rfl, h⟩

section

variable {s s' : State} (h : SameInputs s s')
include h

/-! ## The state's operations keep the relation -/

theorem SameInputs.raiseCmdError (e : CmdErr) : SameInputs (raiseCmdError e s) (raiseCmdError e s') := by
  constructor <;> simp [h.A, h.rate, h.pos, h.result, h.latched]

theorem SameInputs.mapArray (f : StateArray → StateArray) : SameInputs (mapArray f s) (mapArray f s') := by
  constructor <;> simp [h.A, h.rate, h.pos, h.result, h.latched]

theorem SameInputs.mapLane (x y : Fin 5) (f : Lane → Lane) : SameInputs (mapLane x y f s) (mapLane x y f s') := by
  constructor <;> simp [h.A, h.rate, h.pos, h.result, h.latched]

theorem SameInputs.setResult (v : Word) : SameInputs { s with result := v } { s' with result := v } :=
  ⟨h.A, h.rate, h.pos, rfl, h.latched⟩

theorem SameInputs.nextBlock : SameInputs (nextBlock s) (nextBlock s') := by
  constructor <;> simp [nextBlock_A, nextBlock_pos, h.A, h.rate, h.pos, h.result, h.latched]

theorem SameInputs.absorbByte (b : Byte) : SameInputs (absorbByte s b) (absorbByte s' b) := by
  constructor <;> simp [h.nextBlock.A, h.nextBlock.pos, h.rate, h.result, h.latched]

theorem SameInputs.squeezeByte : SameInputs (squeezeByte s) (squeezeByte s') := by
  constructor <;> simp [h.nextBlock.A, h.nextBlock.pos, h.rate, h.result, h.latched]

theorem SameInputs.squeezedByte_eq : squeezedByte s' = squeezedByte s := by
  simp [squeezedByte, h.nextBlock.A, h.nextBlock.pos]

theorem SameInputs.padBlock (pb : Byte) : SameInputs (padBlock pb s) (padBlock pb s') where
  A := by simp [Machine.padBlock, h.nextBlock.A, h.nextBlock.pos, h.rate]
  rate := by simp [h.rate]
  pos := by simp [h.rate]
  result := by simp [h.result]
  latched := by simp [h.latched]

theorem SameInputs.absorbBytes (bs : List Byte) : SameInputs (absorbBytes bs s) (absorbBytes bs s') := by
  induction bs generalizing s s' with
  | nil => exact h
  | cons b bs ih => exact ih (h.absorbByte b)

/-- SQUEEZE's bytes are the same from both states, and so is what it leaves. -/
theorem SameInputs.squeezeBytes (n : Nat) :
    (squeezeBytes n s').1 = (squeezeBytes n s).1 ∧ SameInputs (squeezeBytes n s).2 (squeezeBytes n s').2 := by
  induction n generalizing s s' with
  | zero => exact ⟨rfl, h⟩
  | succ n ih =>
    obtain ⟨hbytes, hstate⟩ := ih h.squeezeByte
    exact ⟨congrArg₂ List.cons h.squeezedByte_eq hbytes, hstate⟩

theorem SameInputs.spongeReady (hr : SpongeReady s) : SpongeReady s' := by
  simpa only [SpongeReady, h.rate, h.pos] using hr

/-! ## The operand checks take the same way -/

theorem withLane_sameOutcome (x y : BitVec 3) {k k' : Fin 5 → Fin 5 → Result}
    (hk : ∀ x y, SameOutcome (k x y) (k' x y)) : SameOutcome (withLane x y s k) (withLane x y s' k') := by
  rcases withLane_cases x y s k with ⟨hx, hy, hs⟩ | ⟨hbad, hs⟩
  · rw [hs, withLane_legal hx hy]
    exact hk _ _
  · rw [hs, withLane_illegal hbad]
    exact .next (h.raiseCmdError _)

theorem withRound_sameOutcome (ir : BitVec 5) {k k' : Nat → Result} (hk : ∀ n, SameOutcome (k n) (k' n)) :
    SameOutcome (withRound ir s k) (withRound ir s' k') := by
  rcases withRound_cases ir s k with ⟨hir, hs⟩ | ⟨hbad, hs⟩
  · rw [hs, withRound_legal hir]
    exact hk _
  · rw [hs, withRound_illegal hbad]
    exact .next (h.raiseCmdError _)

theorem withSuffix_sameOutcome (slen : BitVec 3) (suf : BitVec 6) {k k' : Result} (hk : SameOutcome k k') :
    SameOutcome (withSuffix slen suf s k) (withSuffix slen suf s' k') := by
  cases hs : suffixLegal slen suf with
  | true => rwa [withSuffix_legal hs, withSuffix_legal hs]
  | false =>
    rw [withSuffix_illegal hs, withSuffix_illegal hs]
    exact .next (h.raiseCmdError _)

/-- RATE and POS alone decide whether a sponge command runs (42_sponge.md R160), and they agree. -/
theorem withRate_sameOutcome {k k' : Result} (hk : SameOutcome k k') :
    SameOutcome (withRate s k) (withRate s' k') := by
  rcases withRate_cases s k with ⟨h0, hs⟩ | ⟨hr, hs⟩ | ⟨h0, hout, hs⟩
  · rw [hs, withRate_zero (h.rate.trans h0)]
    exact .next (h.raiseCmdError _)
  · rwa [hs, withRate_ready (h.spongeReady hr)]
  · rw [hs, withRate_outside (h.rate ▸ h0) (by rwa [h.rate, h.pos])]
    exact .fault _

/-! ## The commands -/

/-- A command takes states that agree on its inputs to outcomes that agree on them. -/
theorem exec_sameOutcome (i : Instr) : SameOutcome (exec i s) (exec i s') := by
  cases i with
  | init => exact .next ⟨rfl, h.rate, rfl, h.result, h.latched⟩
  | xorl x y mask =>
    refine withLane_sameOutcome h x y fun x y => .next ?_
    rw [h.latched]
    exact h.mapLane x y _
  | wrl x y mask =>
    refine withLane_sameOutcome h x y fun x y => .next ?_
    rw [h.latched]
    exact h.mapLane x y _
  | rotl x y amt => exact withLane_sameOutcome h x y fun x y => .next (h.mapLane x y _)
  | rotr x y amt => exact withLane_sameOutcome h x y fun x y => .next (h.mapLane x y _)
  | theta => exact .next (h.mapArray theta)
  | rho => exact .next (h.mapArray rho)
  | pi => exact .next (h.mapArray pi)
  | chi => exact .next (h.mapArray chi)
  | iota ir => exact withRound_sameOutcome h ir fun n => .next (h.mapArray (iota · n))
  | round ir => exact withRound_sameOutcome h ir fun n => .next (h.mapArray (rnd · n))
  | permute => exact .next (h.mapArray keccakP)
  | rcgen ir => exact withRound_sameOutcome h ir fun n => .next (h.setResult (RC n))
  | absorb cnt =>
    refine withRate_sameOutcome h (.next ?_)
    rw [h.latched]
    exact h.absorbBytes _
  | pad slen suf => exact withSuffix_sameOutcome h slen suf (withRate_sameOutcome h (.next (h.padBlock _)))
  | squeeze cnt =>
    obtain ⟨hbytes, hstate⟩ := h.squeezeBytes (byteCount cnt)
    refine withRate_sameOutcome h (.next ?_)
    rw [hbytes]
    exact hstate.setResult _

end

/-- Settles O14: every operation a command is made of keeps agreement on the command's inputs. -/
theorem commandEffectDependsOnlyOnEngineState : Obligations.CommandEffectDependsOnlyOnEngineState := by
  intro i s s' t hA hrate hpos hresult hlatched hexec
  have same : SameOutcome (exec i s) (exec i s') := exec_sameOutcome ⟨hA, hrate, hpos, hresult, hlatched⟩ i
  rw [hexec] at same
  obtain ⟨t', hexec', ht⟩ := same.next_of_next
  exact ⟨t', hexec', ht.A, ht.rate, ht.pos, ht.result⟩

end Sys2Proof.Machine
end

section
/-!
The invariant of 10_state.md R36 and its preservation. The invariant speaks of RATE, POS, STATUS, the ghost flag and the
pending word alone, so what keeps those keeps it (`State.Inv.of_frame`); what writes them (a rejection, the clearing of an
error, an accepted CMD or RATE write, a reset) has a lemma of its own. `step_next` says once who can have moved.
-/

namespace Sys2Proof.Machine

/-! ## Who moves -/

/-- What a step that does not stop was: a reset, an access of the host, or the engine's turn (20_memory.md R50). -/
theorem step_next {s t : State} (h : step s = .next t) :
    (∃ ms, s.moves = .reset :: ms ∧ t = resetEvent { s with moves := ms }) ∨
      (∃ a ms, s.moves = .host a :: ms ∧ hostStep a { s with moves := ms } = .next t) ∨
      (s.engineTurn ∧ ∃ ms, engineStep { s with moves := ms } = .next t) := by
  unfold step at h
  split at h
  next hm => exact .inr (.inr ⟨.inl hm, s.moves, h⟩)
  next a ms hm => exact .inr (.inl ⟨a, ms, hm, h⟩)
  next ms hm => exact .inr (.inr ⟨.inr ⟨ms, hm⟩, ms, h⟩)
  next ms hm => exact .inl ⟨ms, hm, by simpa using h.symm⟩
  next => cases h

/-! ## The pending word -/

/-- A word is legally pending when it decodes, and under a configured RATE if its command needs one (R202). -/
theorem pendingLegal_of_decode {s : State} {i : Instr} (hd : decode s.pend.word = .ok i)
    (hr : i.isSponge = true → s.rate ≠ 0#8) : s.pendingLegal = true := by
  cases hs : i.isSponge <;> simp_all [State.pendingLegal]

theorem pendingLegal_congr {s t : State} (hp : t.pend = s.pend) (hr : t.rate = s.rate) :
    t.pendingLegal = s.pendingLegal := by
  simp [State.pendingLegal, hp, hr]

/-! ## Error codes (60_exceptions.md R200) -/

theorem cmdErr_code_range (e : CmdErr) : e.code ≠ 0#4 ∧ e.code.toNat ≤ 7 := by
  cases e <;> decide

/-! ## What keeps the invariant -/

/-- After a reset nothing is left of RATE, POS, STATUS and the pending command (70_reset_and_hazards.md R240). -/
theorem resetEvent_inv (s : State) : (resetEvent s).Inv := by
  constructor <;> simp [State.reset]

section

variable {s t : State} (h : s.Inv)
include h

/-- The invariant depends on RATE, POS, STATUS, the ghost flag and, while a command is pending, on its word. -/
theorem State.Inv.of_frame (hrate : t.rate = s.rate) (hpos : t.pos.toNat ≤ s.rate.toNat) (hst : sameStatus s t)
    (hrej : t.rejected = s.rejected) (hpend : t.pend.valid = true → t.pend = s.pend) : t.Inv where
  rate_legal := hrate ▸ h.rate_legal
  pos_legal := hrate ▸ hpos
  err_iff_code := by rw [hst.1, hst.2, h.err_iff_code]
  code_named := hst.2 ▸ h.code_named
  rejection_noted := by rw [hst.1, hrej]; exact h.rejection_noted
  pending_legal hv := by
    have hp := hpend hv
    rw [pendingLegal_congr hp hrate]
    exact h.pending_legal (hp ▸ hv)

/-- A rejection records the first error's code and notes itself in the ghost flag (R201, R204). -/
theorem raiseCmdError_inv (e : CmdErr) : (raiseCmdError e s).Inv where
  rate_legal := by simpa using h.rate_legal
  pos_legal := by simpa using h.pos_legal
  err_iff_code := by
    cases he : s.err with
    | false => simp [he, (cmdErr_code_range e).1]
    | true =>
      have : s.errCode ≠ 0#4 := fun hc => by simp [h.err_iff_code.mpr hc] at he
      simp [he, this]
  code_named := by
    cases he : s.err with
    | false => simpa [he] using (cmdErr_code_range e).2
    | true => simpa [he] using h.code_named
  rejection_noted _ := by
    cases he : s.err with
    | false => simp [he]
    | true => simpa [he] using h.rejection_noted he
  pending_legal hv := by
    rw [pendingLegal_congr (raiseCmdError_pend e s) (raiseCmdError_rate e s)]
    exact h.pending_legal (by simpa using hv)

/-- The host's return from an error (R204). -/
theorem clearError_inv : (clearError s).Inv where
  rate_legal := h.rate_legal
  pos_legal := h.pos_legal
  err_iff_code := by simp
  code_named := by simp
  rejection_noted := by simp
  pending_legal := h.pending_legal

theorem complete_inv : (complete s).Inv :=
  h.of_frame rfl h.pos_legal ⟨rfl, rfl⟩ rfl (by simp)

/-! ## The port's accesses -/

theorem readReg_inv (r : PortReg) : (readReg r s).Inv := by
  obtain ⟨⟨-, -, -, hrate, hpos, hpend⟩, hst, hrej, -⟩ := readReg_frame r s
  exact h.of_frame hrate (hpos ▸ h.pos_legal) hst hrej fun _ => hpend

/-- A CMD write latches a word only when R202's checks pass. -/
theorem issue_inv (W : Word) : (issue W s).Inv := by
  rcases issue_cases W s with ⟨-, hi⟩ | ⟨-, e, hi⟩ | ⟨-, -, i, hd, hr, hi⟩ <;> rw [hi]
  · exact h
  · exact raiseCmdError_inv h e
  · exact { h with pending_legal := fun _ => pendingLegal_of_decode hd hr }

/-- A RATE write sets RATE only to 1..200, only with nothing pending, and clears POS (R206). -/
theorem writeRate_inv (v : Word) : (writeRate v s).Inv := by
  rcases writeRate_cases v s with ⟨-, hw⟩ | ⟨-, e, hw⟩ | ⟨-, hidle, -, hv, hw⟩ <;> rw [hw]
  · exact h
  · exact raiseCmdError_inv h e
  · exact { h with
      rate_legal := by simp; omega
      pos_legal := by simp
      pending_legal := by simp [hidle] }

theorem writeStatus_inv (v : Word) : (writeStatus v s).Inv := by
  rcases writeStatus_cases v s with hw | hw <;> rw [hw]
  · exact clearError_inv h
  · exact h

theorem writeReg_inv (r : PortReg) (v : Word) : (writeReg r v s).Inv := by
  cases r with
  | cmd => exact issue_inv h v
  | rate => exact writeRate_inv h v
  | status => exact writeStatus_inv h v
  | data => exact { h with }
  | lane _ => exact h
  | result => exact h
  | pos => exact h

theorem hostStep_inv {a : Access} (hs : hostStep a s = .next t) : t.Inv := by
  rcases hostStep_cases a s with ⟨_, _, r, -, -, hn⟩ | ⟨_, _, v, r, -, -, hn⟩ | ⟨-, hn⟩ <;> rw [hn] at hs <;> cases hs
  · exact readReg_inv h r
  · exact { writeReg_inv h r v with }

/-! ## The engine's turn -/

/-- A completed command keeps RATE and STATUS and leaves POS in the block. -/
theorem Completes.inv (hc : Completes s t) : t.Inv := by
  obtain ⟨-, hrate, hst, hpend, hrej, -⟩ := hc.frame
  refine h.of_frame hrate ?_ hst hrej fun _ => hpend
  rcases hc.pos_cases with hp | hp | ⟨-, -, hp⟩
  · exact hp ▸ h.pos_legal
  · simp [hp]
  · exact hrate ▸ hp

theorem exec_inv {i : Instr} (he : exec i s = .next t) : t.Inv := by
  rcases exec_cases i s with ⟨e, hr⟩ | ⟨u, hu, hc⟩ | ⟨hf, -⟩
  · cases hr.symm.trans he
    exact raiseCmdError_inv h e
  · cases hu.symm.trans he
    exact hc.inv h
  · cases hf.symm.trans he

theorem engineStep_inv (hs : engineStep s = .next t) : t.Inv := by
  rcases engineStep_next hs with ⟨-, rfl⟩ | ⟨i, u, -, -, hu, rfl⟩
  · exact h
  · exact complete_inv (exec_inv h hu)

/-- The order of the environment's moves is no part of the invariant. -/
theorem State.Inv.setMoves (ms : List Move) : State.Inv { s with moves := ms } := { h with }

end

/-- Settles O4: a reset, a host access and an engine turn each keep the invariant. -/
theorem stepKeepsInvariant : Obligations.StepKeepsInvariant := by
  intro s t h hs
  rcases step_next hs with ⟨ms, -, rfl⟩ | ⟨a, ms, -, ha⟩ | ⟨-, ms, he⟩
  · exact resetEvent_inv _
  · exact hostStep_inv (h.setMoves ms) ha
  · exact engineStep_inv (h.setMoves ms) he

/-- Settles O3: the reset state is what a reset event makes of itself. -/
theorem resetStateMeetsInvariant : Obligations.ResetStateMeetsInvariant := resetEvent_inv State.reset

end Sys2Proof.Machine
end

section
/-!
The port's accesses as steps: every register stands at one offset (20_memory.md R53), a legal access of it is the step's
read or write of that register, and a read that is not a busy hazard returns the register and changes nothing else (R59).
-/

namespace Sys2Proof.Machine

/-! ## Offsets (20_memory.md R53, R54) -/

/-- The offset of a register (R53). -/
def PortReg.offset : PortReg → BitVec 9
  | .lane i => offLane i
  | .data => offData
  | .result => offResult
  | .cmd => offCmd
  | .status => offStatus
  | .rate => offRate
  | .pos => offPos

theorem regAt_offset (r : PortReg) : regAt r.offset = some r := by
  cases r with
  | lane i => revert i; decide
  | data => rfl
  | result => rfl
  | cmd => rfl
  | status => rfl
  | rate => rfl
  | pos => rfl

/-- A register stands at no other offset. -/
theorem eq_offset_of_regAt {o : BitVec 9} {r : PortReg} (h : regAt o = some r) : o = r.offset := by
  simp only [regAt] at h
  split at h
  · cases h
  · split at h
    next hal hlane =>
      cases h
      apply BitVec.eq_of_toNat_eq
      simp [PortReg.offset, offLane]
      omega
    next => split at h <;> cases h <;> exact BitVec.eq_of_toNat_eq ‹_›

theorem readable_eq_some_iff {w : Width} {o : BitVec 9} {r : PortReg} :
    readable w o = some r ↔ w = .w64 ∧ o = r.offset := by
  constructor
  · intro h
    by_cases hw : w = .w64
    · exact ⟨hw, eq_offset_of_regAt (by simpa [readable, hw] using h)⟩
    · simp [readable, hw] at h
  · rintro ⟨rfl, rfl⟩
    simpa [readable] using regAt_offset r

/-- What may be written stands at the same offset for a read (R57 c). -/
theorem readable_of_writable {w : Width} {o : BitVec 9} {r : PortReg} (h : writable w o = some r) :
    readable w o = some r := by
  unfold writable at h
  split at h <;> simp_all

/-! ## One access as a step -/

theorem hostStep_read (r : PortReg) (s : State) : hostStep (.read .w64 r.offset) s = .next (readReg r s) := by
  simp [hostStep, readable_eq_some_iff.mpr ⟨rfl, rfl⟩]

theorem hostStep_writeData (v : Word) (s : State) :
    hostStep (.write .w64 offData v) s = .next { s with data := v, replies := .done :: s.replies } := rfl

/-- A read of a register that is defined returns its value and has no other effect (R59, R64). -/
theorem readReg_defined {r : PortReg} {s : State} (h : s.pend.valid = false ∨ r.unspecifiedWhileBusy = false) :
    readReg r s = { s with replies := .value (regValue r s) :: s.replies } := by
  rcases h with h | h <;> simp [readReg, State.busy, h]

theorem step_read_defined {r : PortReg} {s : State} (ms : List Move)
    (h : s.pend.valid = false ∨ r.unspecifiedWhileBusy = false) :
    step { s with moves := .host (.read .w64 r.offset) :: ms } =
      .next { s with moves := ms, replies := .value (regValue r { s with moves := ms }) :: s.replies } :=
  (hostStep_read r { s with moves := ms }).trans (congrArg _ (readReg_defined h))

/-- Settles O57: DATA is defined while busy too, so it is read as the last write left it. -/
theorem dataHoldsLastHostWrite : Obligations.DataHoldsLastHostWrite := fun s v ms =>
  ⟨hostStep_writeData v { s with moves := ms }, step_read_defined (r := .data) ms (.inr rfl)⟩

/-- Settles O58: with nothing pending RESULT, RATE and POS are defined. -/
theorem idleReadsReturnRegisters : Obligations.IdleReadsReturnRegisters := fun s ms hidle =>
  ⟨step_read_defined (r := .result) ms (.inl hidle),
    ⟨_, step_read_defined (r := .rate) ms (.inl hidle), BitVec.toNat_setWidth_of_le (by decide)⟩,
    ⟨_, step_read_defined (r := .pos) ms (.inl hidle), BitVec.toNat_setWidth_of_le (by decide)⟩⟩

end Sys2Proof.Machine
end

section
/-!
Which registers each event writes (10_state.md R20, R26, R27, R29, R30): what a command may change, what a host access may
change, and the step assembled from the two.
-/

namespace Sys2Proof.Machine

/-! ## Commands -/

/-- `i` changed no register but those it is a writer of: the array for all but RCGEN (R20), RESULT for SQUEEZE and RCGEN
(R27), POS for INIT and the sponge commands (R30), DATA and RATE for none (R26, R29). -/
structure WritesOnlyOwn (i : Instr) (s t : State) : Prop where
  A : t.A ≠ s.A → ∀ ir, i ≠ .rcgen ir
  result : t.result ≠ s.result → (∃ cnt, i = .squeeze cnt) ∨ ∃ ir, i = .rcgen ir
  pos : t.pos ≠ s.pos → i = .init ∨ i.isSponge = true
  data : t.data = s.data
  rate : t.rate = s.rate

/-- Every next state of an outcome satisfies `P`. -/
def NextSatisfies (P : State → Prop) (r : Result) : Prop := ∀ t, r = .next t → P t

theorem NextSatisfies.next {P : State → Prop} {t : State} (h : P t) : NextSatisfies P (.next t) := by
  rintro _ ⟨⟩
  exact h

section

variable {P : State → Prop} {s : State} (hr : ∀ e, P (raiseCmdError e s))
include hr

theorem withLane_nextSatisfies (x y : BitVec 3) {k : Fin 5 → Fin 5 → Result} (hk : ∀ x y, NextSatisfies P (k x y)) :
    NextSatisfies P (withLane x y s k) := by
  rcases withLane_cases x y s k with ⟨hx, hy, h⟩ | ⟨-, h⟩ <;> rw [h]
  · exact hk _ _
  · exact .next (hr _)

theorem withRound_nextSatisfies (ir : BitVec 5) {k : Nat → Result} (hk : ∀ n, NextSatisfies P (k n)) :
    NextSatisfies P (withRound ir s k) := by
  rcases withRound_cases ir s k with ⟨-, h⟩ | ⟨-, h⟩ <;> rw [h]
  · exact hk _
  · exact .next (hr _)

theorem withSuffix_nextSatisfies (slen : BitVec 3) (suf : BitVec 6) {k : Result} (hk : NextSatisfies P k) :
    NextSatisfies P (withSuffix slen suf s k) := by
  cases hs : suffixLegal slen suf with
  | true => rwa [withSuffix_legal hs]
  | false =>
    rw [withSuffix_illegal hs]
    exact .next (hr _)

theorem withRate_nextSatisfies {k : Result} (hk : NextSatisfies P k) : NextSatisfies P (withRate s k) := by
  rcases withRate_cases s k with ⟨-, h⟩ | ⟨-, h⟩ | ⟨-, -, h⟩ <;> rw [h]
  · exact .next (hr _)
  · exact hk
  · exact nofun

end

section

variable {i : Instr} (s : State)

theorem raiseCmdError_writesOnlyOwn (e : CmdErr) : WritesOnlyOwn i s (raiseCmdError e s) := by
  constructor <;> simp

/-- Only the array changes, which every command but RCGEN may do. -/
theorem writesOnlyOwn_array (hi : ∀ ir, i ≠ .rcgen ir) (A : StateArray) : WritesOnlyOwn i s { s with A := A } :=
  ⟨fun _ => hi, by simp, by simp, rfl, rfl⟩

/-- A sponge command whose next state has the frame of its rule. -/
theorem writesOnlyOwn_sponge {t : State} (hi : i.isSponge = true) (hf : sameButArrayResultPos s t)
    (hres : t.result ≠ s.result → ∃ cnt, i = .squeeze cnt) : WritesOnlyOwn i s t where
  A _ := by rintro ir rfl; simp [Instr.isSponge] at hi
  result h := .inl (hres h)
  pos _ := .inr hi
  data := hf.1
  rate := hf.2.1

end

/-- Every command writes only registers it is a writer of. -/
theorem exec_writesOnlyOwn (i : Instr) (s : State) : NextSatisfies (WritesOnlyOwn i s) (exec i s) := by
  have hr := raiseCmdError_writesOnlyOwn (i := i) s
  cases i with
  | init => exact .next ⟨fun _ => nofun, by simp, fun _ => .inl rfl, rfl, rfl⟩
  | xorl x y _ => exact withLane_nextSatisfies hr x y fun _ _ => .next (writesOnlyOwn_array s (by simp) _)
  | wrl x y _ => exact withLane_nextSatisfies hr x y fun _ _ => .next (writesOnlyOwn_array s (by simp) _)
  | rotl x y _ => exact withLane_nextSatisfies hr x y fun _ _ => .next (writesOnlyOwn_array s (by simp) _)
  | rotr x y _ => exact withLane_nextSatisfies hr x y fun _ _ => .next (writesOnlyOwn_array s (by simp) _)
  | theta => exact .next (writesOnlyOwn_array s (by simp) _)
  | rho => exact .next (writesOnlyOwn_array s (by simp) _)
  | pi => exact .next (writesOnlyOwn_array s (by simp) _)
  | chi => exact .next (writesOnlyOwn_array s (by simp) _)
  | iota ir => exact withRound_nextSatisfies hr ir fun _ => .next (writesOnlyOwn_array s (by simp) _)
  | round ir => exact withRound_nextSatisfies hr ir fun _ => .next (writesOnlyOwn_array s (by simp) _)
  | permute => exact .next (writesOnlyOwn_array s (by simp) _)
  | rcgen ir =>
    exact withRound_nextSatisfies hr ir fun _ => .next ⟨by simp, fun _ => .inr ⟨ir, rfl⟩, by simp, rfl, rfl⟩
  | absorb cnt =>
    obtain ⟨hf, hres⟩ := absorbBytes_frame (lowBytes s.pend.data (byteCount cnt)) s
    exact withRate_nextSatisfies hr (.next (writesOnlyOwn_sponge s rfl hf fun h => absurd hres h))
  | pad slen suf =>
    have hf : sameButArrayResultPos s (padBlock (padByte slen suf) s) := by
      simp [sameButArrayResultPos, sameStatus, sameEnv]
    exact withSuffix_nextSatisfies hr slen suf
      (withRate_nextSatisfies hr (.next (writesOnlyOwn_sponge s rfl hf fun h => absurd (by simp) h)))
  | squeeze cnt =>
    obtain ⟨hf, -⟩ := squeezeBytes_frame (byteCount cnt) s
    exact withRate_nextSatisfies hr (.next (writesOnlyOwn_sponge s rfl hf fun _ => ⟨cnt, rfl⟩))

/-! ## Host accesses -/

/-- A host access changes neither the array nor RESULT, DATA only by a write of DATA, and RATE and POS only by a write of
RATE. -/
structure HostWritesOnly (a : Access) (s t : State) : Prop where
  A : t.A = s.A
  result : t.result = s.result
  data : t.data ≠ s.data → ∃ v, a = .write .w64 offData v
  rate : t.rate ≠ s.rate → ∃ v, a = .write .w64 offRate v
  pos : t.pos ≠ s.pos → ∃ v, a = .write .w64 offRate v

/-- An access that leaves the registers alone. -/
theorem hostWritesOnly_of_same {a : Access} {s t : State} (hA : t.A = s.A) (hdata : t.data = s.data)
    (hresult : t.result = s.result) (hrate : t.rate = s.rate) (hpos : t.pos = s.pos) : HostWritesOnly a s t :=
  ⟨hA, hresult, fun h => absurd hdata h, fun h => absurd hrate h, fun h => absurd hpos h⟩

theorem writeReg_hostWritesOnly {w : Width} {o : BitVec 9} {r : PortReg} (v : Word) (s : State)
    (h : writable w o = some r) : HostWritesOnly (.write w o v) s (writeReg r v s) := by
  obtain ⟨rfl, rfl⟩ := readable_eq_some_iff.mp (readable_of_writable h)
  cases r with
  | data => exact ⟨rfl, rfl, fun _ => ⟨v, rfl⟩, fun h => absurd rfl h, fun h => absurd rfl h⟩
  | cmd =>
    rcases issue_cases v s with ⟨-, hi⟩ | ⟨-, e, hi⟩ | ⟨-, -, i, -, -, hi⟩ <;>
      apply hostWritesOnly_of_same <;> simp [writeReg, hi]
  | status =>
    rcases writeStatus_cases v s with hw | hw <;> apply hostWritesOnly_of_same <;> simp [writeReg, hw]
  | rate =>
    rcases writeRate_cases v s with ⟨-, hw⟩ | ⟨-, e, hw⟩ | ⟨-, -, -, -, hw⟩
    · apply hostWritesOnly_of_same <;> simp [writeReg, hw]
    · apply hostWritesOnly_of_same <;> simp [writeReg, hw]
    · exact ⟨by simp [writeReg, hw], by simp [writeReg, hw], by simp [writeReg, hw], fun _ => ⟨v, rfl⟩,
        fun _ => ⟨v, rfl⟩⟩
  | lane _ => exact hostWritesOnly_of_same rfl rfl rfl rfl rfl
  | result => exact hostWritesOnly_of_same rfl rfl rfl rfl rfl
  | pos => exact hostWritesOnly_of_same rfl rfl rfl rfl rfl

theorem hostStep_hostWritesOnly {a : Access} {s t : State} (hs : hostStep a s = .next t) : HostWritesOnly a s t := by
  rcases hostStep_cases a s with ⟨_, _, r, -, -, hn⟩ | ⟨w, o, v, r, rfl, hw, hn⟩ | ⟨-, hn⟩ <;> rw [hn] at hs <;> cases hs
  · obtain ⟨⟨hA, hdata, hresult, hrate, hpos, -⟩, -⟩ := readReg_frame r s
    exact hostWritesOnly_of_same hA hdata hresult hrate hpos
  · exact { writeReg_hostWritesOnly v s hw with }

/-! ## The step -/

/-- The engine's turn completes nothing and changes nothing, or completes the pending command, which writes only its own
registers. -/
theorem engineStep_writesOnlyOwn {s t : State} (hs : engineStep s = .next t) :
    t = s ∨ ∃ i, s.pend.valid = true ∧ decode s.pend.word = .ok i ∧ WritesOnlyOwn i s t := by
  rcases engineStep_next hs with ⟨-, ht⟩ | ⟨i, u, hv, hd, hu, rfl⟩
  · exact .inl ht
  · exact .inr ⟨i, hv, hd, { exec_writesOnlyOwn i s u hu with }⟩

/-- Settles O15: what the reset, the host and the completed command may each write. -/
theorem registersChangeOnlyByTheirWriters : Obligations.RegistersChangeOnlyByTheirWriters := by
  intro s t hs
  rcases step_next hs with ⟨ms, hm, -⟩ | ⟨a, ms, hm, ha⟩ | ⟨hturn, ms, he⟩
  · have hreset : ∃ ms, s.moves = .reset :: ms := ⟨ms, hm⟩
    exact ⟨fun _ => .inl hreset, fun _ => .inl hreset, fun _ => .inl hreset, fun _ => .inl hreset,
      fun _ => .inl hreset⟩
  · obtain ⟨hA, hresult, hdata, hrate, hpos⟩ := hostStep_hostWritesOnly ha
    have hmoves : ∀ o, (∃ v, a = .write .w64 o v) → ∃ v ms, s.moves = .host (.write .w64 o v) :: ms := by
      rintro o ⟨v, rfl⟩
      exact ⟨v, ms, hm⟩
    exact ⟨fun h => absurd hA h, fun h => absurd hresult h, fun h => .inr (hmoves _ (hdata h)),
      fun h => .inr (hmoves _ (hrate h)), fun h => .inr (.inl (hmoves _ (hpos h)))⟩
  · rcases engineStep_writesOnlyOwn he with rfl | ⟨i, hv, hd, hw⟩
    · simp
    · have hc : s.completes i := ⟨hturn, hv, hd⟩
      exact ⟨fun h => .inr ⟨i, hc, hw.A h⟩, fun h => .inr ⟨i, hc, hw.result h⟩, fun h => absurd hw.data h,
        fun h => absurd hw.rate h, fun h => .inr (.inr ⟨i, hc, hw.pos h⟩)⟩

end Sys2Proof.Machine
end

section
/-!
The byte view of the state array (10_state.md R22 to R24) and what the sponge commands do through it: the bytes name the
lanes' bits, 200 bytes are the bytes of one array, and ABSORB inside the block reaches its own bytes only (R25).
-/

namespace Sys2Proof.Machine

/-! ## Bytes and lanes (R22, R23) -/

/-- State byte k is byte k mod 8 of the lane that R23 names. -/
theorem memRead_eq_wordByte_laneAt (A : StateArray) (k : Nat) (hk : k < 200) :
    memRead A k = wordByte (laneAt A ⟨k / 8 % 5, Nat.mod_lt _ (Nat.succ_pos 4)⟩ ⟨k / 8 / 5, by omega⟩) (k % 8) := by
  have hlane := laneIndex_surj ⟨k / 8, by omega⟩
  simp only [laneAt, hlane, memRead_eq A k hk, Fin.getElem_fin]

/-- Byte j of lane (x,y) is state byte `8(5y + x) + j`. -/
theorem memRead_lane (A : StateArray) (x y : Fin 5) (j : Nat) (hj : j < 8) :
    memRead A (8 * (5 * y.val + x.val) + j) = wordByte (laneAt A x y) j := by
  have hdiv : (8 * (5 * y.val + x.val) + j) / 8 = 5 * y.val + x.val := by omega
  have hmod : (8 * (5 * y.val + x.val) + j) % 8 = j := by omega
  rw [memRead_eq _ _ (by omega)]
  simp only [hdiv, hmod, laneAt, laneIndex, Fin.getElem_fin]

theorem toNat_wordByte (w : Word) (j : Nat) : (wordByte w j).toNat = w.toNat / 2 ^ (8 * j) % 2 ^ 8 := by
  simp [wordByte, Nat.shiftRight_eq_div_pow]

/-- The little-endian sum of the low n bytes of a word is the word mod `2^(8n)`. -/
theorem sum_wordByte (w : Word) (n : Nat) :
    ((List.range n).map fun j => (wordByte w j).toNat * 2 ^ (8 * j)).sum = w.toNat % 2 ^ (8 * n) := by
  induction n with
  | zero => simp [Nat.mod_one]
  | succ n ih =>
    rw [List.range_succ, List.map_append, List.sum_append, ih, Nat.mul_succ, Nat.pow_add, Nat.mod_mul]
    simp [toNat_wordByte, Nat.mul_comm]

/-- Settles O36: a state byte is a byte of its lane, and a lane is the sum of all its bytes. -/
theorem stateBytesNameTheLaneBits : Obligations.StateBytesNameTheLaneBits := by
  intro A
  constructor
  · intro k b hk hb
    rw [memRead_eq_wordByte_laneAt A k hk, getLsbD_wordByte, decide_eq_true hb, Bool.true_and, bitAt]
  · intro x y
    calc (laneAt A x y).toNat
        = (laneAt A x y).toNat % 2 ^ (8 * 8) := (Nat.mod_eq_of_lt (laneAt A x y).isLt).symm
      _ = ((List.range 8).map fun j => (wordByte (laneAt A x y) j).toNat * 2 ^ (8 * j)).sum := (sum_wordByte _ 8).symm
      _ = _ := congrArg List.sum (List.map_congr_left fun j hj => by rw [memRead_lane A x y j (List.mem_range.mp hj)])

/-! ## Byte buffers (R24) -/

/-- The array whose lane i is packed from bytes 8i to 8i+7 of the buffer: R24's `toBits`. -/
def arrayOfBytes (buf : Nat → Byte) : StateArray :=
  Vector.ofFn fun i : Fin 25 => packBytes ((List.range 8).map fun j => buf (8 * i.val + j))

theorem memRead_arrayOfBytes (buf : Nat → Byte) (k : Nat) (hk : k < 200) : memRead (arrayOfBytes buf) k = buf k := by
  have hmod : k % 8 < 8 := Nat.mod_lt _ (by decide)
  rw [memRead_eq _ _ hk, arrayOfBytes, Vector.getElem_ofFn, wordByte_packBytes _ _ hmod]
  simp [hmod, Nat.div_add_mod]

/-- Settles O37: `arrayOfBytes` is one such array, and an array is determined by its bytes. -/
theorem byteBufferRoundTrips : Obligations.ByteBufferRoundTrips := fun buf =>
  ⟨arrayOfBytes buf, memRead_arrayOfBytes buf, fun _ hB =>
    array_ext_bytes fun k hk => (hB k hk).trans (memRead_arrayOfBytes buf k hk).symm⟩

/-! ## ABSORB inside the block (R25) -/

/-- No block step is owed while POS is short of RATE (42_sponge.md R161). -/
theorem nextBlock_of_pos_lt {s : State} (h : s.pos.toNat < s.rate.toNat) : nextBlock s = s :=
  if_neg fun he => absurd (congrArg BitVec.toNat he) (Nat.ne_of_lt h)

/-- Bytes that fit into the block are XORed into the state bytes from POS on, and POS moves past them. -/
theorem absorbBytes_inside (bs : List Byte) {s : State} (h : SpongeReady s)
    (hfit : s.pos.toNat + bs.length ≤ s.rate.toNat) :
    (absorbBytes bs s).pos.toNat = s.pos.toNat + bs.length ∧
      ∀ k < 200, memRead (absorbBytes bs s).A k =
        if s.pos.toNat ≤ k ∧ k < s.pos.toNat + bs.length
        then memRead s.A k ^^^ bs.getD (k - s.pos.toNat) 0#8 else memRead s.A k := by
  induction bs generalizing s with
  | nil => exact ⟨rfl, fun k _ => (if_neg (by simp)).symm⟩
  | cons b bs ih =>
    rw [List.length_cons] at hfit
    have hnext : nextBlock s = s := nextBlock_of_pos_lt (by omega)
    have hpos : (absorbByte s b).pos.toNat = s.pos.toNat + 1 := by
      rw [absorbByte_pos, nextBlock_pos_succ h, hnext]
    have hbyte := memRead_absorbByte h b
    rw [hnext] at hbyte
    obtain ⟨hend, hbytes⟩ := ih (absorbByte_ready h b) (by rw [hpos, absorbByte_rate]; omega)
    rw [hpos] at hend hbytes
    refine ⟨by rw [absorbBytes_cons, hend, List.length_cons]; omega, fun k hk => ?_⟩
    rw [absorbBytes_cons, hbytes k hk, hbyte k hk, List.length_cons]
    rcases Nat.lt_trichotomy k s.pos.toNat with hlt | rfl | hgt
    · rw [if_neg (by omega), if_neg (by omega), if_neg (by omega)]
    · simp
    · have hsub : k - s.pos.toNat = k - (s.pos.toNat + 1) + 1 := by omega
      rw [if_neg (by omega : k ≠ s.pos.toNat), hsub, List.getD_cons_succ]
      exact if_congr (by omega) rfl rfl

theorem getD_lowBytes (w : Word) {n j : Nat} (h : j < n) : (lowBytes w n).getD j 0#8 = wordByte w j := by
  simp [lowBytes, h]

/-- Settles O39: `absorbBytes_inside` for the bytes of the latched DATA; the capacity starts at RATE, past them all. -/
theorem absorbInsideBlockKeepsCapacity : Obligations.AbsorbInsideBlockKeepsCapacity := by
  intro cnt s h hfit
  obtain ⟨hpos, hbytes⟩ := absorbBytes_inside (lowBytes s.pend.data (byteCount cnt)) h (by simpa [byteCount] using hfit)
  rw [length_lowBytes, byteCount] at hpos hbytes
  refine ⟨_, withRate_ready h _, fun k hk => ?_, fun k hk hcap => ?_, hpos⟩
  · rw [byteCount, hbytes k hk]
    exact ite_congr rfl (fun hin => by rw [getD_lowBytes _ (by omega)]) fun _ => rfl
  · rw [byteCount, hbytes k hk, if_neg (by omega)]

/-! ## The stop outside R36 (log 5) -/

/-- Settles O46: each sponge command comes to the RATE check, PAD's suffix being legal. -/
theorem spongeFaultsOutsideInvariant : Obligations.SpongeFaultsOutsideInvariant := fun s _ _ _ h0 hout =>
  ⟨withRate_outside h0 hout _, withRate_outside h0 hout _, fun hslen hsuf =>
    (withSuffix_legal (suffixLegal_of_range (Nat.lt_succ_of_le hslen) hsuf) s _).trans (withRate_outside h0 hout _)⟩

end Sys2Proof.Machine
end

section
/-!
The port as a window on the registers (20_memory.md R51 to R64): which offsets are mapped and which accesses are bus
errors, in R57's numbers; the read of a register that is a free draw while busy (R64); the decoding of host addresses;
and the engine's turn as the step that runs the pending command (R63).
-/

namespace Sys2Proof.Machine

/-! ## The engine's turn (20_memory.md R63) -/

theorem engineStep_of_exec_next {s u : State} {i : Instr} (hv : s.pend.valid = true) (hd : decode s.pend.word = .ok i)
    (hu : exec i s = .next u) : engineStep s = .next (complete u) := by
  rw [engineStep_pending hv hd, hu, completed]

theorem engineStep_of_exec_fault {s : State} {i : Instr} {f : Fault} (hv : s.pend.valid = true)
    (hd : decode s.pend.word = .ok i) (hf : exec i s = .fault f) : engineStep s = .fault f := by
  rw [engineStep_pending hv hd, hf, completed]

/-- Settles O9: a step is the engine's turn where its move is next, and where no move is left (log 2). -/
theorem engineStepRunsPendingCommand : Obligations.EngineStepRunsPendingCommand := fun s ms =>
  ⟨fun _ hv hd =>
    ⟨fun _ => engineStep_of_exec_next (s := { s with moves := ms }) hv hd,
      fun _ => engineStep_of_exec_fault (s := { s with moves := ms }) hv hd,
      fun _ => engineStep_of_exec_next (s := { s with moves := [] }) hv hd⟩,
    engineStep_idle (s := { s with moves := ms })⟩

/-! ## Mapped offsets (20_memory.md R53, R54) -/

theorem toNat_offLane (i : Fin 25) : (offLane i).toNat = 8 * i.val := by
  rw [offLane, BitVec.toNat_ofNat, Nat.mod_eq_of_lt (by omega)]

theorem offLane_lt (i : Fin 25) : (offLane i).toNat < 0x0C8 := by
  rw [toNat_offLane]
  omega

/-- An offset of the lane window that is a multiple of 8 is the offset of a lane. -/
theorem exists_offLane_eq {o : BitVec 9} (hlt : o.toNat < 0x0C8) (hal : o.toNat % 8 = 0) : ∃ i, offLane i = o := by
  refine ⟨⟨o.toNat / 8, by omega⟩, BitVec.eq_of_toNat_eq ?_⟩
  rw [toNat_offLane]
  exact Nat.mul_div_cancel' (Nat.dvd_of_mod_eq_zero hal)

/-- The mapped offsets (R53): the multiples of 8 in the lane window and from DATA to POS. -/
theorem exists_offset_eq_iff (o : BitVec 9) :
    (∃ r : PortReg, o = r.offset) ↔
      o.toNat % 8 = 0 ∧ (o.toNat < 0x0C8 ∨ 0x100 ≤ o.toNat ∧ o.toNat < 0x130) := by
  constructor
  · rintro ⟨r, rfl⟩
    cases r with
    | lane i =>
      rw [PortReg.offset, toNat_offLane]
      omega
    | data | result | cmd | status | rate | pos => decide
  · rintro ⟨hal, hlt | hreg⟩
    · obtain ⟨i, rfl⟩ := exists_offLane_eq hlt hal
      exact ⟨.lane i, rfl⟩
    · have hsix : o.toNat = 0x100 ∨ o.toNat = 0x108 ∨ o.toNat = 0x110 ∨ o.toNat = 0x118 ∨ o.toNat = 0x120 ∨
          o.toNat = 0x128 := by omega
      rcases hsix with h | h | h | h | h | h
      · exact ⟨.data, BitVec.eq_of_toNat_eq h⟩
      · exact ⟨.result, BitVec.eq_of_toNat_eq h⟩
      · exact ⟨.cmd, BitVec.eq_of_toNat_eq h⟩
      · exact ⟨.status, BitVec.eq_of_toNat_eq h⟩
      · exact ⟨.rate, BitVec.eq_of_toNat_eq h⟩
      · exact ⟨.pos, BitVec.eq_of_toNat_eq h⟩

/-- A read is answered with BusError for its width, its alignment or a reserved offset (R57 a, b). -/
theorem readable_eq_none_iff (w : Width) (o : BitVec 9) :
    readable w o = none ↔
      w ≠ .w64 ∨ o.toNat % 8 ≠ 0 ∨ (0x0C8 ≤ o.toNat ∧ o.toNat < 0x100) ∨ 0x130 ≤ o.toNat := by
  have hmapped : (∃ r, readable w o = some r) ↔
      w = .w64 ∧ o.toNat % 8 = 0 ∧ (o.toNat < 0x0C8 ∨ 0x100 ≤ o.toNat ∧ o.toNat < 0x130) := by
    rw [← exists_offset_eq_iff, ← exists_and_left]
    exact exists_congr fun _ => readable_eq_some_iff
  rw [Option.eq_none_iff_forall_ne_some, ← not_exists, hmapped, not_and_or]
  exact or_congr Iff.rfl (by omega)

/-- A write is refused where a read is, and at the read-only registers LANE[i], RESULT and POS (R57 c). -/
theorem writable_eq_none_iff (w : Width) (o : BitVec 9) :
    writable w o = none ↔
      readable w o = none ∨ o.toNat < 0x0C8 ∨ o.toNat = 0x108 ∨ o.toNat = 0x128 := by
  cases hr : readable w o with
  | none => simp [writable, hr]
  | some r =>
    obtain ⟨-, rfl⟩ := readable_eq_some_iff.mp hr
    simp only [writable, hr]
    cases r with
    | lane i => simp [PortReg.offset, offLane_lt]
    | data | result | cmd | status | rate | pos => decide

/-! ## Bus errors (20_memory.md R57) -/

/-- The port's test for a bus error is R57's list. -/
theorem isBusError_iff (a : Access) : a.isBusError = true ↔ busErrorAccess a := by
  cases a with
  | read w o => simp only [Access.isBusError, Option.isNone_iff_eq_none, readable_eq_none_iff, busErrorAccess]
  | write w o v =>
    simp only [Access.isBusError, Option.isNone_iff_eq_none, writable_eq_none_iff, readable_eq_none_iff,
      busErrorAccess, or_assoc]

/-- A write to a register leaves the environment's moves alone. -/
theorem writeReg_moves (r : PortReg) (v : Word) (s : State) : (writeReg r v s).moves = s.moves := by
  cases r with
  | cmd =>
    rcases issue_cases v s with ⟨-, hi⟩ | ⟨-, e, hi⟩ | ⟨-, -, i, -, -, hi⟩ <;> simp [writeReg, hi]
  | status => rcases writeStatus_cases v s with hw | hw <;> simp [writeReg, hw]
  | rate =>
    rcases writeRate_cases v s with ⟨-, hw⟩ | ⟨-, e, hw⟩ | ⟨-, -, -, -, hw⟩ <;> simp [writeReg, hw]
  | data | lane | result | pos => rfl

theorem hostStep_busError {a : Access} (h : busErrorAccess a) (s : State) : hostStep a s = .fault (.busError a) := by
  have hbe := (isBusError_iff a).mpr h
  rcases hostStep_cases a s with ⟨w, o, r, rfl, hr, -⟩ | ⟨w, o, v, r, rfl, hw, -⟩ | ⟨-, hf⟩
  · simp [Access.isBusError, hr] at hbe
  · simp [Access.isBusError, hw] at hbe
  · exact hf

theorem hostStep_taken {a : Access} (h : ¬ busErrorAccess a) (s : State) :
    ∃ t, hostStep a s = .next t ∧ t.moves = s.moves := by
  rcases hostStep_cases a s with ⟨_, _, r, -, -, hn⟩ | ⟨_, _, v, r, -, -, hn⟩ | ⟨hbe, -⟩
  · exact ⟨_, hn, (readReg_frame r s).2.2.2⟩
  · exact ⟨_, hn, writeReg_moves r v s⟩
  · exact absurd ((isBusError_iff a).mp hbe) h

/-- Settles O53: a host's move is its access, which R57's list decides. -/
theorem busErrorsAreExactlyTheListed : Obligations.BusErrorsAreExactlyTheListed := fun s _ ms =>
  ⟨fun h => hostStep_busError h { s with moves := ms }, fun h => hostStep_taken h { s with moves := ms }⟩

/-! ## Reads (20_memory.md R56, R58, R64) -/

/-- A read of a register that is unspecified while busy takes the next free draw (R64; log 4). -/
theorem step_read_busy {r : PortReg} {s : State} (ms : List Move) (hbusy : s.pend.valid = true)
    (hr : r.unspecifiedWhileBusy = true) :
    step { s with moves := .host (.read .w64 r.offset) :: ms } =
      .next { s with
        moves := ms
        replies := .value (Config.busyRead s.draws) :: s.replies
        draws := s.draws + 1 } :=
  (hostStep_read r { s with moves := ms }).trans (by simp [readReg, State.busy, hbusy, hr])

theorem regValue_lane (i : Fin 25) (s : State) :
    regValue (.lane i) s = laneAt s.A ⟨i.val % 5, by omega⟩ ⟨i.val / 5, by omega⟩ := by
  simp only [laneAt, laneIndex_surj, regValue]

/-- Settles O54: the offset 8i is that of lane i, which is defined while idle, and R57 lists its writes. -/
theorem laneWindowReadsLanes : Obligations.LaneWindowReadsLanes := by
  intro s i ms
  have hwrite : ∀ v, busErrorAccess (.write .w64 (offLane i) v) := fun _ =>
    .inr (.inr (.inr (.inr (.inl (offLane_lt i)))))
  refine ⟨fun hidle => ?_, fun v => hostStep_busError (hwrite v) { s with moves := ms }, fun hbusy =>
    step_read_busy (r := .lane i) ms hbusy rfl⟩
  rw [← regValue_lane i s]
  exact step_read_defined (r := .lane i) ms (.inl hidle)

/-- Settles O55: LANE[i], RESULT and POS are the registers unspecified while busy. -/
theorem busyReadsAreFreeDraws : Obligations.BusyReadsAreFreeDraws := by
  intro s o ms hbusy
  refine ⟨?_, step_read_defined (r := .data) ms (.inr rfl), step_read_defined (r := .status) ms (.inr rfl),
    step_read_defined (r := .rate) ms (.inr rfl)⟩
  rintro (⟨hlt, hal⟩ | rfl | rfl)
  · obtain ⟨i, rfl⟩ := exists_offLane_eq hlt hal
    exact step_read_busy (r := .lane i) ms hbusy rfl
  · exact step_read_busy (r := .result) ms hbusy rfl
  · exact step_read_busy (r := .pos) ms hbusy rfl

/-- Settles O56: CMD is defined in every state, with the value 0. -/
theorem cmdReadsReturnZero : Obligations.CmdReadsReturnZero := fun _ ms => step_read_defined (r := .cmd) ms (.inr rfl)

/-! ## Host addresses (20_memory.md R51, R55) -/

theorem offsetOfAddress_hostAddress (o : BitVec 9) : offsetOfAddress (hostAddress o) = some o := by
  have ho : o.toNat < 0x200 := o.isLt
  rw [offsetOfAddress, hostAddress, if_pos (by omega), Nat.add_sub_cancel_left, BitVec.ofNat_toNat, BitVec.setWidth_eq]

theorem offsetOfAddress_outside {addr : Nat} (h : addr < Config.kpeBase ∨ Config.kpeBase + 0x200 ≤ addr) :
    offsetOfAddress addr = none :=
  if_neg (by omega)

/-- Settles O60: the port's window starts at KPE_BASE, wherever that is, and is 512 bytes long. -/
theorem hostAddressesDecodeToOffsets : Obligations.HostAddressesDecodeToOffsets :=
  ⟨offsetOfAddress_hostAddress, fun _ => offsetOfAddress_outside⟩

end Sys2Proof.Machine
end

section
/-!
The encoding of commands (30_encoding.md R80 to R94). `operandsFrom W i` is the command `i` with its operands read from
the word `W`: the opcode map gives `i` for `W` exactly when W's OP is i's opcode and `operandsFrom W i` is `i`
(`fieldsOf_of_fieldOp`, `fieldsOf_eq_some`). The round trips compare a word's fields with the encoded operands; R89's
checks in the numbers of `Source` are shown to be the model's own, one check at a time.
-/

namespace Sys2Proof

open Source Laws

/-! ## The operands of a word (30_encoding.md R82 to R88) -/

/-- The command with its operands replaced by the fields of `W`. -/
def operandsFrom (W : Word) : Instr → Instr
  | .init => .init
  | .xorl _ _ _ => .xorl (fieldX W) (fieldY W) (fieldMask W)
  | .wrl _ _ _ => .wrl (fieldX W) (fieldY W) (fieldMask W)
  | .rotl _ _ _ => .rotl (fieldX W) (fieldY W) (fieldAmt W)
  | .rotr _ _ _ => .rotr (fieldX W) (fieldY W) (fieldAmt W)
  | .theta => .theta
  | .rho => .rho
  | .pi => .pi
  | .chi => .chi
  | .iota _ => .iota (fieldIr W)
  | .round _ => .round (fieldIr W)
  | .permute => .permute
  | .rcgen _ => .rcgen (fieldIr W)
  | .absorb _ => .absorb (fieldCnt W)
  | .pad _ _ => .pad (fieldSlen W) (fieldSuf W)
  | .squeeze _ => .squeeze (fieldCnt W)

theorem opcode_operandsFrom (W : Word) (i : Instr) : opcode (operandsFrom W i) = opcode i := by
  cases i <;> rfl

/-- An opcode fits into the OP field. -/
theorem setWidth_opcode (i : Instr) : ((opcode i).setWidth 6).setWidth 64 = opcode i := by
  cases i <;> rfl

/-- The opcode map finds a command by its OP field (R81). -/
theorem fieldsOf_of_fieldOp {W : Word} {i : Instr} (h : fieldOp W = (opcode i).setWidth 6) :
    fieldsOf W = some (operandsFrom W i) := by
  rw [fieldsOf, h]
  cases i <;> rfl

/-- A command the opcode map gives has the word's OP for its opcode and the word's fields for its operands. -/
theorem fieldsOf_eq_some {W : Word} {i : Instr} (h : fieldsOf W = some i) :
    fieldOp W = (opcode i).setWidth 6 ∧ operandsFrom W i = i := by
  unfold fieldsOf at h
  split at h <;> cases h <;> exact ⟨BitVec.eq_of_toNat_eq ‹_›, rfl⟩

/-! ## What decode answers (R89) -/

section

variable {W : Word}

theorem decode_of_unassigned (hf : fieldsOf W = none) : decode W = .error .illegalOp := by
  simp [decode, hf]

variable {i : Instr} (hf : fieldsOf W = some i)
include hf

theorem decode_of_mbz_set (hm : W &&& mbzMask i ≠ 0#64) : decode W = .error .reservedBits := by
  simp [decode, hf, hm]

theorem decode_of_operandError {e : CmdErr} (hm : W &&& mbzMask i = 0#64) (he : operandError i = some e) :
    decode W = .error e := by
  simp [decode, hf, hm, he]

theorem decode_of_wellFormed (hm : W &&& mbzMask i = 0#64) (hw : i.WellFormed) : decode W = .ok i := by
  simp [decode, hf, hm, (operandError_eq_none_iff i).mpr hw]

end

theorem of_decode_eq_ok {W : Word} {i : Instr} (h : decode W = .ok i) :
    fieldsOf W = some i ∧ W &&& mbzMask i = 0#64 ∧ i.WellFormed := by
  rcases decode_cases W with ⟨-, hd⟩ | ⟨_, -, -, hd⟩ | ⟨_, _, -, -, -, hd⟩ | ⟨j, hf, hm, he, hd⟩ <;>
    cases hd.symm.trans h
  exact ⟨hf, hm, (operandError_eq_none_iff i).mp he⟩

/-! ## Decoding an encoded command -/

theorem encode_mbz_clear (i : Instr) : encode i &&& mbzMask i = 0#64 := by
  cases i with
  | init => exact MbzClear.init
  | xorl x y mask => exact MbzClear.xorl x y mask
  | wrl x y mask => exact MbzClear.wrl x y mask
  | rotl x y amt => exact MbzClear.rotl x y amt
  | rotr x y amt => exact MbzClear.rotr x y amt
  | theta => exact MbzClear.theta
  | rho => exact MbzClear.rho
  | pi => exact MbzClear.pi
  | chi => exact MbzClear.chi
  | iota ir => exact MbzClear.iota ir
  | round ir => exact MbzClear.round ir
  | permute => exact MbzClear.permute
  | rcgen ir => exact MbzClear.rcgen ir
  | absorb cnt => exact MbzClear.absorb cnt
  | pad slen suf => exact MbzClear.pad slen suf
  | squeeze cnt => exact MbzClear.squeeze cnt

theorem fieldOp_encode (i : Instr) : fieldOp (encode i) = (opcode i).setWidth 6 := by
  cases i with
  | init => exact OpcodeKept.init
  | xorl x y mask => exact OpcodeKept.xorl x y mask
  | wrl x y mask => exact OpcodeKept.wrl x y mask
  | rotl x y amt => exact OpcodeKept.rotl x y amt
  | rotr x y amt => exact OpcodeKept.rotr x y amt
  | theta => exact OpcodeKept.theta
  | rho => exact OpcodeKept.rho
  | pi => exact OpcodeKept.pi
  | chi => exact OpcodeKept.chi
  | iota ir => exact OpcodeKept.iota ir
  | round ir => exact OpcodeKept.round ir
  | permute => exact OpcodeKept.permute
  | rcgen ir => exact OpcodeKept.rcgen ir
  | absorb cnt => exact OpcodeKept.absorb cnt
  | pad slen suf => exact OpcodeKept.pad slen suf
  | squeeze cnt => exact OpcodeKept.squeeze cnt

/-- Each field of the encoded word holds the operand: the opcode and the other operands lie outside it. -/
theorem operandsFrom_encode (i : Instr) : operandsFrom (encode i) i = i := by
  cases i with
  | xorl x y mask | wrl x y mask =>
    simp [operandsFrom, encode, fieldX, fieldY, fieldMask, extract_or, extract_opcode, extract_field_same,
      extract_field_other]
  | rotl x y amt | rotr x y amt =>
    simp [operandsFrom, encode, fieldX, fieldY, fieldAmt, extract_or, extract_opcode, extract_field_same,
      extract_field_other]
  | iota ir | round ir | rcgen ir =>
    simp [operandsFrom, encode, fieldIr, extract_or, extract_opcode, extract_field_same]
  | absorb cnt | squeeze cnt =>
    simp [operandsFrom, encode, fieldCnt, extract_or, extract_opcode, extract_field_same]
  | pad slen suf =>
    simp [operandsFrom, encode, fieldSlen, fieldSuf, extract_or, extract_opcode, extract_field_same,
      extract_field_other]
  | init | theta | rho | pi | chi | permute => rfl

theorem fieldsOf_encode (i : Instr) : fieldsOf (encode i) = some i := by
  rw [fieldsOf_of_fieldOp (fieldOp_encode i), operandsFrom_encode]

/-- Settles O5: the word's fields are the operands, its must-be-zero bits are 0, and no range check fails. -/
theorem decodeReturnsEncodedCommand : Obligations.DecodeReturnsEncodedCommand := fun i hw =>
  decode_of_wellFormed (fieldsOf_encode i) (encode_mbz_clear i) hw

theorem decode_of_encode_eq {W : Word} {i : Instr} (h : encode i = W) (hw : i.WellFormed) : decode W = .ok i :=
  h ▸ decodeReturnsEncodedCommand i hw

/-- Settles O8: each example word is the encoding of its command, whose operands are in range. -/
theorem exampleWordsDecode : Obligations.ExampleWordsDecode := by
  refine ⟨?_, ?_, ?_, ?_, ?_, ?_, ?_, ?_, ?_, ?_⟩ <;> exact decode_of_encode_eq rfl rfl

/-! ## Encoding an accepted word (R94) -/

/-- A field put back at its place is the word's bits there. -/
theorem field_in_place (W : Word) (k n : Nat) :
    (W.extractLsb' k n).setWidth 64 <<< k = W &&& ((BitVec.allOnes n).setWidth 64 <<< k) := by
  apply BitVec.eq_of_getLsbD_eq
  intro z hz
  by_cases hk : z < k
  · simp [hk]
  · have hz' : k + (z - k) = z := by omega
    simp [hz, hk, hz', Bool.and_comm]

/-- The opcode is the word's bits 5:0. -/
theorem opcode_eq_low_bits {W : Word} {i : Instr} (h : fieldOp W = (opcode i).setWidth 6) :
    opcode i = W &&& 0x3F#64 := by
  rw [← setWidth_opcode, ← h]
  simpa [fieldOp] using field_in_place W 0 6

/-- Every bit of a word is a bit of its command's encoding or a must-be-zero bit of its format (R94). -/
theorem encode_operandsFrom {W : Word} {i : Instr} (h : fieldOp W = (opcode i).setWidth 6) :
    encode (operandsFrom W i) = W &&& ~~~ mbzMask i := by
  have hop := (opcode_operandsFrom W i).trans (opcode_eq_low_bits h)
  cases i with (simp only [operandsFrom, encode] at hop ⊢; rw [hop, mbzMask])
  | xorl | wrl => simp [fieldX, fieldY, fieldMask, field_in_place, ← BitVec.and_or_distrib_left]
  | rotl | rotr => simp [fieldX, fieldY, fieldAmt, field_in_place, ← BitVec.and_or_distrib_left]
  | iota | round | rcgen => simp [fieldIr, field_in_place, ← BitVec.and_or_distrib_left]
  | absorb | squeeze => simp [fieldCnt, field_in_place, ← BitVec.and_or_distrib_left]
  | pad => simp [fieldSlen, fieldSuf, field_in_place, ← BitVec.and_or_distrib_left]
  | init | theta | rho | pi | chi | permute => simp

theorem and_not_of_and_eq_zero {W m : Word} (h : W &&& m = 0#64) : W &&& ~~~ m = W := by
  calc W &&& ~~~ m = (W &&& m) ||| (W &&& ~~~ m) := by rw [h, BitVec.zero_or]
    _ = W := by rw [← BitVec.and_or_distrib_left, BitVec.or_not_self, BitVec.and_allOnes]

/-- Settles O6: the must-be-zero bits of an accepted word are 0, so its encoded fields are the whole word. -/
theorem encodeReturnsAcceptedWord : Obligations.EncodeReturnsAcceptedWord := by
  intro W i h
  obtain ⟨hf, hm, hw⟩ := of_decode_eq_ok h
  obtain ⟨hop, hi⟩ := fieldsOf_eq_some hf
  have hbits := encode_operandsFrom hop
  rw [hi, and_not_of_and_eq_zero hm] at hbits
  exact ⟨hbits, hw⟩

/-! ## The fields as numbers (R88) -/

theorem toNat_fieldOp (W : Word) : (fieldOp W).toNat = W.toNat % 64 := by
  simp [fieldOp]

theorem toNat_opcode_of_fieldOp {W : Word} {i : Instr} (h : fieldOp W = (opcode i).setWidth 6) :
    W.toNat % 64 = (opcode i).toNat := by
  rw [← toNat_fieldOp, h]
  cases i <;> rfl

/-! ## R89's checks, one at a time -/

/-- Check 1: the opcode map has no command for the word exactly when its OP is unassigned (R90). -/
theorem fieldsOf_eq_none_iff (W : Word) : fieldsOf W = none ↔ illegalWord W.toNat := by
  cases hf : fieldsOf W with
  | some i =>
    rw [illegalWord, toNat_opcode_of_fieldOp (fieldsOf_eq_some hf).1]
    cases i <;> simp [assignedOp, opcode]
  | none =>
    rw [illegalWord, ← toNat_fieldOp]
    unfold fieldsOf at hf
    split at hf <;> cases hf
    simp only [imp_false] at *
    generalize (fieldOp W).toNat = op at *
    have hgap : ¬ (1 ≤ op ∧ op ≤ 5 ∨ 8 ≤ op ∧ op ≤ 0x12) := by omega
    simpa [assignedOp] using hgap

/-- The must-be-zero bits of a format are R82's to R87's. -/
theorem getLsbD_mbzMask (i : Instr) : ∀ b < 64, (mbzMask i).getLsbD b = reservedBit (opcode i).toNat b := by
  cases i <;> simp only [mbzMask, opcode] <;> decide

/-- Two words meet where they have a bit in common. -/
theorem and_ne_zero_iff (W m : Word) : W &&& m ≠ 0#64 ↔ ∃ b < 64, m.getLsbD b = true ∧ W.getLsbD b = true := by
  rw [Ne, BitVec.eq_of_getLsbD_eq_iff]
  simp [and_comm]

section

variable {W : Word} {i : Instr} (hf : fieldsOf W = some i)
include hf

/-- Check 2 (R91). -/
theorem mbz_set_iff : W &&& mbzMask i ≠ 0#64 ↔ reservedWord W := by
  rw [and_ne_zero_iff, reservedWord, toNat_opcode_of_fieldOp (fieldsOf_eq_some hf).1]
  refine exists_congr fun b => and_congr_right fun hb => ?_
  rw [getLsbD_mbzMask i b hb]

/-- Check 3 (R83, R84). -/
theorem operandError_eq_badLane_iff : operandError i = some .badLane ↔ badLaneWord W.toNat := by
  obtain ⟨hop, hi⟩ := fieldsOf_eq_some hf
  rw [badLaneWord, toNat_opcode_of_fieldOp hop, ← hi]
  cases i with
  | xorl | wrl | rotl | rotr =>
    simp [operandsFrom, operandError, opcode, fieldX, fieldY, Nat.shiftRight_eq_div_pow, Option.ite_none_right_eq_some,
      -ite_eq_left_iff]
  | init | theta | rho | pi | chi | permute | iota | round | rcgen | pad | absorb | squeeze =>
    simp [operandsFrom, operandError, opcode]

/-- Check 4 (R85). -/
theorem operandError_eq_badRound_iff : operandError i = some .badRound ↔ badRoundWord W.toNat := by
  obtain ⟨hop, hi⟩ := fieldsOf_eq_some hf
  rw [badRoundWord, toNat_opcode_of_fieldOp hop, ← hi]
  cases i with
  | iota | round | rcgen => simp [operandsFrom, operandError, opcode, fieldIr, Nat.shiftRight_eq_div_pow]
  | init | theta | rho | pi | chi | permute | xorl | wrl | rotl | rotr | pad | absorb | squeeze =>
    simp [operandsFrom, operandError, opcode]

/-- Check 5 (R87). -/
theorem operandError_eq_badSuffix_iff : operandError i = some .badSuffix ↔ badSuffixWord W.toNat := by
  obtain ⟨hop, hi⟩ := fieldsOf_eq_some hf
  rw [badSuffixWord, toNat_opcode_of_fieldOp hop, ← hi]
  cases i with
  | pad =>
    simp [operandsFrom, operandError, opcode, fieldSlen, fieldSuf, ← BitVec.toNat_inj,
      Nat.shiftRight_eq_div_pow, Option.ite_none_right_eq_some, -ite_eq_left_iff]
  | init | theta | rho | pi | chi | permute | xorl | wrl | rotl | rotr | iota | round | rcgen | absorb | squeeze =>
    simp [operandsFrom, operandError, opcode]

end

/-- The range checks report nothing but checks 3, 4 and 5. -/
theorem operandError_cases (i : Instr) :
    operandError i = none ∨ operandError i = some .badLane ∨ operandError i = some .badRound ∨
      operandError i = some .badSuffix := by
  cases i with
  | xorl | wrl | rotl | rotr | iota | round | rcgen | pad =>
    simp only [operandError]
    split <;> simp
  | init | theta | rho | pi | chi | permute | absorb | squeeze => exact .inl rfl

/-- Settles O7: the model's checks are R89's, and `decode` makes them in R89's order. -/
theorem decodeReportsFirstFailingCheck : Obligations.DecodeReportsFirstFailingCheck := by
  intro W
  cases hf : fieldsOf W with
  | none =>
    have hillegal := (fieldsOf_eq_none_iff W).mp hf
    exact ⟨fun _ => decode_of_unassigned hf, absurd hillegal, absurd hillegal, absurd hillegal, absurd hillegal,
      absurd hillegal⟩
  | some i =>
    have hmbz (hr : ¬ reservedWord W) : W &&& mbzMask i = 0#64 := not_not.mp (mt (mbz_set_iff hf).mp hr)
    refine ⟨fun hi => ?_, fun _ hr => decode_of_mbz_set hf ((mbz_set_iff hf).mpr hr),
      fun _ hr hl => decode_of_operandError hf (hmbz hr) ((operandError_eq_badLane_iff hf).mpr hl),
      fun _ hr hi => decode_of_operandError hf (hmbz hr) ((operandError_eq_badRound_iff hf).mpr hi),
      fun _ hr hs => decode_of_operandError hf (hmbz hr) ((operandError_eq_badSuffix_iff hf).mpr hs),
      fun _ hr hl hi hs => ⟨i, decode_of_wellFormed hf (hmbz hr) ((operandError_eq_none_iff i).mp ?_)⟩⟩
    · cases hf.symm.trans ((fieldsOf_eq_none_iff W).mpr hi)
    · rw [← operandError_eq_badLane_iff hf] at hl
      rw [← operandError_eq_badRound_iff hf] at hi
      rw [← operandError_eq_badSuffix_iff hf] at hs
      simpa only [hl, hi, hs, or_false] using operandError_cases i

end Sys2Proof
end

section
/-!
The lane commands (40_lane_ops.md R100 to R104). XORL, WRL, ROTL and ROTR are one `mapLane` on checked coordinates, so
their completion, frame and rejection are said once, for any function of the lane (`withLane_mapLane_spec`,
`withLane_rejects`); each command adds the bits of its own function.
-/

namespace Sys2Proof

/-! ## Command words as numbers (30_encoding.md R83, R84, R88) -/

/-- A field put above the bits of `a` adds its value at its place. -/
theorem toNat_or_field {n k : Nat} (a : Word) (v : BitVec n) (ha : a.toNat < 2 ^ k) (hk : k + n ≤ 64) :
    (a ||| (v.setWidth 64 <<< k)).toNat = a.toNat + v.toNat * 2 ^ k := by
  have hfit : v.toNat <<< k < 2 ^ 64 := Nat.lt_of_lt_of_le
    (Nat.shiftLeft_lt (n := n) v.isLt) (Nat.pow_le_pow_right (by decide) (by omega))
  have hfield : (v.setWidth 64 <<< k).toNat = v.toNat <<< k := by
    rw [BitVec.toNat_shiftLeft, BitVec.toNat_setWidth_of_le (by omega), Nat.mod_eq_of_lt hfit]
  rw [BitVec.toNat_or, hfield, Nat.or_comm, ← Nat.shiftLeft_add_eq_or_of_lt ha, Nat.shiftLeft_eq, Nat.add_comm]

/-- The word of a lane command: OP, x, y and the last operand at bits 0, 6, 9 and 12. -/
theorem toNat_laneWord {n : Nat} (op : Word) (x y : BitVec 3) (v : BitVec n) (hop : op.toNat < 2 ^ 6) (hn : n ≤ 52) :
    (op ||| (x.setWidth 64 <<< 6) ||| (y.setWidth 64 <<< 9) ||| (v.setWidth 64 <<< 12)).toNat =
      op.toNat + x.toNat * 2 ^ 6 + y.toNat * 2 ^ 9 + v.toNat * 2 ^ 12 := by
  have hx := x.isLt
  have hy := y.isLt
  have hopx := toNat_or_field op x hop (by decide)
  have hopxy := toNat_or_field (k := 9) (op ||| (x.setWidth 64 <<< 6)) y (by omega) (by decide)
  rw [toNat_or_field _ v (by omega) (by omega), hopxy, hopx]

end Sys2Proof

namespace Sys2Proof.Machine

/-! ## Writing a lane -/

theorem setLane_laneAt (A : StateArray) (x y : Fin 5) : setLane A x y (laneAt A x y) = A :=
  Vector.set_getElem_self _

theorem setLane_setLane (A : StateArray) (x y : Fin 5) (v w : Lane) :
    setLane (setLane A x y v) x y w = setLane A x y w :=
  Vector.set_set ..

theorem bitAt_mapLane (x y : Fin 5) (f : Lane → Lane) (s : State) (z : Nat) :
    bitAt (mapLane x y f s).A x y z = (f (laneAt s.A x y)).getLsbD z := by
  simp [bitAt]

theorem laneAt_mapLane_other {x y x' y' : Fin 5} (f : Lane → Lane) (s : State) (h : ¬ (x' = x ∧ y' = y)) :
    laneAt (mapLane x y f s).A x' y' = laneAt s.A x' y' :=
  laneAt_setLane_other _ _ _ _ _ _ h

theorem mapLane_frame (x y : Fin 5) (f : Lane → Lane) (s : State) : sameButArray s (mapLane x y f s) :=
  ⟨(mapLane_completes x y f s).frame, rfl, rfl⟩

/-- A lane function that undoes another gives the whole state back. -/
theorem mapLane_mapLane_cancel {f g : Lane → Lane} (hgf : ∀ L, g (f L) = L) (x y : Fin 5) (s : State) :
    mapLane x y g (mapLane x y f s) = s := by
  simp [mapLane, hgf, setLane_setLane, setLane_laneAt]

/-! ## A command on one lane -/

theorem withLane_ofNat (x y : Fin 5) (s : State) (k : Fin 5 → Fin 5 → Result) :
    withLane (BitVec.ofNat 3 x.val) (BitVec.ofNat 3 y.val) s k = k x y := by
  have toNat_ofNat (v : Fin 5) : (BitVec.ofNat 3 v.val).toNat = v.val := Nat.mod_eq_of_lt (by omega)
  rw [withLane_legal (by rw [toNat_ofNat]; exact x.isLt) (by rw [toNat_ofNat]; exact y.isLt)]
  simp only [toNat_ofNat]

/-- On legal coordinates a lane command completes with the bits of its function in the one lane. -/
theorem withLane_mapLane_spec (x y : Fin 5) {f : Lane → Lane} {s : State} {b : Nat → Bool}
    (hf : ∀ z < 64, (f (laneAt s.A x y)).getLsbD z = b z) :
    ∃ t, withLane (BitVec.ofNat 3 x.val) (BitVec.ofNat 3 y.val) s (fun x y => .next (mapLane x y f s)) = .next t ∧
      (∀ z < 64, bitAt t.A x y z = b z) ∧
      (∀ x' y' : Fin 5, ¬ (x' = x ∧ y' = y) → laneAt t.A x' y' = laneAt s.A x' y') ∧ sameButArray s t :=
  ⟨mapLane x y f s, withLane_ofNat x y s _, fun z hz => (bitAt_mapLane x y f s z).trans (hf z hz),
    fun _ _ => laneAt_mapLane_other f s, mapLane_frame x y f s⟩

theorem raiseCmdError_rejects (e : CmdErr) (s : State) : Rejects e s (raiseCmdError e s) := by
  simp [Rejects, sameRegs]

theorem withLane_rejects {x y : BitVec 3} (h : 4 < x.toNat ∨ 4 < y.toNat) (s : State)
    (k : Fin 5 → Fin 5 → Result) : ∃ t, withLane x y s k = .next t ∧ Rejects .badLane s t :=
  ⟨_, withLane_illegal h s k, raiseCmdError_rejects .badLane s⟩

/-- On legal coordinates a lane command's next state is the one `mapLane`. -/
theorem eq_mapLane_of_withLane_next {x y : BitVec 3} (hx : x.toNat ≤ 4) (hy : y.toNat ≤ 4) {f : Lane → Lane}
    {s t : State} (h : withLane x y s (fun x y => .next (mapLane x y f s)) = .next t) :
    t = mapLane ⟨x.toNat, Nat.lt_succ_of_le hx⟩ ⟨y.toNat, Nat.lt_succ_of_le hy⟩ f s := by
  rw [withLane_legal (Nat.lt_succ_of_le hx) (Nat.lt_succ_of_le hy)] at h
  cases h
  rfl

/-! ## The functions of the lane -/

theorem getLsbD_xorMasked (L D : Lane) (mask : BitVec 8) {z : Nat} (hz : z < 64) :
    (L ^^^ (D &&& expandMask mask)).getLsbD z = (L.getLsbD z ^^ (D.getLsbD z && mask.getLsbD (z / 8))) := by
  rw [BitVec.getLsbD_xor, BitVec.getLsbD_and, getLsbD_expandMask mask z hz]

theorem getLsbD_writeMasked (L D : Lane) (mask : BitVec 8) {z : Nat} (hz : z < 64) :
    ((L &&& ~~~ expandMask mask) ||| (D &&& expandMask mask)).getLsbD z =
      if mask.getLsbD (z / 8) = true then D.getLsbD z else L.getLsbD z := by
  rw [BitVec.getLsbD_or, BitVec.getLsbD_and, BitVec.getLsbD_and, BitVec.getLsbD_not, getLsbD_expandMask mask z hz]
  cases mask.getLsbD (z / 8) <;> simp [hz]

theorem getLsbD_rotl64_amount (L : Lane) (amt : BitVec 6) {z : Nat} (hz : z < 64) :
    (rotl64 L (rotateAmount amt)).getLsbD z = L.getLsbD ((z + 64 - amt.toNat) % 64) := by
  have hamt := amt.isLt
  rw [getLsbD_rotl64 _ _ _ hz, rotateAmount]
  congr 1
  omega

/-- `rotr64` undoes `rotl64` for every n (00_scope.md R8). -/
theorem rotr64_rotl64 (L : Lane) (n : Nat) : rotr64 (rotl64 L n) n = L := by
  apply BitVec.eq_of_getLsbD_eq
  intro z hz
  rw [getLsbD_rotr64 _ _ _ hz, getLsbD_rotl64 _ _ _ (Nat.mod_lt _ (by decide))]
  congr 1
  omega

/-! ## The statements -/

/-- Settles O18: MASK enables the bits of its expanded mask, and XORL flips those where DATA is 1. -/
theorem xorlFlipsMaskedDataBits : Obligations.XorlFlipsMaskedDataBits :=
  ⟨fun x y mask => toNat_laneWord 0x02#64 x y mask (by decide) (by decide),
    fun x y mask s => withLane_mapLane_spec x y fun _ hz => getLsbD_xorMasked (laneAt s.A x y) s.pend.data mask hz,
    fun _ _ _ s h => withLane_rejects h s _⟩

/-- Settles O19: WRL takes the bits of the expanded mask from DATA and the others from the lane. -/
theorem wrlWritesMaskedDataBytes : Obligations.WrlWritesMaskedDataBytes :=
  ⟨fun x y mask => toNat_laneWord 0x03#64 x y mask (by decide) (by decide),
    fun x y mask s => withLane_mapLane_spec x y fun _ hz => getLsbD_writeMasked (laneAt s.A x y) s.pend.data mask hz,
    fun _ _ _ s h => withLane_rejects h s _⟩

/-- Settles O20: the bits of `rotl64`, with AMT below 64. -/
theorem rotlRotatesLaneUp : Obligations.RotlRotatesLaneUp :=
  ⟨fun x y amt => toNat_laneWord 0x04#64 x y amt (by decide) (by decide),
    fun x y amt s => withLane_mapLane_spec x y fun _ hz => getLsbD_rotl64_amount (laneAt s.A x y) amt hz,
    fun _ _ _ s h => withLane_rejects h s _⟩

/-- Settles O21: the bits of `rotr64`. -/
theorem rotrRotatesLaneDown : Obligations.RotrRotatesLaneDown :=
  ⟨fun x y amt => toNat_laneWord 0x05#64 x y amt (by decide) (by decide),
    fun x y amt s => withLane_mapLane_spec x y fun z hz => getLsbD_rotr64 (laneAt s.A x y) (rotateAmount amt) z hz,
    fun _ _ _ s h => withLane_rejects h s _⟩

/-- Settles O22: the lane functions undo each other, and the first XORL leaves the latched DATA to the second. -/
theorem rotrUndoesRotlAndXorlItself : Obligations.RotrUndoesRotlAndXorlItself := by
  constructor
  · intro x y amt s t u hx hy ht hu
    obtain rfl := eq_mapLane_of_withLane_next hx hy ht
    obtain rfl := eq_mapLane_of_withLane_next hx hy hu
    exact mapLane_mapLane_cancel (fun L => rotr64_rotl64 L (rotateAmount amt)) _ _ s
  · intro x y mask s t u hx hy ht hu
    obtain rfl := eq_mapLane_of_withLane_next hx hy ht
    obtain rfl := eq_mapLane_of_withLane_next hx hy hu
    exact mapLane_mapLane_cancel (fun L => xor_cancel_right L (s.pend.data &&& expandMask mask)) _ _ s

/-- Settles O17: INIT writes the zero array and POS = 0 and no other field. -/
theorem initClearsArrayAndPosition : Obligations.InitClearsArrayAndPosition :=
  ⟨rfl, fun s => ⟨_, rfl, laneAt_zeroArray, rfl, sameButArrayResultPos_refl s, rfl⟩⟩

end Sys2Proof.Machine
end

section
/-!
The permutation commands (41_permutation.md R120 to R139). Each step command is one `mapArray` in every state, so its
completion and frame are said once (`mapArray_frame`), and the commands with a round index add the check of IR
(`withRound_ofNat`, `withRound_rejects`). What is left is what the mappings do to the array: the source's bit forms of
theta, rho and chi, the lane moves of pi, the two LFSRs behind the round constants, and the rounds of the permutation.
-/

namespace Sys2Proof.Machine

open Source

/-! ## Commands on the whole array, and the round index (30_encoding.md R85) -/

theorem mapArray_frame (f : StateArray → StateArray) (s : State) : sameButArray s (mapArray f s) :=
  ⟨(mapArray_completes f s).frame, rfl, rfl⟩

theorem mapArray_mapArray (f g : StateArray → StateArray) (s : State) :
    mapArray f (mapArray g s) = mapArray (f ∘ g) s := rfl

theorem toNat_roundWord (op : Word) (ir : BitVec 5) (hop : op.toNat < 2 ^ 12) :
    (op ||| (ir.setWidth 64 <<< 12)).toNat = op.toNat + ir.toNat * 2 ^ 12 :=
  toNat_or_field op ir hop (by decide)

theorem withRound_ofNat {n : Nat} (hn : n < 24) (s : State) (k : Nat → Result) :
    withRound (BitVec.ofNat 5 n) s k = k n := by
  have hir : (BitVec.ofNat 5 n).toNat = n := Nat.mod_eq_of_lt (by omega)
  rw [withRound_legal (by rwa [hir]), hir]

theorem withRound_rejects {ir : BitVec 5} (h : 23 < ir.toNat) (s : State) (k : Nat → Result) :
    ∃ t, withRound ir s k = .next t ∧ Rejects .badRound s t :=
  ⟨_, withRound_illegal h s k, raiseCmdError_rejects .badRound s⟩

/-! ## theta (R120) -/

theorem getLsbD_columnParity (A : StateArray) (x : Fin 5) (z : Nat) :
    (columnParity A x).getLsbD z = columnBit A x z := by
  simp only [columnParity, columnBit, bitAt, BitVec.getLsbD_xor]

theorem getLsbD_thetaD (A : StateArray) (x : Fin 5) {z : Nat} (hz : z < 64) :
    (thetaD A x).getLsbD z = (columnBit A (x - 1) z ^^ columnBit A (x + 1) ((z + 63) % 64)) := by
  rw [thetaD, BitVec.getLsbD_xor, getLsbD_rotl64 _ _ _ hz, getLsbD_columnParity, getLsbD_columnParity]

theorem bitAt_theta (A : StateArray) (x y : Fin 5) {z : Nat} (hz : z < 64) :
    bitAt (theta A) x y z = (bitAt A x y z ^^ (columnBit A (x - 1) z ^^ columnBit A (x + 1) ((z + 63) % 64))) := by
  rw [bitAt, laneAt_theta, BitVec.getLsbD_xor, getLsbD_thetaD A x hz, bitAt]

/-- Settles O23: the column parities are the columns' bits, and a rotation by 1 reads bit z - 1. -/
theorem thetaXorsColumnParities : Obligations.ThetaXorsColumnParities :=
  ⟨rfl, fun s => ⟨_, rfl, fun x y _ hz => bitAt_theta s.A x y hz, mapArray_frame theta s⟩⟩

/-! ## rho (R121, R122) -/

theorem rhoOffset_rhoVisit :
    ∀ n : Fin 24, rhoOffset (rhoVisit n.val).1 (rhoVisit n.val).2 = rhoVisitOffset n.val := by
  decide

/-- Settles O35: lane (0,0) and the 24 visits are the whole table. -/
theorem rhoOffsetTableFollowsVisits : Obligations.RhoOffsetTableFollowsVisits := ⟨rfl, rhoOffset_rhoVisit⟩

theorem exists_rhoVisit_eq : ∀ x y : Fin 5, ¬ (x = 0 ∧ y = 0) → ∃ n < 24, rhoVisit n = (x, y) := by
  decide

theorem laneAt_rho_zero (A : StateArray) : laneAt (rho A) 0 0 = laneAt A 0 0 := by
  have hzero : rhoOffset 0 0 = 0 := rfl
  rw [laneAt_rho, hzero, rotl64_zero]

theorem bitAt_rho_visit (A : StateArray) {n z : Nat} (hn : n < 24) (hz : z < 64) :
    bitAt (rho A) (rhoVisit n).1 (rhoVisit n).2 z =
      bitAt A (rhoVisit n).1 (rhoVisit n).2 ((z + 64 - rhoVisitOffset n) % 64) := by
  have hoff : rhoVisitOffset n < 64 := Nat.mod_lt _ (by decide)
  rw [bitAt, laneAt_rho, rhoOffset_rhoVisit ⟨n, hn⟩, getLsbD_rotl64 _ _ _ hz, bitAt, Nat.mod_eq_of_lt hoff,
    ← Nat.add_sub_assoc hoff.le]

/-- Settles O24: RHO rotates by the table, which the visits give. -/
theorem rhoRotatesLanesInVisitingOrder : Obligations.RhoRotatesLanesInVisitingOrder :=
  ⟨rfl, exists_rhoVisit_eq, fun s =>
    ⟨_, rfl, laneAt_rho_zero s.A, fun _ hn _ hz => bitAt_rho_visit s.A hn hz, mapArray_frame rho s⟩⟩

/-! ## pi (R123, R133) -/

/-- The lane that pi moves to lane p. -/
def piSource (p : Fin 5 × Fin 5) : Fin 5 × Fin 5 := (p.1 + 3 * p.2, p.1)

/-- R123's table of sources, read at the index of lane (x,y). -/
theorem piSources_laneIndex : ∀ x y : Fin 5, piSources[laneIndex x y] = (laneIndex (x + 3 * y) x).val := by
  decide

theorem getElem?_pi (A : StateArray) (i : Fin 25) : (pi A)[i.val]? = A[piSources[i]]? := by
  obtain ⟨x, y, rfl⟩ : ∃ x y, laneIndex x y = i := ⟨_, _, laneIndex_surj i⟩
  have hlane := laneAt_pi A x y
  rw [piSources_laneIndex]
  simpa [laneAt] using hlane

theorem add_three_mul_eq (x y : Fin 5) : x + 3 * y = ⟨(x.val + 3 * y.val) % 5, Nat.mod_lt _ (Nat.succ_pos 4)⟩ :=
  Fin.ext (by simp [Fin.val_add, Fin.val_mul])

/-- Settles O25: the lanes of `pi`, by coordinates and by index. -/
theorem piMovesLanes : Obligations.PiMovesLanes :=
  ⟨rfl, fun s =>
    ⟨_, rfl, fun x y => add_three_mul_eq x y ▸ laneAt_pi s.A x y, getElem?_pi s.A, mapArray_frame pi s⟩⟩

theorem laneAt_iterate_pi (n : Nat) (A : StateArray) (x y : Fin 5) :
    laneAt (pi^[n] A) x y = laneAt A (piSource^[n] (x, y)).1 (piSource^[n] (x, y)).2 := by
  induction n generalizing x y with
  | zero => rfl
  | succ n ih => rw [Function.iterate_succ_apply', laneAt_pi, ih, Function.iterate_succ_apply, piSource]

theorem iterate_piSource_24 : ∀ x y : Fin 5, piSource^[24] (x, y) = (x, y) := by
  decide

theorem iterate_pi_24 (A : StateArray) : pi^[24] A = A :=
  array_ext_lanes fun x y => by rw [laneAt_iterate_pi, iterate_piSource_24]

/-- Lane (1,0) is on a cycle of 24 lanes, so fewer moves bring another lane to its place. -/
theorem iterate_piSource_ne : ∀ m < 24, 1 ≤ m → piSource^[m] (1, 0) ≠ (1, 0) := by
  decide

/-- The array that only lane (1,0) tells apart from zero. -/
def markedArray : StateArray := setLane zeroArray 1 0 1#64

theorem iterate_pi_markedArray_ne {m : Nat} (h1 : 1 ≤ m) (h24 : m < 24) : pi^[m] markedArray ≠ markedArray := by
  intro heq
  have hmoved : ¬ ((piSource^[m] (1, 0)).1 = 1 ∧ (piSource^[m] (1, 0)).2 = 0) := fun hp =>
    iterate_piSource_ne m h24 h1 (Prod.ext hp.1 hp.2)
  have hlane := laneAt_iterate_pi m markedArray 1 0
  rw [heq, markedArray, laneAt_setLane_same, laneAt_setLane_other _ _ _ _ _ _ hmoved, laneAt_zeroArray] at hlane
  exact absurd hlane (by decide)

theorem exec_pi_iterate (n : Nat) (s : State) :
    exec .pi (mapArray pi^[n] s) = .next (mapArray pi^[n + 1] s) := by
  rw [Function.iterate_succ', ← mapArray_mapArray]
  rfl

/-- Settles O26: `pi` moves the lanes along one cycle of 24. -/
theorem piHasOrderTwentyFour : Obligations.PiHasOrderTwentyFour := by
  constructor
  · intro s
    refine ⟨fun n => mapArray pi^[n] s, rfl, fun n _ => exec_pi_iterate n s, ?_⟩
    simp only [mapArray, iterate_pi_24]
  · intro m h1 h24
    refine ⟨fun n => mapArray pi^[n] { State.reset with A := markedArray }, fun n _ => exec_pi_iterate n _, ?_⟩
    exact fun heq => iterate_pi_markedArray_ne h1 h24 (congrArg State.A heq)

/-! ## chi (R124) -/

theorem bitAt_chi (A : StateArray) (x y : Fin 5) {z : Nat} (hz : z < 64) :
    bitAt (chi A) x y z = (bitAt A x y z ^^ ((!bitAt A (x + 1) y z) && bitAt A (x + 2) y z)) := by
  simp only [bitAt, laneAt_chi, BitVec.getLsbD_xor, BitVec.getLsbD_and, BitVec.getLsbD_not, hz, decide_true,
    Bool.true_and]

/-- Settles O27: the bits of `chi`. -/
theorem chiCombinesRowBits : Obligations.ChiCombinesRowBits :=
  ⟨rfl, fun s => ⟨_, rfl, fun x y _ hz => bitAt_chi s.A x y hz, mapArray_frame chi s⟩⟩

/-! ## The two LFSRs (R125, R126) -/

/-- The byte register as R125's register of bits. -/
def registerBits (R : BitVec 8) : Vector Bool 8 := Vector.ofFn fun k : Fin 8 => R.getLsbD k.val

/-- A step moves every bit one place up and feeds bit 7 back into the bits of 0x71. -/
theorem getLsbD_lfsrStep (R : BitVec 8) {k : Nat} (hk : k < 8) :
    (lfsrStep R).getLsbD k = ((!decide (k < 1) && R.getLsbD (k - 1)) ^^ (R.getLsbD 7 && (0x71#8).getLsbD k)) := by
  have hshift : (R <<< 1).getLsbD k = (!decide (k < 1) && R.getLsbD (k - 1)) := by
    rw [BitVec.getLsbD_shiftLeft, decide_eq_true hk, Bool.true_and]
  unfold lfsrStep
  cases R.getLsbD 7 <;> simp [hshift]

theorem registerBits_lfsrStep (R : BitVec 8) : registerBits (lfsrStep R) = rcShift (registerBits R) := by
  ext k hk
  rw [registerBits, Vector.getElem_ofFn, getLsbD_lfsrStep R hk]
  interval_cases k <;> simp [registerBits, rcShift]

theorem registerBits_lfsr (n : Nat) : registerBits (lfsr n) = rcRegister n := by
  induction n with
  | zero => decide
  | succ n ih => rw [lfsr, registerBits_lfsrStep, ih, rcRegister]

theorem rc_eq_rcBit (t : Nat) : rc t = rcBit t := by
  have hbit : (lfsr (t % 255)).getLsbD 0 = (rcRegister (t % 255))[0] := by
    rw [← registerBits_lfsr]
    simp [registerBits]
  unfold rc rcBit
  split
  next h0 =>
    rw [h0]
    rfl
  next => exact hbit

theorem rc_add_255 (t : Nat) : rc (t + 255) = rc t := by
  rw [rc, rc, Nat.add_mod_right]

/-- Settles O34: the registers agree step by step; the listed values are computed. -/
theorem byteLfsrIsBitLfsr : Obligations.ByteLfsrIsBitLfsr :=
  ⟨rc_eq_rcBit, rc_add_255, by decide, by decide, by decide +kernel, by decide +kernel, by decide +kernel,
    by decide +kernel⟩

/-! ## Round constants (R127, R128) -/

/-- What index j adds to the round constant (R127). -/
def addConstantBit (ir : Nat) (acc : Lane) (j : Nat) : Lane :=
  if rc (j + 7 * ir) then acc ||| (1#64 <<< (2 ^ j - 1)) else acc

theorem RC_eq_foldl (ir : Nat) : RC ir = (List.range 7).foldl (addConstantBit ir) 0#64 := rfl

theorem getLsbD_addConstantBit (ir : Nat) (acc : Lane) (j : Nat) {z : Nat} (hz : z < 64) :
    (addConstantBit ir acc j).getLsbD z = (acc.getLsbD z || (decide (z = 2 ^ j - 1) && rcBit (j + 7 * ir))) := by
  have hone : (1#64 <<< (2 ^ j - 1)).getLsbD z = decide (z = 2 ^ j - 1) := by
    rw [← BitVec.twoPow_eq, BitVec.getLsbD_twoPow, ← Bool.decide_and, decide_eq_decide]
    exact ⟨fun h => h.2.symm, fun h => ⟨h ▸ hz, h.symm⟩⟩
  rw [addConstantBit, ← rc_eq_rcBit]
  cases rc (j + 7 * ir) <;> simp [hone]

theorem getLsbD_foldl_addConstantBit (ir : Nat) (js : List Nat) (acc : Lane) {z : Nat} (hz : z < 64) :
    (js.foldl (addConstantBit ir) acc).getLsbD z =
      (acc.getLsbD z || js.any fun j => decide (z = 2 ^ j - 1) && rcBit (j + 7 * ir)) := by
  induction js generalizing acc with
  | nil => simp
  | cons j js ih => rw [List.foldl_cons, ih, getLsbD_addConstantBit ir acc j hz, List.any_cons, Bool.or_assoc]

theorem getLsbD_RC (ir : Nat) {z : Nat} (hz : z < 64) : (RC ir).getLsbD z = rcLaneBit ir z := by
  rw [RC_eq_foldl, getLsbD_foldl_addConstantBit ir _ _ hz, BitVec.getLsbD_zero, Bool.false_or, rcLaneBit]

/-- Settles O32: RCGEN writes `RC`, whose bits are those of the bit LFSR. -/
theorem rcgenReadsRoundConstant : Obligations.RcgenReadsRoundConstant :=
  ⟨fun ir => toNat_roundWord 0x0F#64 ir (by decide),
    fun _ s hir => ⟨_, withRound_legal (Nat.lt_succ_of_le hir) s _, fun _ hz => getLsbD_RC _ hz,
      sameButArrayResultPos_refl s, rfl, rfl⟩,
    fun _ s h => withRound_rejects h s _⟩

theorem RC_eq_table : ∀ ir : Fin 24, RC ir.val = roundConstants[ir] := by
  decide +kernel

/-- Settles O33: RCGEN writes `RC`, entry for entry the table. -/
theorem roundConstantsAreTheTable : Obligations.RoundConstantsAreTheTable := fun ir =>
  ⟨RC_eq_table ir, _, withRound_ofNat ir.isLt State.reset _, RC_eq_table ir⟩

/-! ## iota (R129) -/

theorem exec_iota {ir : BitVec 5} (hir : ir.toNat ≤ 23) (s : State) :
    exec (.iota ir) s = .next (mapArray (iota · ir.toNat) s) :=
  withRound_legal (Nat.lt_succ_of_le hir) s _

/-- Settles O28: `iota` writes lane (0,0) alone, with the bits of `RC`. -/
theorem iotaXorsRoundConstant : Obligations.IotaXorsRoundConstant := by
  refine ⟨fun ir => toNat_roundWord 0x0C#64 ir (by decide), fun ir s hir => ?_,
    fun _ s h => withRound_rejects h s _⟩
  refine ⟨_, exec_iota hir s, fun z hz => ?_, fun x y => laneAt_iota_other s.A ir.toNat x y,
    mapArray_frame _ s⟩
  rw [bitAt, mapArray_A, laneAt_iota_zero, BitVec.getLsbD_xor, getLsbD_RC _ hz, bitAt]

/-! ## Rounds and the permutation (R130, R136 to R138) -/

theorem exec_round {ir : BitVec 5} (hir : ir.toNat ≤ 23) (s : State) :
    exec (.round ir) s = .next (mapArray (rnd · ir.toNat) s) :=
  withRound_legal (Nat.lt_succ_of_le hir) s _

theorem mapArray_rnd (n : Nat) (s : State) :
    mapArray (rnd · n) s = mapArray (iota · n) (mapArray chi (mapArray pi (mapArray rho (mapArray theta s)))) := by
  simp only [mapArray, rnd]

/-- Settles O29: `rnd` is the five mappings in R130's order, so the five commands meet ROUND's state. -/
theorem roundIsFiveStepCommands : Obligations.RoundIsFiveStepCommands := by
  refine ⟨fun ir => toNat_roundWord 0x0D#64 ir (by decide), fun ir s hir => ?_,
    fun _ s h => withRound_rejects h s _⟩
  refine ⟨_, _, _, _, _, exec_round hir s, rfl, rfl, rfl, rfl, ?_, mapArray_frame _ s⟩
  rw [mapArray_rnd, exec_iota hir]

/-- The first n rounds of the permutation. -/
def rounds (n : Nat) (A : StateArray) : StateArray := (List.range n).foldl rnd A

theorem rounds_succ (n : Nat) (A : StateArray) : rounds (n + 1) A = rnd (rounds n A) n := by
  simp [rounds, List.range_succ]

theorem keccakP_eq_rounds : keccakP = rounds 24 := rfl

/-- ROUND n after the first n rounds. -/
theorem exec_round_rounds {n : Nat} (hn : n < 24) (s : State) :
    exec (.round (BitVec.ofNat 5 n)) (mapArray (rounds n) s) = .next (mapArray (rounds (n + 1)) s) := by
  have hround : exec (.round (BitVec.ofNat 5 n)) (mapArray (rounds n) s) =
      .next (mapArray (rnd · n) (mapArray (rounds n) s)) := withRound_ofNat hn _ _
  rw [hround, mapArray_mapArray, (funext (rounds_succ n) : rounds (n + 1) = (rnd · n) ∘ rounds n)]

/-- Settles O30: the permutation is the rounds from 0 upwards, and a ROUND command adds the next one. -/
theorem permuteIsTwentyFourRounds : Obligations.PermuteIsTwentyFourRounds :=
  ⟨rfl, fun s => ⟨mapArray keccakP s, fun n => mapArray (rounds n) s, rfl, rfl, by rw [keccakP_eq_rounds],
    fun _ hn => exec_round_rounds hn s, mapArray_frame keccakP s⟩⟩

/-- R138's example, computed. -/
theorem keccakP_zeroArray_lanes :
    laneAt (keccakP zeroArray) 0 0 = 0xF1258F7940E1DDE7#64 ∧
      laneAt (keccakP zeroArray) 4 4 = 0xEAF1FF7B5CECA249#64 := by
  decide +kernel

/-- Settles O31: R138's lane (0,0) is not 0. -/
theorem permuteOfZeroStateIsNotZero : Obligations.PermuteOfZeroStateIsNotZero := by
  obtain ⟨hfirst, hlast⟩ := keccakP_zeroArray_lanes
  refine ⟨mapArray keccakP State.reset, rfl, hfirst, hlast, fun hzero => ?_⟩
  have hlane : laneAt (keccakP zeroArray) 0 0 = laneAt zeroArray 0 0 := congrArg (laneAt · 0 0) hzero
  rw [hfirst, laneAt_zeroArray] at hlane
  exact absurd hlane (by decide)

end Sys2Proof.Machine
end

section
/-!
The sponge commands ABSORB, PAD and SQUEEZE (42_sponge.md R160 to R166). ABSORB and SQUEEZE are chains of byte accesses,
each at the array and position NEXT() leaves (`nextBlock_A_eq`, `nextBlock_pos_eq`), and PAD is two more XORs there, so
the commands' own statements are read off the chains. A byte access looks at the array, RATE and POS only (`SameBlock`),
which is why a command can be split in two at any byte.
-/

namespace Sys2Proof.Machine

/-! ## NEXT() (R161) -/

theorem pos_eq_rate_iff (s : State) : s.pos = s.rate ↔ s.pos.toNat = s.rate.toNat :=
  ⟨congrArg BitVec.toNat, BitVec.eq_of_toNat_eq⟩

theorem nextBlock_A_eq (s : State) : (nextBlock s).A = accessArray s := by
  simp only [nextBlock_A, accessArray, pos_eq_rate_iff]

theorem nextBlock_pos_eq (s : State) : (nextBlock s).pos.toNat = accessPos s := by
  rw [nextBlock_pos, accessPos, apply_ite BitVec.toNat]
  simp only [pos_eq_rate_iff, BitVec.toNat_zero]

theorem accessPos_lt {s : State} (h : SpongeReady s) : accessPos s < s.rate.toNat := by
  simpa only [nextBlock_pos_eq] using nextBlock_pos_lt h

theorem accessPos_of_pos_lt {s : State} (h : s.pos.toNat < s.rate.toNat) : accessPos s = s.pos.toNat :=
  if_neg (Nat.ne_of_lt h)

theorem accessArray_of_pos_lt {s : State} (h : s.pos.toNat < s.rate.toNat) : accessArray s = s.A :=
  if_neg (Nat.ne_of_lt h)

theorem accessPos_of_pos_eq {s : State} (h : s.pos.toNat = s.rate.toNat) : accessPos s = 0 := if_pos h

theorem accessArray_of_pos_eq {s : State} (h : s.pos.toNat = s.rate.toNat) : accessArray s = keccakP s.A := if_pos h

/-! ## One byte access (R163, R166) -/

theorem absorbByte_A_eq (s : State) (b : Byte) : (absorbByte s b).A = xorByte (accessArray s) (accessPos s) b := by
  rw [absorbByte_A, nextBlock_A_eq, nextBlock_pos_eq]

theorem toNat_absorbByte_pos {s : State} (h : SpongeReady s) (b : Byte) :
    (absorbByte s b).pos.toNat = accessPos s + 1 := by
  rw [absorbByte_pos, nextBlock_pos_succ h, nextBlock_pos_eq]

theorem absorbByte_absorbsByte {s : State} (h : SpongeReady s) (b : Byte) : AbsorbsByte s b (absorbByte s b) := by
  refine ⟨fun k hk => ?_, toNat_absorbByte_pos h b, absorbByte_rate s b⟩
  rw [memRead_absorbByte h b k hk, nextBlock_A_eq, nextBlock_pos_eq]

theorem squeezeByte_A_eq (s : State) : (squeezeByte s).A = accessArray s := by
  rw [squeezeByte_A, nextBlock_A_eq]

theorem toNat_squeezeByte_pos {s : State} (h : SpongeReady s) : (squeezeByte s).pos.toNat = accessPos s + 1 := by
  rw [squeezeByte_pos, nextBlock_pos_succ h, nextBlock_pos_eq]

theorem squeezedByte_eq (s : State) : squeezedByte s = memRead (accessArray s) (accessPos s) := by
  rw [squeezedByte, nextBlock_A_eq, nextBlock_pos_eq]

theorem squeezeByte_squeezesByte {s : State} (h : SpongeReady s) : SqueezesByte s (squeezedByte s) (squeezeByte s) :=
  ⟨squeezedByte_eq s, squeezeByte_A_eq s, toNat_squeezeByte_pos h, squeezeByte_rate s⟩

/-! ## What the byte accesses look at -/

/-- The two states agree on the array, RATE and POS, which is all that a byte access looks at. -/
structure SameBlock (s s' : State) : Prop where
  A : s'.A = s.A
  rate : s'.rate = s.rate
  pos : s'.pos = s.pos

section

variable {s s' : State} (h : SameBlock s s')
include h

theorem SameBlock.spongeReady (hr : SpongeReady s) : SpongeReady s' := by
  simpa only [SpongeReady, h.rate, h.pos] using hr

theorem SameBlock.nextBlock : SameBlock (nextBlock s) (nextBlock s') := by
  constructor <;> simp [nextBlock_A, nextBlock_pos, h.A, h.rate, h.pos]

theorem SameBlock.absorbByte (b : Byte) : SameBlock (absorbByte s b) (absorbByte s' b) := by
  constructor <;> simp [h.nextBlock.A, h.nextBlock.pos, h.rate]

theorem SameBlock.absorbBytes (bs : List Byte) : SameBlock (absorbBytes bs s) (absorbBytes bs s') := by
  induction bs generalizing s s' with
  | nil => exact h
  | cons b bs ih => exact ih (h.absorbByte b)

theorem SameBlock.squeezeByte : SameBlock (squeezeByte s) (squeezeByte s') := by
  constructor <;> simp [h.nextBlock.A, h.nextBlock.pos, h.rate]

theorem SameBlock.squeezedByte_eq : squeezedByte s' = squeezedByte s := by
  simp only [squeezedByte, h.nextBlock.A, h.nextBlock.pos]

theorem SameBlock.squeezeBytes (n : Nat) :
    (squeezeBytes n s').1 = (squeezeBytes n s).1 ∧ SameBlock (squeezeBytes n s).2 (squeezeBytes n s').2 := by
  induction n generalizing s s' with
  | zero => exact ⟨rfl, h⟩
  | succ n ih =>
    obtain ⟨hbytes, hstate⟩ := ih h.squeezeByte
    exact ⟨congrArg₂ List.cons h.squeezedByte_eq hbytes, hstate⟩

end

/-! ## The commands where they execute, and their rejections -/

theorem withRate_rejects {s : State} (h : s.rate = 0#8) (k : Result) :
    ∃ t, withRate s k = .next t ∧ Rejects .badRate s t :=
  ⟨_, withRate_zero h k, raiseCmdError_rejects .badRate s⟩

theorem suffixLegal_eq_false {slen : BitVec 3} {suf : BitVec 6}
    (h : slen.toNat = 7 ∨ suf.toNat / 2 ^ slen.toNat ≠ 0) : suffixLegal slen suf = false := by
  rw [suffixLegal, Bool.and_eq_false_iff, decide_eq_false_iff_not, decide_eq_false_iff_not]
  refine h.imp (fun hlen => by omega) fun hsuf hzero => hsuf ?_
  simpa [Nat.shiftRight_eq_div_pow] using congrArg BitVec.toNat hzero

theorem withSuffix_rejects {slen : BitVec 3} {suf : BitVec 6} (h : slen.toNat = 7 ∨ suf.toNat / 2 ^ slen.toNat ≠ 0)
    (s : State) (k : Result) : ∃ t, withSuffix slen suf s k = .next t ∧ Rejects .badSuffix s t :=
  ⟨_, withSuffix_illegal (suffixLegal_eq_false h) s k, raiseCmdError_rejects .badSuffix s⟩

theorem exec_absorb {s : State} (h : SpongeReady s) (cnt : BitVec 3) :
    exec (.absorb cnt) s = .next (absorbBytes (lowBytes s.pend.data (byteCount cnt)) s) :=
  withRate_ready h _

theorem exec_squeeze {s : State} (h : SpongeReady s) (cnt : BitVec 3) :
    exec (.squeeze cnt) s =
      .next { (squeezeBytes (byteCount cnt) s).2 with result := packBytes (squeezeBytes (byteCount cnt) s).1 } :=
  withRate_ready h _

/-- What an ABSORB that executes leaves. -/
theorem exec_absorb_next {cnt : BitVec 3} {s t : State} (h : SpongeReady s) (ht : exec (.absorb cnt) s = .next t) :
    SameBlock (absorbBytes (lowBytes s.pend.data (byteCount cnt)) s) t := by
  cases (exec_absorb h cnt).symm.trans ht
  exact ⟨rfl, rfl, rfl⟩

/-- What a SQUEEZE that executes leaves. -/
theorem exec_squeeze_next {cnt : BitVec 3} {s t : State} (h : SpongeReady s) (ht : exec (.squeeze cnt) s = .next t) :
    t.result = packBytes (squeezeBytes (byteCount cnt) s).1 ∧ SameBlock (squeezeBytes (byteCount cnt) s).2 t := by
  cases (exec_squeeze h cnt).symm.trans ht
  exact ⟨rfl, rfl, rfl, rfl⟩

/-- With a legal suffix PAD comes to its RATE check. -/
theorem exec_pad_legal {slen : BitVec 3} {suf : BitVec 6} (hlen : slen.toNat ≤ 6) (hsuf : suf.toNat < 2 ^ slen.toNat)
    (s : State) : exec (.pad slen suf) s = withRate s (.next (padBlock (padByte slen suf) s)) :=
  withSuffix_legal (suffixLegal_of_range (Nat.lt_succ_of_le hlen) hsuf) s _

theorem exec_pad {slen : BitVec 3} {suf : BitVec 6} {s : State} (h : SpongeReady s) (hlen : slen.toNat ≤ 6)
    (hsuf : suf.toNat < 2 ^ slen.toNat) : exec (.pad slen suf) s = .next (padBlock (padByte slen suf) s) :=
  (exec_pad_legal hlen hsuf s).trans (withRate_ready h _)

/-! ## ABSORB (R163) -/

theorem lowBytes_succ (w : Word) (n : Nat) : lowBytes w (n + 1) = lowBytes w n ++ [wordByte w n] := by
  simp [lowBytes, List.range_succ]

/-- Settles O38: the chain is the ABSORBs of the first j bytes. -/
theorem absorbXorsBytesInOrder : Obligations.AbsorbXorsBytesInOrder := by
  refine ⟨fun cnt => toNat_or_field 0x10#64 cnt (by decide) (by decide), fun cnt s h => ?_,
    fun _ _ h => withRate_rejects h _⟩
  refine ⟨_, fun j => absorbBytes (lowBytes s.pend.data j) s, exec_absorb h cnt, rfl, rfl, fun j _ => ?_,
    absorbBytes_frame _ s, absorbBytes_ready _ h⟩
  simp only [lowBytes_succ, absorbBytes_append]
  exact absorbByte_absorbsByte (absorbBytes_ready _ h) _

theorem wordByte_ushiftRight (w : Word) (m j : Nat) : wordByte (w >>> (8 * m)) j = wordByte w (m + j) := by
  apply BitVec.eq_of_getLsbD_eq
  intro i _
  rw [getLsbD_wordByte, getLsbD_wordByte, BitVec.getLsbD_ushiftRight, Nat.mul_add, Nat.add_assoc]

theorem lowBytes_add (w : Word) (m n : Nat) : lowBytes w (m + n) = lowBytes w m ++ lowBytes (w >>> (8 * m)) n := by
  simp [lowBytes, List.range_add, wordByte_ushiftRight]

/-- Settles O40: the bytes are the same chain, and with RATE = 0 all three commands are rejected. -/
theorem absorbSplitsAnywhere : Obligations.AbsorbSplitsAnywhere := by
  intro m n k s t u v hk ht hu hv
  have hcount : byteCount k = byteCount m + byteCount n := hk
  rcases withRate_cases s (.next (absorbBytes (lowBytes s.pend.data (byteCount m)) s)) with
    ⟨h0, -⟩ | ⟨h, -⟩ | ⟨-, -, hfault⟩
  · cases (withRate_zero h0 _).symm.trans ht
    cases (withRate_zero h0 _).symm.trans hu
    cases (withRate_zero (by simpa using h0) _).symm.trans hv
    simp
  · have hu := exec_absorb_next h hu
    have hlatched : SameBlock (absorbBytes (lowBytes s.pend.data (byteCount m)) s)
        { u with pend := { u.pend with data := s.pend.data >>> (8 * byteCount m) } } := ⟨hu.A, hu.rate, hu.pos⟩
    have hv := exec_absorb_next (hlatched.spongeReady (absorbBytes_ready _ h)) hv
    have ht := exec_absorb_next h ht
    have hboth := hlatched.absorbBytes (lowBytes (s.pend.data >>> (8 * byteCount m)) (byteCount n))
    rw [← absorbBytes_append, ← lowBytes_add, ← hcount] at hboth
    exact ⟨(hv.A.trans hboth.A).trans ht.A.symm, (hv.pos.trans hboth.pos).trans ht.pos.symm⟩
  · cases hfault.symm.trans hu

/-! ## PAD (R164, R165) -/

theorem toNat_padByte {slen : BitVec 3} {suf : BitVec 6} (hlen : slen.toNat ≤ 6) (hsuf : suf.toNat < 2 ^ slen.toNat) :
    (padByte slen suf).toNat = suf.toNat + 2 ^ slen.toNat := by
  have hpow : 2 ^ slen.toNat < 2 ^ 8 := Nat.pow_lt_pow_right (by decide) (by omega)
  rw [padByte, BitVec.toNat_or, BitVec.toNat_setWidth_of_le (by decide), BitVec.toNat_shiftLeft, Nat.shiftLeft_eq,
    BitVec.toNat_ofNat, Nat.one_mod, Nat.one_mul, Nat.mod_eq_of_lt hpow, Nat.or_comm, Nat.add_comm]
  simpa using (Nat.two_pow_add_eq_or_of_lt hsuf 1).symm

theorem memRead_xorByte_eq_xor (A : StateArray) {j k : Nat} (v : Byte) (hj : j < 200) (hk : k < 200) :
    memRead (xorByte A j v) k = memRead A k ^^^ if k = j then v else 0#8 := by
  rw [memRead_xorByte A j k v hj hk]
  split <;> simp

theorem padBlock_A_eq (pb : Byte) (s : State) :
    (padBlock pb s).A = xorByte (xorByte (accessArray s) (accessPos s) pb) (s.rate.toNat - 1) 0x80#8 := by
  rw [← nextBlock_A_eq, ← nextBlock_pos_eq, ← nextBlock_rate s]
  rfl

/-- The word of PAD: OP, SLEN and SUF at bits 0, 12 and 16. -/
theorem toNat_padWord (slen : BitVec 3) (suf : BitVec 6) :
    (encode (.pad slen suf)).toNat = 0x11 + slen.toNat * 2 ^ 12 + suf.toNat * 2 ^ 16 := by
  have hslen := slen.isLt
  have hop : (opcode (.pad slen suf) ||| (slen.setWidth 64 <<< 12)).toNat = 0x11 + slen.toNat * 2 ^ 12 :=
    toNat_or_field 0x11#64 slen (by decide) (by decide)
  exact (toNat_or_field _ suf (by omega) (by decide)).trans (by rw [hop])

/-- Settles O41: two XORs into the array that NEXT() leaves. -/
theorem padFramesTheBlock : Obligations.PadFramesTheBlock := by
  refine ⟨toNat_padWord, fun slen suf s h hlen hsuf => ?_, fun _ _ s hbad => withSuffix_rejects hbad s _,
    fun _ _ s h0 hlen hsuf => (exec_pad_legal hlen hsuf s).symm ▸ withRate_rejects h0 _⟩
  refine ⟨_, exec_pad h hlen hsuf, fun k hk => ?_, padBlock_pos s _, (padBlock_completes _ h).frame,
    padBlock_result s _⟩
  have hrate := h.2.1
  have hpos := accessPos_lt h
  have hbyte : padByte slen suf = BitVec.ofNat 8 (suf.toNat + 2 ^ slen.toNat) := by
    rw [← toNat_padByte hlen hsuf, BitVec.ofNat_toNat, BitVec.setWidth_eq]
  rw [padBlock_A_eq, memRead_xorByte_eq_xor _ _ (by omega) hk, memRead_xorByte_eq_xor _ _ (by omega) hk, hbyte]

/-! ## SQUEEZE (R166, R172) -/

theorem squeezeBytes_succ_last (n : Nat) (s : State) :
    squeezeBytes (n + 1) s =
      ((squeezeBytes n s).1 ++ [squeezedByte (squeezeBytes n s).2], squeezeByte (squeezeBytes n s).2) :=
  squeezeBytes_add n 1 s

theorem getD_squeezeBytes {j n : Nat} (h : j < n) (s : State) :
    (squeezeBytes n s).1.getD j 0#8 = squeezedByte (squeezeBytes j s).2 := by
  induction n with
  | zero => exact absurd h (Nat.not_lt_zero j)
  | succ n ih =>
    rw [squeezeBytes_succ_last]
    rcases Nat.lt_succ_iff_lt_or_eq.mp h with hlt | rfl
    · rw [List.getD_append _ _ _ _ (by rwa [length_squeezeBytes]), ih hlt]
    · rw [List.getD_append_right _ _ _ _ (length_squeezeBytes ..).le, length_squeezeBytes, Nat.sub_self]
      rfl

/-- Settles O42: the chain is the states after the first j bytes. -/
theorem squeezeReadsBytesInOrder : Obligations.SqueezeReadsBytesInOrder := by
  refine ⟨fun cnt => toNat_or_field 0x12#64 cnt (by decide) (by decide), fun cnt s h => ?_,
    fun _ _ h => withRate_rejects h _⟩
  have hcnt := cnt.isLt
  refine ⟨_, fun j => (squeezeBytes j s).2, exec_squeeze h cnt, rfl, fun j hj => ?_, rfl, rfl, fun j hj hj8 => ?_,
    (squeezeBytes_completes _ _ h).frame, squeezeBytes_ready _ h⟩
  · rw [wordByte_packBytes _ _ (by omega), byteCount, getD_squeezeBytes (Nat.lt_succ_of_le hj)]
    simp only [squeezeBytes_succ_last]
    exact squeezeByte_squeezesByte (squeezeBytes_ready j h)
  · rw [wordByte_packBytes _ _ hj8, List.getD_eq_default]
    rw [length_squeezeBytes]
    exact hj

/-- Settles O43: the bytes of m + n accesses are those of m and then of n. -/
theorem squeezeSplitsAnywhere : Obligations.SqueezeSplitsAnywhere := by
  intro m n k s t u v hk ht hu hv h
  have hk8 := k.isLt
  have hcount : byteCount k = byteCount m + byteCount n := hk
  obtain ⟨htres, ht⟩ := exec_squeeze_next h ht
  obtain ⟨hures, hu⟩ := exec_squeeze_next h hu
  obtain ⟨hvres, hv⟩ := exec_squeeze_next (hu.spongeReady (squeezeBytes_ready _ h)) hv
  obtain ⟨hbytes, hboth⟩ := hu.squeezeBytes (byteCount n)
  rw [hcount, squeezeBytes_add] at ht htres
  refine ⟨fun j hj => ?_, fun j hj => ?_, (hv.A.trans hboth.A).trans ht.A.symm,
    (hv.pos.trans hboth.pos).trans ht.pos.symm⟩
  · rw [htres, hures, wordByte_packBytes _ _ (by omega), wordByte_packBytes _ _ (by omega),
      List.getD_append _ _ _ _ (by rw [length_squeezeBytes, byteCount]; omega)]
  · have hsub : m.toNat + 1 + j - byteCount m = j := Nat.add_sub_cancel_left ..
    rw [htres, hvres, hbytes, wordByte_packBytes _ _ (by omega), wordByte_packBytes _ _ (by omega),
      List.getD_append_right _ _ _ _ (by rw [length_squeezeBytes, byteCount]; omega), length_squeezeBytes, hsub]

end Sys2Proof.Machine
end

section
/-!
The byte-serial commands compute the source's block-wise sponge (42_sponge.md R167 to R172). Two invariants carry the
proof: `Absorbed`, in which the message so far is a number of whole blocks, permuted away, and the bytes of the current
block; and `Squeezed`, in which the next byte has its number i in one output of any length (`outputByte`).
PAD's two XORs are one XOR of the source's padded last block (`xorBytes_padMessage`), which takes the first invariant to
the second (`Absorbed.padBlock`).
-/

namespace Sys2Proof.Machine

open Source

/-! ## Padding (R170) -/

theorem lt_paddedLength {r : Nat} (hr : 1 ≤ r) (L : Nat) : L < paddedLength r L := Nat.lt_mul_div_succ L hr

@[simp] theorem length_padMessage (r : Nat) (slen : BitVec 3) (suf : BitVec 6) (M : List Byte) :
    (padMessage r slen suf M).length = paddedLength r M.length := by
  rw [padMessage, List.length_map, List.length_range]

/-- Settles O45: a multiple `r * c` above L has `L / r < c`, and the last byte past L has room for SLEN + 2 bits. -/
theorem paddedLengthIsLeastMultiple : Obligations.PaddedLengthIsLeastMultiple := by
  intro r slen suf M hr hlen
  have hlt := lt_paddedLength hr M.length
  refine ⟨Nat.dvd_mul_right r _, hlt, ?_, by omega, length_padMessage r slen suf M⟩
  rintro _ ⟨c, rfl⟩ hc
  exact Nat.mul_le_mul_left r (Nat.div_lt_of_lt_mul hc)

theorem getElem_padMessage (r : Nat) (slen : BitVec 3) (suf : BitVec 6) (M : List Byte) {k : Nat}
    (hk : k < (padMessage r slen suf M).length) :
    (padMessage r slen suf M)[k] =
      (if k < M.length then M.getD k 0#8 else if k = M.length then padByte slen suf else 0#8) |||
        (if k + 1 = paddedLength r M.length then 0x80#8 else 0#8) := by
  simp only [padMessage, List.getElem_map, List.getElem_range]

theorem paddedLength_add {r : Nat} (hr : 1 ≤ r) (q L : Nat) :
    paddedLength r (q * r + L) = q * r + paddedLength r L := by
  rw [paddedLength, paddedLength, Nat.add_comm (q * r), Nat.add_mul_div_right _ _ hr]
  ring

theorem paddedLength_of_lt {r L : Nat} (h : L < r) : paddedLength r L = r := by
  rw [paddedLength, Nat.div_eq_of_lt h, Nat.zero_add, Nat.mul_one]

/-- Whole blocks before the message do not change its padding. -/
theorem padMessage_append {r q : Nat} (slen : BitVec 3) (suf : BitVec 6) {Q : List Byte} (hr : 1 ≤ r)
    (hQ : Q.length = q * r) (D : List Byte) : padMessage r slen suf (Q ++ D) = Q ++ padMessage r slen suf D := by
  have hpadded : paddedLength r (Q.length + D.length) = Q.length + paddedLength r D.length := by
    rw [hQ, paddedLength_add hr]
  have hlt := lt_paddedLength hr D.length
  apply List.ext_getElem
  · simp only [length_padMessage, List.length_append, hpadded]
  · intro k _ _
    rw [getElem_padMessage, List.length_append, hpadded]
    by_cases hk : k < Q.length
    · rw [List.getElem_append_left hk, if_pos (by omega), if_neg (by omega), List.getD_append _ _ _ _ hk,
        List.getD_eq_getElem _ _ hk, BitVec.or_zero]
    · rw [List.getElem_append_right (by omega), getElem_padMessage, List.getD_append_right _ _ _ _ (by omega)]
      congr 1
      · exact if_congr (by omega) rfl (if_congr (by omega) rfl rfl)
      · exact if_congr (by omega) rfl rfl

theorem padByte_or_finalBit {slen : BitVec 3} {suf : BitVec 6} (hlen : slen.toNat ≤ 6)
    (hsuf : suf.toNat < 2 ^ slen.toNat) : padByte slen suf ||| 0x80#8 = padByte slen suf ^^^ 0x80#8 := by
  have hpow : 2 ^ slen.toNat ≤ 2 ^ 6 := Nat.pow_le_pow_right (by decide) hlen
  have hlow : (padByte slen suf).toNat < 128 := by
    rw [toNat_padByte hlen hsuf]
    omega
  have hor : ∀ b : Byte, b.toNat < 128 → b ||| 0x80#8 = b ^^^ 0x80#8 := by decide
  exact hor _ hlow

/-- The last block holds its message bytes, the pad byte and the final bit, at places that do not overlap. -/
theorem getD_padMessage_lastBlock {r : Nat} {slen : BitVec 3} {suf : BitVec 6} (hlen : slen.toNat ≤ 6)
    (hsuf : suf.toNat < 2 ^ slen.toNat) {D : List Byte} (hD : D.length < r) (j : Nat) :
    (padMessage r slen suf D).getD j 0#8 =
      D.getD j 0#8 ^^^ (if j = D.length then padByte slen suf else 0#8) ^^^ (if j = r - 1 then 0x80#8 else 0#8) := by
  have hblock : (padMessage r slen suf D).length = r := by rw [length_padMessage, paddedLength_of_lt hD]
  by_cases hj : j < r
  · rw [List.getD_eq_getElem _ _ (by rwa [hblock]), getElem_padMessage, paddedLength_of_lt hD,
      if_congr (by omega : j + 1 = r ↔ j = r - 1) rfl rfl]
    rcases Nat.lt_trichotomy j D.length with hlt | rfl | hgt
    · rw [if_pos hlt, if_neg (by omega), if_neg (by omega), BitVec.or_zero, BitVec.xor_zero, BitVec.xor_zero]
    · rw [if_neg (Nat.lt_irrefl _), if_pos rfl, List.getD_eq_default _ _ le_rfl, BitVec.zero_xor]
      split
      · exact padByte_or_finalBit hlen hsuf
      · rw [BitVec.or_zero, BitVec.xor_zero]
    · rw [if_neg (by omega), if_neg (by omega), List.getD_eq_default _ _ (by omega), BitVec.zero_or, BitVec.zero_xor,
        BitVec.zero_xor]
  · rw [List.getD_eq_default _ _ (by omega), List.getD_eq_default _ _ (by omega), if_neg (by omega), if_neg (by omega)]
    rfl

/-! ## XORing a block into the state (R169) -/

theorem xorBytes_append (A : StateArray) (k : Nat) (bs cs : List Byte) :
    xorBytes A k (bs ++ cs) = xorBytes (xorBytes A k bs) (k + bs.length) cs := by
  induction bs generalizing A k with
  | nil => rfl
  | cons b bs ih => rw [List.cons_append, xorBytes, ih, xorBytes, List.length_cons, Nat.add_right_comm, Nat.add_assoc]

theorem memRead_xorBytes (A : StateArray) (k : Nat) (bs : List Byte) (hfit : k + bs.length ≤ 200) {j : Nat}
    (hj : j < 200) : memRead (xorBytes A k bs) j = memRead A j ^^^ if k ≤ j then bs.getD (j - k) 0#8 else 0#8 := by
  induction bs generalizing A k with
  | nil => simp [xorBytes]
  | cons b bs ih =>
    rw [List.length_cons] at hfit
    rw [xorBytes, ih _ _ (by omega), memRead_xorByte_eq_xor _ _ (by omega) hj, BitVec.xor_assoc]
    congr 1
    rcases Nat.lt_trichotomy j k with hlt | rfl | hgt
    · rw [if_neg (by omega), if_neg (by omega), if_neg (by omega), BitVec.xor_zero]
    · simp
    · have hsub : j - k = j - (k + 1) + 1 := by omega
      rw [if_neg (by omega), if_pos (by omega), if_pos (by omega), hsub, List.getD_cons_succ, BitVec.zero_xor]

/-- PAD's two XORs after the bytes of the last block are one XOR of the padded last block (R164, R165). -/
theorem xorBytes_padMessage {r : Nat} {slen : BitVec 3} {suf : BitVec 6} (hlen : slen.toNat ≤ 6)
    (hsuf : suf.toNat < 2 ^ slen.toNat) (A : StateArray) {D : List Byte} (hD : D.length < r) (hr : r ≤ 200) :
    xorBytes A 0 (padMessage r slen suf D) =
      xorByte (xorByte (xorBytes A 0 D) D.length (padByte slen suf)) (r - 1) 0x80#8 := by
  have hblock : (padMessage r slen suf D).length = r := by rw [length_padMessage, paddedLength_of_lt hD]
  apply array_ext_bytes
  intro j hj
  rw [memRead_xorBytes _ _ _ (by omega) hj, memRead_xorByte_eq_xor _ _ (by omega) hj,
    memRead_xorByte_eq_xor _ _ (by omega) hj, memRead_xorBytes _ _ _ (by omega) hj, if_pos (Nat.zero_le j),
    if_pos (Nat.zero_le j), Nat.sub_zero, getD_padMessage_lastBlock hlen hsuf hD]
  simp only [BitVec.xor_assoc]

/-- The blocks of a message that ends in one more whole block. -/
theorem absorbBlocks_append {r q : Nat} {Q D : List Byte} (hQ : Q.length = q * r) (hD : D.length = r)
    (A : StateArray) :
    absorbBlocks r (q + 1) (Q ++ D) A = keccakP (xorBytes (absorbBlocks r q Q A) 0 D) := by
  induction q generalizing Q A with
  | zero =>
    obtain rfl : Q = [] := List.eq_nil_of_length_eq_zero (by rw [hQ, Nat.zero_mul])
    rw [List.nil_append, absorbBlocks, absorbBlocks, absorbBlocks, List.take_of_length_le hD.le]
  | succ q ih =>
    have hle : r ≤ Q.length := by rw [hQ]; exact Nat.le_mul_of_pos_left r q.succ_pos
    have hdrop : (Q.drop r).length = q * r := by rw [List.length_drop, hQ, Nat.succ_mul, Nat.add_sub_cancel]
    rw [absorbBlocks, List.drop_append_of_le_length hle, List.take_append_of_le_length hle, ih hdrop]
    rfl

/-! ## Absorbing (R167, R169) -/

/-- The array of the source's sponge when it has absorbed the padded message. -/
def absorbedArray (r : Nat) (slen : BitVec 3) (suf : BitVec 6) (M : List Byte) : StateArray :=
  absorbBlocks r (paddedLength r M.length / r) (padMessage r slen suf M) zeroArray

/-- The array is what message M leaves: its whole blocks Q absorbed and permuted away, and its other bytes D, p of them,
XORed into the current block. -/
def AbsorbedBytes (r : Nat) (M : List Byte) (A : StateArray) (p : Nat) : Prop :=
  ∃ (q : Nat) (Q D : List Byte), M = Q ++ D ∧ Q.length = q * r ∧ D.length = p ∧
    A = xorBytes (absorbBlocks r q Q zeroArray) 0 D

theorem absorbedBytes_nil (r : Nat) : AbsorbedBytes r [] zeroArray 0 :=
  ⟨0, [], [], rfl, (Nat.zero_mul r).symm, rfl, rfl⟩

section

variable {r p : Nat} {M : List Byte} {A : StateArray} (h : AbsorbedBytes r M A p)
include h

theorem AbsorbedBytes.xorByte (b : Byte) : AbsorbedBytes r (M ++ [b]) (xorByte A p b) (p + 1) := by
  obtain ⟨q, Q, D, rfl, hQ, rfl, rfl⟩ := h
  refine ⟨q, Q, D ++ [b], List.append_assoc .., hQ, List.length_append, ?_⟩
  rw [xorBytes_append, Nat.zero_add]
  rfl

/-- A filled block is permuted away. -/
theorem AbsorbedBytes.permute (hp : p = r) : AbsorbedBytes r M (keccakP A) 0 := by
  obtain ⟨q, Q, D, rfl, hQ, hD, rfl⟩ := h
  refine ⟨q + 1, Q ++ D, [], (List.append_nil _).symm, ?_, rfl, (absorbBlocks_append hQ (hD.trans hp) _).symm⟩
  rw [List.length_append, hQ, hD, hp, Nat.succ_mul]

/-- PAD and the permutation owed after it complete the source's absorbing phase. -/
theorem AbsorbedBytes.pad {slen : BitVec 3} {suf : BitVec 6} (hlen : slen.toNat ≤ 6) (hsuf : suf.toNat < 2 ^ slen.toNat)
    (hp : p < r) (hr : r ≤ 200) :
    keccakP (Machine.xorByte (Machine.xorByte A p (padByte slen suf)) (r - 1) 0x80#8) =
      absorbedArray r slen suf M := by
  obtain ⟨q, Q, D, rfl, hQ, rfl, rfl⟩ := h
  have hr1 : 1 ≤ r := by omega
  have hcount : paddedLength r (Q ++ D).length / r = q + 1 := by
    rw [List.length_append, hQ, paddedLength_add hr1, paddedLength_of_lt hp, ← Nat.succ_mul, Nat.mul_div_cancel _ hr1]
  have hblock : (padMessage r slen suf D).length = r := by rw [length_padMessage, paddedLength_of_lt hp]
  rw [absorbedArray, hcount, padMessage_append slen suf hr1 hQ, absorbBlocks_append hQ hblock,
    xorBytes_padMessage hlen hsuf _ hp hr]

end

/-- The state has taken message M into a sponge of rate r. -/
structure Absorbed (r : Nat) (M : List Byte) (s : State) : Prop where
  ready : SpongeReady s
  rate : s.rate.toNat = r
  bytes : AbsorbedBytes r M s.A s.pos.toNat

section

variable {r : Nat} {M : List Byte} {s : State} (h : Absorbed r M s)
include h

theorem Absorbed.of_sameBlock {s' : State} (hs : SameBlock s s') : Absorbed r M s' where
  ready := hs.spongeReady h.ready
  rate := by rw [hs.rate, h.rate]
  bytes := by rw [hs.A, hs.pos]; exact h.bytes

theorem Absorbed.access : AbsorbedBytes r M (accessArray s) (accessPos s) := by
  unfold accessArray accessPos
  split
  · next hfull => exact h.bytes.permute (hfull.trans h.rate)
  · exact h.bytes

theorem Absorbed.absorbByte (b : Byte) : Absorbed r (M ++ [b]) (absorbByte s b) where
  ready := absorbByte_ready h.ready b
  rate := by rw [absorbByte_rate, h.rate]
  bytes := by
    rw [absorbByte_A_eq, toNat_absorbByte_pos h.ready]
    exact h.access.xorByte b

theorem Absorbed.absorbBytes (bs : List Byte) : Absorbed r (M ++ bs) (absorbBytes bs s) := by
  induction bs generalizing M s with
  | nil => rwa [List.append_nil]
  | cons b bs ih => simpa using ih (h.absorbByte b)

end

/-! ## Squeezing (R168, R169, R172) -/

/-- Byte i of the output of a sponge that starts to squeeze from array A. -/
def outputByte (r : Nat) (A : StateArray) (i : Nat) : Byte := memRead (keccakP^[i / r] A) (i % r)

theorem outputByte_add_rate {r : Nat} (hr : 1 ≤ r) (A : StateArray) (i : Nat) :
    outputByte r A (r + i) = outputByte r (keccakP A) i := by
  rw [outputByte, Nat.add_div_left i hr, Nat.add_mod_left, Function.iterate_succ_apply, outputByte]

theorem squeezeBlocks_eq {r : Nat} (hr : 1 ≤ r) (n : Nat) (A : StateArray) :
    squeezeBlocks r n A = (List.range (n * r)).map (outputByte r A) := by
  induction n generalizing A with
  | zero => rw [Nat.zero_mul]; rfl
  | succ n ih =>
    have hfirst : ∀ i ∈ List.range r, memRead A i = outputByte r A i := fun i hi => by
      have hlt := List.mem_range.mp hi
      rw [outputByte, Nat.div_eq_of_lt hlt, Nat.mod_eq_of_lt hlt, Function.iterate_zero_apply]
    rw [squeezeBlocks, ih, List.map_congr_left hfirst, Nat.succ_mul, Nat.add_comm, List.range_add, List.map_append,
      List.map_map, List.map_congr_left fun i _ => (outputByte_add_rate hr A i).symm]
    rfl

/-- The source's sponge is the first D bytes of the output. -/
theorem sponge_eq {r : Nat} (hr : 1 ≤ r) (slen : BitVec 3) (suf : BitVec 6) (M : List Byte) (D : Nat) :
    sponge r slen suf M D = (List.range D).map (outputByte r (absorbedArray r slen suf M)) := by
  have hle : D ≤ (D / r + 1) * r := by rw [Nat.mul_comm]; exact (lt_paddedLength hr D).le
  rw [sponge, ← absorbedArray, squeezeBlocks_eq hr, ← List.map_take, List.take_range, Nat.min_eq_left hle]

/-- The state has given i bytes of the output of a sponge of rate r that started to squeeze from array A. -/
structure Squeezed (r : Nat) (A : StateArray) (i : Nat) (s : State) : Prop where
  ready : SpongeReady s
  rate : s.rate.toNat = r
  array : accessArray s = keccakP^[i / r] A
  pos : accessPos s = i % r

section

variable {r i : Nat} {A : StateArray} {s : State} (h : Squeezed r A i s)
include h

theorem Squeezed.of_sameBlock {s' : State} (hs : SameBlock s s') : Squeezed r A i s' where
  ready := hs.spongeReady h.ready
  rate := by rw [hs.rate, h.rate]
  array := by rw [← h.array, ← nextBlock_A_eq, ← nextBlock_A_eq, hs.nextBlock.A]
  pos := by rw [← h.pos, ← nextBlock_pos_eq, ← nextBlock_pos_eq, hs.nextBlock.pos]

theorem Squeezed.squeezedByte_eq : squeezedByte s = outputByte r A i := by
  rw [Machine.squeezedByte_eq, h.array, h.pos, outputByte]

theorem Squeezed.squeezeByte : Squeezed r A (i + 1) (squeezeByte s) := by
  have hr : 1 ≤ r := h.rate ▸ h.ready.1
  have hdiv := Nat.div_add_mod i r
  have hrate : (Machine.squeezeByte s).rate.toNat = r := by rw [squeezeByte_rate, h.rate]
  have hpos : (Machine.squeezeByte s).pos.toNat = i % r + 1 := by rw [toNat_squeezeByte_pos h.ready, h.pos]
  have hA : (Machine.squeezeByte s).A = keccakP^[i / r] A := by rw [squeezeByte_A_eq, h.array]
  rcases Nat.lt_or_eq_of_le (Nat.succ_le_of_lt (Nat.mod_lt i hr)) with hin | hfull
  · obtain ⟨hblock, hplace⟩ : (i + 1) / r = i / r ∧ (i + 1) % r = i % r + 1 :=
      (Nat.div_mod_unique hr).mpr ⟨by omega, hin⟩
    have hlt : (Machine.squeezeByte s).pos.toNat < (Machine.squeezeByte s).rate.toNat := by rwa [hpos, hrate]
    exact ⟨squeezeByte_ready h.ready, hrate, by rw [accessArray_of_pos_lt hlt, hA, hblock],
      by rw [accessPos_of_pos_lt hlt, hpos, hplace]⟩
  · obtain ⟨hblock, hplace⟩ : (i + 1) / r = i / r + 1 ∧ (i + 1) % r = 0 :=
      (Nat.div_mod_unique hr).mpr ⟨by rw [Nat.mul_succ]; omega, hr⟩
    have heq : (Machine.squeezeByte s).pos.toNat = (Machine.squeezeByte s).rate.toNat := by rwa [hpos, hrate]
    exact ⟨squeezeByte_ready h.ready, hrate,
      by rw [accessArray_of_pos_eq heq, hA, hblock, Function.iterate_succ_apply'],
      by rw [accessPos_of_pos_eq heq, hplace]⟩

theorem Squeezed.squeezeBytes (n : Nat) :
    (squeezeBytes n s).1 = (List.range' i n).map (outputByte r A) ∧ Squeezed r A (i + n) (squeezeBytes n s).2 := by
  induction n generalizing i s with
  | zero => exact ⟨rfl, h⟩
  | succ n ih =>
    obtain ⟨hbytes, hend⟩ := ih h.squeezeByte
    refine ⟨congrArg₂ List.cons h.squeezedByte_eq hbytes, ?_⟩
    rwa [Nat.add_right_comm] at hend

end

/-! ## From absorbing to squeezing (R165, R168) -/

/-- PAD leaves the source's array, with its last permutation owed, and no output byte given. -/
theorem Absorbed.padBlock {r : Nat} {M : List Byte} {s : State} (h : Absorbed r M s) {slen : BitVec 3} {suf : BitVec 6}
    (hlen : slen.toNat ≤ 6) (hsuf : suf.toNat < 2 ^ slen.toNat) :
    Squeezed r (absorbedArray r slen suf M) 0
      (padBlock (padByte slen suf) s) := by
  have hlt := h.rate ▸ accessPos_lt h.ready
  have hr : r ≤ 200 := h.rate ▸ h.ready.2.1
  have hfull : (Machine.padBlock (padByte slen suf) s).pos.toNat =
      (Machine.padBlock (padByte slen suf) s).rate.toNat := by rw [padBlock_pos, padBlock_rate]
  refine ⟨padBlock_ready h.ready _, by rw [padBlock_rate, h.rate], ?_, ?_⟩
  · rw [accessArray_of_pos_eq hfull, padBlock_A_eq, h.rate, h.access.pad hlen hsuf hlt hr, Nat.zero_div,
      Function.iterate_zero_apply]
  · rw [accessPos_of_pos_eq hfull, Nat.zero_mod]

/-! ## The commands one after another (R167, R168) -/

/-- The state with a command and its operand latched, as `runCommand` performs it. -/
def latched (i : Instr) (d : Word) (s : State) : State :=
  { s with pend := { valid := true, word := encode i, data := d } }

theorem runCommand_eq (i : Instr) (d : Word) (s : State) : runCommand i d s = completed (exec i (latched i d s)) := rfl

theorem runCommand_of_exec {i : Instr} {d : Word} {s t : State} (ht : exec i (latched i d s) = .next t) :
    runCommand i d s = .next (complete t) := by
  rw [runCommand_eq, ht, completed]

theorem sameBlock_latched (i : Instr) (d : Word) (s : State) : SameBlock s (latched i d s) := ⟨rfl, rfl, rfl⟩

theorem sameBlock_complete (s : State) : SameBlock s (complete s) := ⟨rfl, rfl, rfl⟩

theorem runCommands_append {cs : List (Instr × Word)} {s t : State} (ht : runCommands cs s = .next t)
    (ds : List (Instr × Word)) : runCommands (cs ++ ds) s = runCommands ds t := by
  induction cs generalizing s with
  | nil => cases ht; rfl
  | cons c cs ih =>
    rw [List.cons_append, runCommands]
    rw [runCommands] at ht
    split at ht
    · exact ih ht
    · cases ht
    · cases ht

/-- DATA gives a piece back byte for byte. -/
theorem exec_absorbOf {piece : List Byte} (hpiece : 1 ≤ piece.length ∧ piece.length ≤ 8) {s : State}
    (h : SpongeReady s) (hdata : s.pend.data = packBytes piece) :
    exec (absorbOf piece) s = .next (absorbBytes piece s) := by
  have hcount : byteCount (BitVec.ofNat 3 (piece.length - 1)) = piece.length := by
    rw [byteCount, BitVec.toNat_ofNat]
    omega
  rw [absorbOf, exec_absorb h, hdata, hcount, lowBytes_packBytes _ hpiece.2]

theorem runCommand_init (d : Word) {s : State} (h1 : 1 ≤ s.rate.toNat) (h200 : s.rate.toNat ≤ 200) :
    ∃ t, runCommand .init d s = .next t ∧ Absorbed s.rate.toNat [] t :=
  ⟨_, runCommand_of_exec rfl, ⟨h1, h200, Nat.zero_le _⟩, rfl, absorbedBytes_nil _⟩

section

variable {r : Nat} {M : List Byte} {s : State} (h : Absorbed r M s)
include h

/-- The ABSORB of a piece absorbs the piece. -/
theorem Absorbed.runCommand_absorbOf {piece : List Byte} (hpiece : 1 ≤ piece.length ∧ piece.length ≤ 8) :
    ∃ t, runCommand (absorbOf piece) (packBytes piece) s = .next t ∧ Absorbed r (M ++ piece) t := by
  have h := h.of_sameBlock (sameBlock_latched (absorbOf piece) (packBytes piece) s)
  exact ⟨_, runCommand_of_exec (exec_absorbOf hpiece h.ready rfl),
    (h.absorbBytes piece).of_sameBlock (sameBlock_complete _)⟩

/-- The ABSORBs of all the pieces absorb the message they make up. -/
theorem Absorbed.runCommands_pieces {pieces : List (List Byte)} (hpieces : ∀ p ∈ pieces, 1 ≤ p.length ∧ p.length ≤ 8) :
    ∃ t, runCommands (pieces.map fun piece => (absorbOf piece, packBytes piece)) s = .next t ∧
      Absorbed r (M ++ pieces.flatten) t := by
  induction pieces generalizing M s with
  | nil => exact ⟨s, rfl, by simpa using h⟩
  | cons piece pieces ih =>
    obtain ⟨u, hu, hpiece⟩ := h.runCommand_absorbOf (hpieces piece (.head _))
    obtain ⟨t, ht, hall⟩ := ih hpiece fun p hp => hpieces p (.tail _ hp)
    exact ⟨t, by rw [List.map_cons, runCommands, hu]; exact ht, by simpa using hall⟩

/-- After PAD the output starts from the source's array. -/
theorem Absorbed.runCommand_pad {slen : BitVec 3} {suf : BitVec 6} (hlen : slen.toNat ≤ 6)
    (hsuf : suf.toNat < 2 ^ slen.toNat) (d : Word) :
    ∃ t, runCommand (.pad slen suf) d s = .next t ∧
      Squeezed r (absorbedArray r slen suf M) 0 t := by
  have h := h.of_sameBlock (sameBlock_latched (.pad slen suf) d s)
  exact ⟨_, runCommand_of_exec (exec_pad h.ready hlen hsuf), (h.padBlock hlen hsuf).of_sameBlock (sameBlock_complete _)⟩

end

section

variable {r i : Nat} {A : StateArray} {s : State} (h : Squeezed r A i s)
include h

/-- RESULT holds the next bytes of the output. -/
theorem Squeezed.runCommand_squeeze (cnt : BitVec 3) (d : Word) :
    ∃ t, runCommand (.squeeze cnt) d s = .next t ∧
      lowBytes t.result (byteCount cnt) = (List.range' i (byteCount cnt)).map (outputByte r A) ∧
      Squeezed r A (i + byteCount cnt) t := by
  have h := h.of_sameBlock (sameBlock_latched (.squeeze cnt) d s)
  obtain ⟨hbytes, hend⟩ := h.squeezeBytes (byteCount cnt)
  refine ⟨_, runCommand_of_exec (exec_squeeze h.ready cnt), ?_, hend.of_sameBlock ⟨rfl, rfl, rfl⟩⟩
  have hlow := lowBytes_packBytes (Machine.squeezeBytes (byteCount cnt) (latched (.squeeze cnt) d s)).1
    (by rw [length_squeezeBytes]; exact (byteCount_bounds cnt).2)
  rw [length_squeezeBytes] at hlow
  exact hlow.trans hbytes

theorem Squeezed.runSqueezes (cnts : List (BitVec 3)) :
    ∃ u, runSqueezes cnts s = some ((List.range' i (squeezedLength cnts)).map (outputByte r A), u) := by
  induction cnts generalizing i s with
  | nil => exact ⟨s, rfl⟩
  | cons cnt cnts ih =>
    obtain ⟨t, ht, hbytes, hend⟩ := h.runCommand_squeeze cnt 0#64
    obtain ⟨u, hu⟩ := ih hend
    refine ⟨u, ?_⟩
    have hlength : squeezedLength (cnt :: cnts) = byteCount cnt + squeezedLength cnts := rfl
    rw [Machine.runSqueezes, ht]
    simp only [hu, hbytes, hlength, ← List.map_append, List.range'_append_1]

end

/-- Settles O44: both sides are the first bytes of the one output that starts from the source's array. -/
theorem byteSerialSpongeIsBlockSponge : Obligations.ByteSerialSpongeIsBlockSponge := by
  intro slen suf pieces cnts s h1 h200 hlen hsuf hpieces
  obtain ⟨t₁, hinit, h₁⟩ := runCommand_init 0#64 h1 h200
  obtain ⟨t₂, habsorb, h₂⟩ := h₁.runCommands_pieces hpieces
  obtain ⟨t₃, hpad, h₃⟩ := h₂.runCommand_pad hlen hsuf 0#64
  obtain ⟨u, hu⟩ := h₃.runSqueezes cnts
  refine ⟨t₃, u, ?_, ?_⟩
  · rw [absorbCommands, List.cons_append, runCommands, hinit]
    exact (runCommands_append habsorb _).trans (by rw [runCommands, hpad]; rfl)
  · rw [hu, sponge_eq h1, ← List.range_eq_range']
    rfl

end Sys2Proof.Machine
end

section
/-!
What stops a step, and what a rejection leaves behind (60_exceptions.md R204, R208, R215). Under the invariant the pending
word decodes to a well-formed command that finds RATE and POS in range, so the engine's turn always completes; a step can
then stop only for the environment's own move. `NotesRejection` is the ghost flag's relation between two states; whatever
keeps STATUS and the flag satisfies it, and so does a rejection.
-/

namespace Sys2Proof.Machine

/-! ## The pending command under the invariant (60_exceptions.md R208) -/

/-- What R202 promises of a pending word. -/
theorem decode_of_pendingLegal {s : State} (h : s.pendingLegal = true) :
    ∃ i, decode s.pend.word = .ok i ∧ (i.isSponge = true → s.rate ≠ 0#8) := by
  unfold State.pendingLegal at h
  split at h
  next i hd => exact ⟨i, hd, fun hs => by simpa [hs] using h⟩
  next => cases h

section

variable {s : State} (h : s.Inv)
include h

/-- A configured RATE is in range, and POS is in the block (10_state.md R36). -/
theorem State.Inv.spongeReady (h0 : s.rate ≠ 0#8) : SpongeReady s := by
  refine ⟨Nat.pos_of_ne_zero fun hz => h0 (BitVec.eq_of_toNat_eq ?_), h.rate_legal, h.pos_legal⟩
  simpa using hz

/-- The pending command completes by its rule: decode has made every check that could reject it. -/
theorem State.Inv.exec_pending (hv : s.pend.valid = true) :
    ∃ i u, decode s.pend.word = .ok i ∧ exec i s = .next u ∧ Completes s u := by
  obtain ⟨i, hd, hrate⟩ := decode_of_pendingLegal (h.pending_legal hv)
  obtain ⟨-, -, hw⟩ := of_decode_eq_ok hd
  obtain ⟨u, hu, hc⟩ := exec_wellFormed hw fun hs => h.spongeReady (hrate hs)
  exact ⟨i, u, hd, hu, hc⟩

/-- The engine's turn never stops. -/
theorem State.Inv.exists_engineStep_next : ∃ t, engineStep s = .next t := by
  cases hv : s.pend.valid with
  | false => exact ⟨s, engineStep_idle hv⟩
  | true =>
    obtain ⟨i, u, hd, hu, -⟩ := h.exec_pending hv
    exact ⟨complete u, engineStep_of_exec_next hv hd hu⟩

/-- A step goes on unless the environment's next move is a bus error or a second host's access. -/
theorem State.Inv.step_cases :
    (∃ t, step s = .next t) ∨
      (∃ a ms, s.moves = .host a :: ms ∧ busErrorAccess a ∧ step s = .fault (.busError a)) ∨
      (∃ a ms, s.moves = .secondHost a :: ms ∧ step s = .refused .secondHost) := by
  unfold step
  split
  next => exact .inl h.exists_engineStep_next
  next a ms hm =>
    by_cases hbe : busErrorAccess a
    · exact .inr (.inl ⟨a, ms, hm, hbe, hostStep_busError hbe _⟩)
    · obtain ⟨t, ht, -⟩ := hostStep_taken hbe { s with moves := ms }
      exact .inl ⟨t, ht⟩
  next ms _ => exact .inl (h.setMoves ms).exists_engineStep_next
  next => exact .inl ⟨_, rfl⟩
  next a ms hm => exact .inr (.inr ⟨a, ms, hm, rfl⟩)

end

theorem engineStep_of_undecodable {s : State} {e : CmdErr} (hv : s.pend.valid = true)
    (hd : decode s.pend.word = .error e) : engineStep s = .fault (.pendingWord e) := by
  simp [engineStep, hv, hd]

/-- Settles O10: the pending command completes, and a completed command keeps DATA, RATE, STATUS and the moves to come. -/
theorem acceptedCommandNeverFails : Obligations.AcceptedCommandNeverFails := by
  intro s ms h hv
  obtain ⟨i, u, hd, hu, hc⟩ := (h.setMoves ms).exec_pending hv
  obtain ⟨hdata, hrate, hst, -, -, hmoves, -⟩ := hc.frame
  exact ⟨complete u, engineStep_of_exec_next (s := { s with moves := ms }) hv hd hu, rfl, hst, hmoves, hdata, hrate⟩

/-- Settles O11: of the ways a step can go under the invariant, one faults and one is refused. -/
theorem onlyBusErrorsFault : Obligations.OnlyBusErrorsFault := by
  intro s h
  rcases h.step_cases with ⟨t, ht⟩ | ⟨a, ms, hm, hbe, hf⟩ | ⟨a, ms, hm, hr⟩
  · simp [ht]
  · rw [hf]
    exact ⟨fun _ he => ⟨a, ms, hm, hbe, by cases he; rfl⟩, nofun⟩
  · rw [hr]
    exact ⟨nofun, fun _ he => ⟨a, ms, hm, by cases he; rfl⟩⟩

/-- Settles O47: the engine's turn decodes the pending word first. -/
theorem undecodablePendingWordFaults : Obligations.UndecodablePendingWordFaults := fun s ms _ =>
  engineStep_of_undecodable (s := { s with moves := ms })

/-- Settles O59: the step refuses the move before it looks at the access or the state. -/
theorem secondHostIsRefused : Obligations.SecondHostIsRefused := fun _ _ _ => rfl

/-! ## The ghost flag (60_exceptions.md R204; log 8) -/

/-- From `s` to `t` the ghost flag is not cleared, and a first error sets it. -/
structure NotesRejection (s t : State) : Prop where
  kept : s.rejected = true → t.rejected = true
  noted : s.err = false → t.err = true → t.rejected = true

/-- Where the flag stays and ERR does not rise, nothing is to be noted. -/
theorem notesRejection_of_same {s t : State} (hrej : t.rejected = s.rejected) (herr : t.err = true → s.err = true) :
    NotesRejection s t where
  kept h := hrej.trans h
  noted h0 h1 := absurd (herr h1) (by simp [h0])

theorem raiseCmdError_notesRejection (e : CmdErr) (s : State) : NotesRejection s (raiseCmdError e s) := by
  constructor
  · intro h
    simp [h]
  · intro h0 _
    simp [h0]

theorem writeReg_notesRejection (r : PortReg) (v : Word) (s : State) : NotesRejection s (writeReg r v s) := by
  cases r with
  | cmd =>
    rcases issue_cases v s with ⟨-, hi⟩ | ⟨-, e, hi⟩ | ⟨-, -, i, -, -, hi⟩ <;> rw [writeReg, hi]
    · exact notesRejection_of_same rfl id
    · exact raiseCmdError_notesRejection e s
    · exact notesRejection_of_same rfl id
  | rate =>
    rcases writeRate_cases v s with ⟨-, hw⟩ | ⟨-, e, hw⟩ | ⟨-, -, -, -, hw⟩ <;> rw [writeReg, hw]
    · exact notesRejection_of_same rfl id
    · exact raiseCmdError_notesRejection e s
    · exact notesRejection_of_same rfl id
  | status =>
    rcases writeStatus_cases v s with hw | hw <;> rw [writeReg, hw]
    · exact notesRejection_of_same rfl (by simp)
    · exact notesRejection_of_same rfl id
  | data | lane | result | pos => exact notesRejection_of_same rfl id

theorem hostStep_notesRejection {a : Access} {s t : State} (hs : hostStep a s = .next t) : NotesRejection s t := by
  rcases hostStep_cases a s with ⟨_, _, r, -, -, hn⟩ | ⟨_, _, v, r, -, -, hn⟩ | ⟨-, hn⟩ <;> rw [hn] at hs <;> cases hs
  · obtain ⟨-, ⟨herr, -⟩, hrej, -⟩ := readReg_frame r s
    exact notesRejection_of_same hrej herr.symm.trans
  · exact { writeReg_notesRejection r v s with }

theorem exec_notesRejection {i : Instr} {s t : State} (he : exec i s = .next t) : NotesRejection s t := by
  rcases exec_cases i s with ⟨e, hr⟩ | ⟨u, hu, hc⟩ | ⟨hf, -⟩
  · cases hr.symm.trans he
    exact raiseCmdError_notesRejection e s
  · cases hu.symm.trans he
    obtain ⟨-, -, ⟨herr, -⟩, -, hrej, -⟩ := hc.frame
    exact notesRejection_of_same hrej herr.symm.trans
  · cases hf.symm.trans he

theorem engineStep_notesRejection {s t : State} (hs : engineStep s = .next t) : NotesRejection s t := by
  rcases engineStep_next hs with ⟨-, rfl⟩ | ⟨i, u, -, -, hu, rfl⟩
  · exact notesRejection_of_same rfl id
  · exact { exec_notesRejection hu with }

/-- Settles O16: a reset keeps the flag and clears ERR; a host access and an engine turn note the rejection they make. -/
theorem rejectionIsNeverForgotten : Obligations.RejectionIsNeverForgotten := by
  intro s t hs
  have hnotes : NotesRejection s t := by
    rcases step_next hs with ⟨ms, -, rfl⟩ | ⟨a, ms, -, ha⟩ | ⟨-, ms, he⟩
    · exact notesRejection_of_same rfl (by simp)
    · exact { hostStep_notesRejection ha with }
    · exact { engineStep_notesRejection he with }
  exact ⟨hnotes.kept, hnotes.noted⟩

end Sys2Proof.Machine
end

section
/-!
The writes that STATUS has a say in (60_exceptions.md R202 to R206): one equation for each way a CMD or a RATE write can
go, in the order of the rule's checks, the bits of STATUS, and the steps put together from them.
-/

namespace Sys2Proof.Machine

/-! ## A write as a step -/

theorem step_write {r : PortReg} (hr : writable .w64 r.offset = some r) (v : Word) (s : State) (ms : List Move) :
    step { s with moves := .host (.write .w64 r.offset v) :: ms } =
      .next { writeReg r v { s with moves := ms } with replies := .done :: s.replies } := by
  simp [step, hostStep, hr]

/-! ## CMD (60_exceptions.md R202) -/

theorem issue_draws (W : Word) (s : State) : (issue W s).draws = s.draws := by
  rcases issue_cases W s with ⟨-, hi⟩ | ⟨-, e, hi⟩ | ⟨-, -, i, -, -, hi⟩ <;> simp [hi]

section

variable {s : State} {W : Word}

theorem issue_dropped (he : s.err = true) (W : Word) : issue W s = s := by
  simp [issue, he]

theorem issue_busy (he : s.err = false) (hv : s.pend.valid = true) (W : Word) : issue W s = raiseCmdError .busy s := by
  simp [issue, he, hv]

theorem issue_undecodable {e : CmdErr} (he : s.err = false) (hv : s.pend.valid = false) (hd : decode W = .error e) :
    issue W s = raiseCmdError e s := by
  simp [issue, he, hv, hd]

variable {i : Instr} (he : s.err = false) (hv : s.pend.valid = false) (hd : decode W = .ok i)
include he hv hd

theorem issue_unconfigured (hs : i.isSponge = true) (h0 : s.rate = 0#8) : issue W s = raiseCmdError .badRate s := by
  simp [issue, he, hv, hd, hs, h0]

theorem issue_accepted (hr : i.isSponge = true → s.rate ≠ 0#8) :
    issue W s = { s with pend := { valid := true, word := W, data := s.data } } := by
  have hready : ¬ (i.isSponge = true ∧ s.rate = 0#8) := fun h => hr h.1 h.2
  simp [issue, he, hv, hd, hready]

end

/-- Settles O48: the five ways of a CMD write, on the state without its move. -/
theorem cmdWriteAcceptance : Obligations.CmdWriteAcceptance := by
  intro s W ms
  let s₀ : State := { s with moves := ms }
  refine ⟨_, step_write (r := .cmd) rfl W s ms, writeReg_moves .cmd W s₀, rfl, issue_draws W s₀, fun he => ?_,
    fun he hv => ?_, fun e he hv hd => ?_, fun i he hv hd hs h0 => ?_, fun i he hv hd hr => ?_⟩ <;> rw [writeReg]
  · rw [issue_dropped (s := s₀) he]
    exact ⟨⟨rfl, rfl, rfl, rfl, rfl, rfl⟩, rfl, rfl⟩
  · rw [issue_busy (s := s₀) he hv]
    exact raiseCmdError_rejects .busy s₀
  · rw [issue_undecodable (s := s₀) he hv hd]
    exact raiseCmdError_rejects e s₀
  · rw [issue_unconfigured (s := s₀) he hv hd hs h0]
    exact raiseCmdError_rejects .badRate s₀
  · rw [issue_accepted (s := s₀) he hv hd hr]
    exact ⟨rfl, ⟨rfl, rfl⟩, rfl, rfl, rfl, rfl, rfl⟩

/-! ## RATE (60_exceptions.md R206) -/

section

variable {s : State} {v : Word}

theorem writeRate_dropped (he : s.err = true) (v : Word) : writeRate v s = s := by
  simp [writeRate, he]

theorem writeRate_busy (he : s.err = false) (hv : s.pend.valid = true) (v : Word) :
    writeRate v s = raiseCmdError .busy s := by
  simp [writeRate, he, hv]

theorem writeRate_outside (he : s.err = false) (hv : s.pend.valid = false) (hout : v.toNat < 1 ∨ 200 < v.toNat) :
    writeRate v s = raiseCmdError .badRate s := by
  simp only [writeRate, he, hv, Bool.false_eq_true, if_false, if_pos hout]

theorem writeRate_inside (he : s.err = false) (hv : s.pend.valid = false) (h1 : 1 ≤ v.toNat) (h200 : v.toNat ≤ 200) :
    writeRate v s = { s with rate := v.setWidth 8, pos := 0#8 } := by
  have hin : ¬ (v.toNat < 1 ∨ 200 < v.toNat) := by omega
  simp only [writeRate, he, hv, Bool.false_eq_true, if_false, if_neg hin]

end

/-- Settles O51: the four ways of a RATE write, on the state without its move; a value up to 200 fits into RATE. -/
theorem rateWriteSetsRateAndClearsPos : Obligations.RateWriteSetsRateAndClearsPos := by
  intro s v ms
  let s₀ : State := { s with moves := ms }
  refine ⟨_, step_write (r := .rate) rfl v s ms, writeReg_moves .rate v s₀, rfl, fun he => ?_, fun he hv => ?_,
    fun he hv hout => ?_, fun he hv h1 h200 => ?_⟩ <;> rw [writeReg]
  · rw [writeRate_dropped (s := s₀) he]
    exact ⟨⟨rfl, rfl, rfl, rfl, rfl, rfl⟩, rfl, rfl⟩
  · rw [writeRate_busy (s := s₀) he hv]
    exact raiseCmdError_rejects .busy s₀
  · rw [writeRate_outside (s := s₀) he hv hout]
    exact raiseCmdError_rejects .badRate s₀
  · rw [writeRate_inside (s := s₀) he hv h1 h200]
    have hfits : (v.setWidth 8).toNat = v.toNat := by
      rw [BitVec.toNat_setWidth]
      omega
    exact ⟨hfits, rfl, ⟨rfl, rfl⟩, rfl, rfl, rfl, rfl⟩

/-- Settles O50: while busy both writes are the rejection with BUSY, which keeps PEND and every register. -/
theorem busyRejectsCmdAndRateWrites : Obligations.BusyRejectsCmdAndRateWrites := by
  intro s v ms o hv he ho
  have rejected : ∀ t, Rejects .busy s t → t.err = true ∧ t.errCode = 7#4 ∧ sameRegs s t := by
    rintro t ⟨herr, hcode, hregs⟩
    exact ⟨herr, by simpa [he, CmdErr.code] using hcode, hregs⟩
  rcases ho with rfl | rfl
  · obtain ⟨t, ht, hmoves, -, -, -, hbusy, -⟩ := cmdWriteAcceptance s v ms
    obtain ⟨herr, hcode, hregs⟩ := rejected t (hbusy he hv)
    exact ⟨t, ht, herr, hcode, hregs, hmoves⟩
  · obtain ⟨t, ht, hmoves, -, -, hbusy, -⟩ := rateWriteSetsRateAndClearsPos s v ms
    obtain ⟨herr, hcode, hregs⟩ := rejected t (hbusy he hv)
    exact ⟨t, ht, herr, hcode, hregs, hmoves⟩

/-! ## STATUS (10_state.md R28, 60_exceptions.md R204) -/

/-- The bits of STATUS, from bit 0 up. -/
theorem getLsbD_statusWord (s : State) (z : Nat) :
    (statusWord s).getLsbD z =
      if z = 0 then s.pend.valid else if z = 1 then s.err else if z < 8 then false else s.errCode.getLsbD (z - 8) := by
  change (0#52 ++ s.errCode ++ 0#6 ++ BitVec.ofBool s.err ++ BitVec.ofBool s.busy).getLsbD z = _
  simp only [BitVec.getLsbD_append]
  rcases z with - | z | z
  · simp [State.busy]
  · simp
  · have hcode : z + 1 + 1 < 8 ↔ z < 6 := by omega
    have hhigh : 4 ≤ z - 6 → s.errCode.getLsbD (z - 6) = false := BitVec.getLsbD_of_ge _ _
    by_cases h4 : z - 6 < 4
    · simp [hcode, h4]
    · simp [hhigh (by omega)]

/-- Bits 11:8 of STATUS are ERRCODE. -/
theorem statusWord_errCode (s : State) : (statusWord s).extractLsb' 8 4 = s.errCode := by
  apply BitVec.eq_of_getLsbD_eq
  intro z hz
  have h1 : 8 + z ≠ 1 := by omega
  simp [getLsbD_statusWord, hz, h1]

/-- Bits 7:2 and 63:12 of STATUS are 0. -/
theorem statusWord_reserved (s : State) {z : Nat} (hz : 2 ≤ z ∧ z < 8 ∨ 12 ≤ z) : (statusWord s).getLsbD z = false := by
  rw [getLsbD_statusWord, if_neg (by omega), if_neg (by omega)]
  rcases hz with ⟨-, hlt⟩ | hge
  · exact if_pos hlt
  · rw [if_neg (by omega)]
    exact BitVec.getLsbD_of_ge _ _ (by omega)

theorem step_writeStatus_clear {v : Word} (hv : v.getLsbD 1 = true) (s : State) (ms : List Move) :
    step { s with moves := .host (.write .w64 offStatus v) :: ms } =
      .next { s with err := false, errCode := 0#4, moves := ms, replies := .done :: s.replies } := by
  refine (step_write (r := .status) rfl v s ms).trans ?_
  rw [writeReg, writeStatus, if_pos hv, clearError]

theorem step_writeStatus_ignored {v : Word} (hv : v.getLsbD 1 = false) (s : State) (ms : List Move) :
    step { s with moves := .host (.write .w64 offStatus v) :: ms } =
      .next { s with moves := ms, replies := .done :: s.replies } := by
  refine (step_write (r := .status) rfl v s ms).trans ?_
  rw [writeReg, writeStatus, if_neg (ne_true_of_eq_false hv)]

/-- Settles O52: STATUS is defined in every state with the bits of its fields; bit 1 alone decides a write. -/
theorem statusReadsFieldsAndClearsOnWrite : Obligations.StatusReadsFieldsAndClearsOnWrite := fun s ms =>
  ⟨⟨statusWord s, step_read_defined (r := .status) ms (.inr rfl), statusWord_busy s, statusWord_err s,
      statusWord_errCode s, fun _ => statusWord_reserved s⟩,
    fun _ hv => step_writeStatus_clear hv s ms, fun _ hv => step_writeStatus_ignored hv s ms, ⟨_, rfl, rfl, rfl⟩⟩

/-! ## The sticky error (60_exceptions.md R203) -/

/-- A read that is taken reads some register, at its offset. -/
theorem hostStep_read_next {w : Width} {o : BitVec 9} {s t : State} (h : hostStep (.read w o) s = .next t) :
    ∃ r : PortReg, w = .w64 ∧ o = r.offset ∧ t = readReg r s := by
  rcases hostStep_cases (.read w o) s with ⟨_, _, r, hrd, hr, hn⟩ | ⟨_, _, _, _, hwr, -⟩ | ⟨-, hn⟩
  · cases hrd
    cases hn.symm.trans h
    obtain ⟨hw, ho⟩ := readable_eq_some_iff.mp hr
    exact ⟨r, hw, ho, rfl⟩
  · cases hwr
  · cases hn.symm.trans h

/-- ERR and ERRCODE show in STATUS alone. -/
theorem readReg_setError {r : PortReg} (hr : r ≠ .status) (s : State) (err : Bool) (code : BitVec 4) :
    readReg r { s with err := err, errCode := code } = { readReg r s with err := err, errCode := code } := by
  have hvalue : regValue r { s with err := err, errCode := code } = regValue r s := by
    cases r with
    | status => exact absurd rfl hr
    | lane | data | result | cmd | rate | pos => rfl
  cases hdraw : s.pend.valid && r.unspecifiedWhileBusy <;> simp only [readReg, State.busy, hvalue, hdraw] <;> rfl

/-- A read of a register other than STATUS is the read with ERR = 0. -/
theorem hostStep_read_setError {o : BitVec 9} (ho : o ≠ offStatus) {s t : State} {err : Bool} {code : BitVec 4}
    (h : hostStep (.read .w64 o) { s with err := err, errCode := code } = .next t) :
    hostStep (.read .w64 o) s = .next { t with err := s.err, errCode := s.errCode } := by
  obtain ⟨r, -, rfl, rfl⟩ := hostStep_read_next h
  have hr : r ≠ .status := by
    rintro rfl
    exact ho rfl
  rw [hostStep_read]
  exact congrArg _ (readReg_setError hr { s with err := err, errCode := code } s.err s.errCode)

/-- Settles O49: ERR is looked at by CMD and RATE writes alone, and shows in STATUS alone. -/
theorem stickyErrorDropsWrites : Obligations.StickyErrorDropsWrites := by
  intro s ms he
  refine ⟨fun v => ?_, fun v => ?_, fun v => (dataHoldsLastHostWrite s v ms).1,
    fun _ hv => step_writeStatus_clear hv s ms, fun _ hv => step_writeStatus_ignored hv s ms,
    step_read_defined (r := .status) ms (.inr rfl), fun o t ht ho => ?_, fun h hv => ?_⟩
  · refine (step_write (r := .cmd) rfl v s ms).trans ?_
    rw [writeReg, issue_dropped (s := { s with moves := ms }) he]
  · refine (step_write (r := .rate) rfl v s ms).trans ?_
    rw [writeReg, writeRate_dropped (s := { s with moves := ms }) he]
  · rw [← he]
    exact hostStep_read_setError (s := { s with moves := ms }) ho ht
  · obtain ⟨i, u, hd, hu, hc⟩ := (h.setMoves ms).exec_pending hv
    obtain ⟨-, -, hst, -⟩ := hc.frame
    exact ⟨i, u, hd, hu, hst, engineStep_of_exec_next (s := { s with moves := ms }) hv hd hu⟩

end Sys2Proof.Machine
end

section
/-!
Reset, the busy hazard and completion (70_reset_and_hazards.md). While a command is pending, no access of the host
reaches what the command reads (`SamePending`), so its completion is the same change of the array, RESULT and POS before
the access as after it (`completedWith`). Legal moves are used up one by one, and the engine's turn is among them or
comes when they are used up (log 2).
-/

namespace Sys2Proof.Machine

/-! ## Reset (R240 to R242) -/

/-- Settles O1: with nothing pending the engine's turn does nothing. -/
theorem resetStateIsIdleAndZero : Obligations.ResetStateIsIdleAndZero :=
  ⟨rfl, rfl, rfl, laneAt_zeroArray, engineStep_idle rfl, fun _ => engineStep_idle rfl⟩

/-- Settles O2: the reset event takes every register from `State.reset`, whatever is pending. -/
theorem resetEventClearsHardware : Obligations.ResetEventClearsHardware := fun s ms =>
  ⟨resetEvent { s with moves := ms }, rfl, laneAt_zeroArray, rfl, rfl, rfl, rfl, rfl, rfl, rfl, rfl⟩

/-! ## What a pending command waits on -/

/-- The two states agree on the engine's registers and on the whole latch: the same command is pending, if any, with the
same inputs (20_memory.md R68). -/
structure SamePending (s s' : State) : Prop where
  A : s'.A = s.A
  result : s'.result = s.result
  rate : s'.rate = s.rate
  pos : s'.pos = s.pos
  pend : s'.pend = s.pend

theorem SamePending.refl (s : State) : SamePending s s := ⟨rfl, rfl, rfl, rfl, rfl⟩

theorem SamePending.trans {s t u : State} (h : SamePending s t) (h' : SamePending t u) : SamePending s u :=
  ⟨h'.A.trans h.A, h'.result.trans h.result, h'.rate.trans h.rate, h'.pos.trans h.pos, h'.pend.trans h.pend⟩

theorem SamePending.sameInputs {s s' : State} (h : SamePending s s') : SameInputs s s' :=
  ⟨h.A, h.rate, h.pos, h.result, congrArg Pend.data h.pend⟩

theorem samePending_of_sameRegs {s t : State} (h : sameRegs s t) : SamePending s t := by
  obtain ⟨hA, -, hresult, hrate, hpos, hpend⟩ := h
  exact ⟨hA, hresult, hrate, hpos, hpend⟩

/-- While a command is pending a write of CMD or RATE is dropped or rejected (60_exceptions.md R203, R205), and the
other writes do not reach the engine. -/
theorem writeReg_samePending {s : State} (hv : s.pend.valid = true) (r : PortReg) (v : Word) :
    SamePending s (writeReg r v s) := by
  have raised : ∀ e, SamePending s (raiseCmdError e s) := fun e => by constructor <;> simp
  cases r with
  | cmd =>
    rcases issue_cases v s with ⟨-, hi⟩ | ⟨-, e, hi⟩ | ⟨-, hidle, -⟩
    · rw [writeReg, hi]
      exact .refl s
    · rw [writeReg, hi]
      exact raised e
    · simp [hv] at hidle
  | rate =>
    rcases writeRate_cases v s with ⟨-, hw⟩ | ⟨-, e, hw⟩ | ⟨-, hidle, -⟩
    · rw [writeReg, hw]
      exact .refl s
    · rw [writeReg, hw]
      exact raised e
    · simp [hv] at hidle
  | status =>
    rcases writeStatus_cases v s with hw | hw <;> rw [writeReg, hw] <;> exact ⟨rfl, rfl, rfl, rfl, rfl⟩
  | data | lane | result | pos => exact ⟨rfl, rfl, rfl, rfl, rfl⟩

theorem hostStep_samePending {a : Access} {s t : State} (hv : s.pend.valid = true) (hs : hostStep a s = .next t) :
    SamePending s t := by
  rcases hostStep_cases a s with ⟨_, _, r, -, -, hn⟩ | ⟨_, _, v, r, -, -, hn⟩ | ⟨-, hn⟩ <;> rw [hn] at hs <;> cases hs
  · exact samePending_of_sameRegs (readReg_frame r s).1
  · exact { writeReg_samePending hv r v with }

/-! ## The completion as one change -/

/-- `s` with nothing pending and the array, RESULT and POS of `c`. -/
def completedWith (c s : State) : State := complete { s with A := c.A, result := c.result, pos := c.pos }

/-- A completion changes no more than the array, RESULT, POS and PEND.valid. -/
theorem Completes.complete_eq {s c t : State} (hc : Completes s t) (hct : SameInputs c t) :
    complete t = completedWith c s := by
  obtain ⟨hdata, hrate, ⟨herr, hcode⟩, hpend, hrej, hmoves, hreplies, hdraws⟩ := hc.frame
  cases t
  simp only [complete, completedWith, State.mk.injEq]
  exact ⟨hct.A, hdata, hct.result, hrate, hct.pos, herr, hcode, congrArg ({ · with valid := false }) hpend, hrej,
    hmoves, hreplies, hdraws⟩

/-- The pending command's completion is the same change of every state in which it is pending with its inputs. -/
theorem State.Inv.exists_completion {s : State} (h : s.Inv) (hv : s.pend.valid = true) :
    ∃ c, ∀ s', SamePending s s' → engineStep s' = .next (completedWith c s') := by
  obtain ⟨i, hd, hrate⟩ := decode_of_pendingLegal (h.pending_legal hv)
  obtain ⟨-, -, hw⟩ := of_decode_eq_ok hd
  have completes : ∀ s', SamePending s s' → ∃ t, exec i s' = .next t ∧ Completes s' t := fun s' hs' =>
    exec_wellFormed hw fun hs => hs'.sameInputs.spongeReady (h.spongeReady (hrate hs))
  obtain ⟨c, hc, -⟩ := completes s (.refl s)
  refine ⟨c, fun s' hs' => ?_⟩
  obtain ⟨t, ht, htc⟩ := completes s' hs'
  have same : SameOutcome (exec i s) (exec i s') := exec_sameOutcome hs'.sameInputs i
  rw [hc, ht] at same
  obtain ⟨t, ⟨⟩, hct⟩ := same.next_of_next
  rw [← htc.complete_eq hct]
  exact engineStep_of_exec_next (hs'.pend ▸ hv) (hs'.pend ▸ hd) ht

/-! ## Runs of the machine -/

theorem run_of_step {s t : State} {r : Result} {k : Nat} (h : step s = .next t) (hr : Host.Core.run core k t = r) :
    Host.Core.run core (k + 1) s = r := by
  have hstep : core.step s = .next t := h
  simp only [Host.Core.run, hstep]
  exact hr

/-! ## Accesses without busy hazard (R245, R246) -/

/-- The accesses that are neither a bus error nor a busy hazard: reads of DATA, CMD and RATE, the read of STATUS, and
writes of DATA and STATUS. -/
theorem hazardFree_cases {a : Access} (hbe : a.isBusError = false) (hhz : a.busyHazard = false) :
    (∃ r : PortReg, (r = .data ∨ r = .cmd ∨ r = .rate) ∧ a = .read .w64 r.offset) ∨ a = .read .w64 offStatus ∨
      ∃ (r : PortReg) (v : Word), (r = .data ∨ r = .status) ∧ a = .write .w64 r.offset v := by
  cases a with
  | read w o =>
    cases hr : readable w o with
    | none => simp [Access.isBusError, hr] at hbe
    | some r =>
      obtain ⟨rfl, rfl⟩ := readable_eq_some_iff.mp hr
      simp only [Access.busyHazard, hr] at hhz
      cases r with
      | lane | result | pos => cases hhz
      | status => exact .inr (.inl rfl)
      | data | cmd | rate => exact .inl ⟨_, by simp, rfl⟩
  | write w o v =>
    cases hw : writable w o with
    | none => simp [Access.isBusError, hw] at hbe
    | some r =>
      obtain ⟨rfl, rfl⟩ := readable_eq_some_iff.mp (readable_of_writable hw)
      simp only [Access.busyHazard, hw] at hhz
      rcases writable_cases hw with rfl | rfl | rfl | rfl
      · exact .inr (.inr ⟨.data, v, .inl rfl, rfl⟩)
      · cases hhz
      · exact .inr (.inr ⟨.status, v, .inr rfl, rfl⟩)
      · cases hhz

/-- A read of a register that is defined while busy, as a change of the state (20_memory.md R59). -/
def withRead (r : PortReg) (s : State) : State := { s with replies := .value (regValue r s) :: s.replies }

/-- A write of a writable register, as a change of the state (20_memory.md R59). -/
def withWrite (r : PortReg) (v : Word) (s : State) : State := { writeReg r v s with replies := .done :: s.replies }

theorem step_withRead {r : PortReg} (hr : r.unspecifiedWhileBusy = false) (s : State) (ms : List Move) :
    step { s with moves := .host (.read .w64 r.offset) :: ms } = .next { withRead r s with moves := ms } := by
  rw [step_read_defined ms (.inr hr)]
  cases r <;> rfl

theorem step_withWrite {r : PortReg} (hr : r = .data ∨ r = .status) (v : Word) (s : State) (ms : List Move) :
    step { s with moves := .host (.write .w64 r.offset v) :: ms } = .next { withWrite r v s with moves := ms } := by
  rcases hr with rfl | rfl
  · exact step_write rfl v s ms
  · rw [step_write rfl, withWrite, writeReg, writeReg, writeStatus, writeStatus]
    split <;> rfl

/-- A completion changes none of DATA, CMD and RATE. -/
theorem withRead_completedWith {r : PortReg} (hr : r = .data ∨ r = .cmd ∨ r = .rate) (c s : State) :
    withRead r (completedWith c s) = completedWith c (withRead r s) := by
  rcases hr with rfl | rfl | rfl <;> rfl

theorem withWrite_completedWith {r : PortReg} (hr : r = .data ∨ r = .status) (v : Word) (c s : State) :
    withWrite r v (completedWith c s) = completedWith c (withWrite r v s) := by
  rcases hr with rfl | rfl
  · rfl
  · rw [withWrite, withWrite, writeReg, writeReg, writeStatus, writeStatus]
    split <;> rfl

/-- The STATUS values before and after a completion differ in BUSY alone (10_state.md R28). -/
theorem getLsbD_statusWord_completedWith (c s : State) {z : Nat} (hz : z ≠ 0) :
    (statusWord s).getLsbD z = (statusWord (completedWith c s)).getLsbD z := by
  rw [getLsbD_statusWord, getLsbD_statusWord, if_neg hz, if_neg hz]
  rfl

/-- The two orders of the completion and an access that is the change `f` and leaves the pending command alone. -/
theorem State.Inv.run_access_and_completion {s : State} (h : s.Inv) (hv : s.pend.valid = true) {a : Access}
    {f : State → State} (hstep : ∀ s ms, step { s with moves := .host a :: ms } = .next { f s with moves := ms })
    (hf : SamePending s (f s)) (ms : List Move) :
    ∃ c, Host.Core.run core 2 { s with moves := .host a :: .engine :: ms } =
        .next { completedWith c (f s) with moves := ms } ∧
      Host.Core.run core 2 { s with moves := .engine :: .host a :: ms } =
        .next { f (completedWith c s) with moves := ms } := by
  obtain ⟨c, hc⟩ := h.exists_completion hv
  have after : step { f s with moves := .engine :: ms } = .next { completedWith c (f s) with moves := ms } :=
    hc { f s with moves := ms } { hf with }
  have before : step { s with moves := .engine :: .host a :: ms } =
      .next { completedWith c s with moves := .host a :: ms } :=
    hc { s with moves := .host a :: ms } ⟨rfl, rfl, rfl, rfl, rfl⟩
  exact ⟨c, run_of_step (hstep s _) (run_of_step after rfl), run_of_step before (run_of_step (hstep _ ms) rfl)⟩

/-- Settles O13: an access without busy hazard is a change that commutes with the completion, but for the STATUS
value. -/
theorem hazardFreeAccessCommutesWithCompletion : Obligations.HazardFreeAccessCommutesWithCompletion := by
  intro s a ms h hv hbe hhz
  rcases hazardFree_cases hbe hhz with ⟨r, hr, rfl⟩ | rfl | ⟨r, v, hr, rfl⟩
  · have hdefined : r.unspecifiedWhileBusy = false := by rcases hr with rfl | rfl | rfl <;> rfl
    have hoffset : r.offset ≠ offStatus := by rcases hr with rfl | rfl | rfl <;> decide
    obtain ⟨c, hbefore, hafter⟩ := h.run_access_and_completion hv (step_withRead hdefined) ⟨rfl, rfl, rfl, rfl, rfl⟩ ms
    exact ⟨_, _, hbefore, hafter, fun _ => by rw [withRead_completedWith hr],
      fun _ hstatus => absurd (Access.read.inj hstatus).2 hoffset⟩
  · obtain ⟨c, hbefore, hafter⟩ := h.run_access_and_completion hv (step_withRead (r := .status) rfl)
      ⟨rfl, rfl, rfl, rfl, rfl⟩ ms
    exact ⟨_, _, hbefore, hafter, fun hne => absurd rfl (hne .w64), fun _ _ =>
      ⟨statusWord s, statusWord (completedWith c s), rfl, rfl, (statusWord_busy s).trans hv, statusWord_busy _,
        fun _ => getLsbD_statusWord_completedWith c s⟩⟩
  · obtain ⟨c, hbefore, hafter⟩ := h.run_access_and_completion hv (step_withWrite hr v)
      { writeReg_samePending hv r v with } ms
    exact ⟨_, _, hbefore, hafter, fun _ => by rw [withWrite_completedWith hr], nofun⟩

/-! ## The environment's moves are used up (R251) -/

/-- The engine's turn leaves nothing pending and the moves to come as they are. -/
theorem State.Inv.engineStep_settles {s : State} (h : s.Inv) :
    ∃ t, engineStep s = .next t ∧ t.pend.valid = false ∧ t.moves = s.moves := by
  cases hv : s.pend.valid with
  | false => exact ⟨s, engineStep_idle hv, hv, rfl⟩
  | true =>
    obtain ⟨c, hc⟩ := h.exists_completion hv
    exact ⟨_, hc s (.refl s), rfl, rfl⟩

/-- Where the engine is next to move, the step is its turn, with the other moves left. -/
theorem step_of_engineTurn {s : State} (h : s.engineTurn) : step s = engineStep { s with moves := s.moves.tail } := by
  rcases h with hm | ⟨ms, hm⟩
  · simp only [step, hm, List.tail_nil]
    rw [← hm]
  · simp only [step, hm, List.tail_cons]

theorem step_of_host {s : State} {a : Access} {ms : List Move} (hm : s.moves = .host a :: ms) :
    step s = hostStep a { s with moves := ms } := by
  simp only [step, hm]

/-- A legal move is used up by the step. -/
theorem State.Inv.step_of_legal {s : State} (h : s.Inv) {m : Move} {ms : List Move} (hm : s.moves = m :: ms)
    (hl : m.legal = true) : ∃ t, step s = .next t ∧ t.moves = ms := by
  cases m with
  | host a =>
    rw [step_of_host hm]
    exact hostStep_taken (by simpa [Move.legal, ← isBusError_iff] using hl) _
  | engine =>
    rw [step_of_engineTurn (.inr ⟨ms, hm⟩), hm]
    obtain ⟨t, ht, -, htm⟩ := (h.setMoves ms).engineStep_settles
    exact ⟨t, ht, htm⟩
  | reset => exact ⟨resetEvent { s with moves := ms }, by simp only [step, hm], rfl⟩
  | secondHost a => cases hl

/-- One step more than there are moves: the last is the engine's turn on the empty list (log 2). -/
theorem State.Inv.run_settles {ms : List Move} {s : State} (h : s.Inv) (hm : s.moves = ms)
    (hl : ∀ m ∈ ms, m.legal = true) :
    ∃ t, Host.Core.run core (ms.length + 1) s = .next t ∧ t.moves = [] ∧ t.pend.valid = false ∧ t.Inv := by
  induction ms generalizing s with
  | nil =>
    obtain ⟨t, ht, hidle, htm⟩ := h.engineStep_settles
    have hstep : step s = .next t := by simpa only [step, hm] using ht
    exact ⟨t, run_of_step hstep rfl, htm.trans hm, hidle, stepKeepsInvariant s t h hstep⟩
  | cons m ms ih =>
    obtain ⟨t, ht, htm⟩ := h.step_of_legal hm (hl m List.mem_cons_self)
    obtain ⟨u, hu, hsettled⟩ := ih (stepKeepsInvariant s t h ht) htm fun n hn => hl n (List.mem_cons_of_mem m hn)
    exact ⟨u, run_of_step ht hu, hsettled⟩

/-- Without a reset the pending command waits unchanged through the host's accesses until the engine is next to move. -/
theorem State.Inv.run_to_engineTurn {ms : List Move} {s : State} (h : s.Inv) (hv : s.pend.valid = true)
    (hm : s.moves = ms) (hl : ∀ m ∈ ms, m.legal = true) (hr : .reset ∉ ms) :
    ∃ k ≤ ms.length, ∃ u : State, Host.Core.run core k s = .next u ∧ u.engineTurn ∧ SamePending s u ∧ u.Inv := by
  induction ms generalizing s with
  | nil => exact ⟨0, Nat.le_refl 0, s, rfl, .inl hm, .refl s, h⟩
  | cons m ms ih =>
    have hlegal := hl m List.mem_cons_self
    obtain ⟨t, ht, htm⟩ := h.step_of_legal hm hlegal
    cases m with
    | host a =>
      have hhost : hostStep a { s with moves := ms } = .next t := (step_of_host hm).symm.trans ht
      have hst : SamePending s t := { hostStep_samePending (s := { s with moves := ms }) hv hhost with }
      obtain ⟨k, hk, u, hu, hturn, htu, hinv⟩ := ih (stepKeepsInvariant s t h ht) (hst.pend ▸ hv) htm
        (fun n hn => hl n (List.mem_cons_of_mem _ hn)) fun hmem => hr (List.mem_cons_of_mem _ hmem)
      exact ⟨k + 1, Nat.succ_le_succ hk, u, run_of_step ht hu, hturn, hst.trans htu, hinv⟩
    | engine => exact ⟨0, Nat.zero_le _, s, rfl, .inr ⟨ms, hm⟩, .refl s, h⟩
    | reset => exact absurd List.mem_cons_self hr
    | secondHost a => cases hlegal

theorem run_cons {r q : HostRun} {turn : Turn} (h : r.turn turn = .next q) (turns : List Turn) :
    r.run (turn :: turns) = q.run turns := by
  simp only [HostRun.run, h]

/-- A POLL loop ends with the host's next pass after the engine's turn (30_encoding.md R93). -/
theorem State.Inv.run_poll_ends {s : State} (h : s.Inv) (hv : s.pend.valid = true) (n : Nat) (rest : List HostOp) :
    ∃ t : State, t.pend.valid = false ∧
      HostRun.run { program := .poll :: rest, machine := s } (List.replicate n .host ++ [.engine, .host]) =
        .next { program := rest, machine := t } := by
  obtain ⟨c, hc⟩ := h.exists_completion hv
  let polled : State := { s with replies := List.replicate n (.value (statusWord s)) ++ s.replies }
  have hengine : HostRun.turn { program := .poll :: rest, machine := polled } .engine =
      .next { program := .poll :: rest, machine := completedWith c polled } := by
    have hplay : playMove .engine polled = .next (completedWith c polled) := hc polled ⟨rfl, rfl, rfl, rfl, rfl⟩
    rw [HostRun.turn, hplay, afterMove]
  have hrun := (run_append (run_poll_busy n hv rest) [.engine, .host]).trans
    ((run_cons hengine [.host]).trans (run_cons (turn_poll_idle (complete_valid _) rest) []))
  exact ⟨_, rfl, hrun⟩

/-- Settles O12: the moves are used up one by one, and the command that waits through them completes by its rule. -/
theorem everyAcceptedCommandCompletes : Obligations.EveryAcceptedCommandCompletes := by
  intro s h hl
  refine ⟨h.run_settles rfl hl, fun i hv hd hr => ?_, fun n rest hv => h.run_poll_ends hv n rest⟩
  obtain ⟨k, hk, u, hu, hturn, hsu, hinv⟩ := h.run_to_engineTurn hv rfl hl hr
  have huv : u.pend.valid = true := hsu.pend ▸ hv
  have hud : decode u.pend.word = .ok i := hsu.pend ▸ hd
  obtain ⟨j, v, hj, hexec, hc⟩ := (hinv.setMoves u.moves.tail).exec_pending huv
  cases hj.symm.trans hud
  obtain ⟨-, -, hstatus, -⟩ := hc.frame
  refine ⟨k, hk, u, v, hu, ⟨hturn, huv, hud⟩, hsu.pend, hsu.A, hsu.result, hsu.rate, hsu.pos, hexec, hstatus, ?_⟩
  rw [step_of_engineTurn hturn]
  exact engineStep_of_exec_next (s := { u with moves := u.moves.tail }) huv hud hexec

end Sys2Proof.Machine
end
